-- ==== Sys2Proof/Word.lean ====
section
/-!
DEFINITION. The words of the coding core: bytes, pixels, 32-bit registers, 64-bit command and response words
(spec/00_scope.md R9, R10; spec/30_encoding.md R91, R92).
-/
namespace Sys2Proof

/-- One byte of a byte buffer (R60). -/
abbrev Byte := BitVec 8

/-- One pixel: alpha 31:24, red 23:16, green 15:8, blue 7:0 (R12, R62). -/
abbrev Pixel := BitVec 32

/-- A 32-bit register or response value (R26, R28 to R30, R91). -/
abbrev Reg32 := BitVec 32

/-- A 64-bit command or response word (R9 CMD_BITS, R91, R92). -/
abbrev Word64 := BitVec 64

end Sys2Proof
end

