-- ==== Sys2Proof/Config.lean ====
section
/-!
DEFINITION. What an implementation fixes: the sizes of the memories (spec/00_scope.md R9), and the names of the
memory spaces (spec/20_memory.md R60). The core has no undefined result (spec/93_implementation_defined.md), so
there is no free value here.
-/
namespace Sys2Proof

/-- The model arguments of R9. DESIGN CHOICE (log 2): they stand in `State.cfg`, a field no step changes, so that every
claim over all states quantifies over them. -/
structure Config where
  /-- Size in bytes of each of the four byte buffers. -/
  bufBytes : Nat
  /-- Number of 32-bit words of pixel memory. -/
  pmemWords : Nat
  deriving DecidableEq, Repr

/-- The defaults of R9: 65536 bytes and 65536 words. -/
def Config.standard : Config where
  bufBytes := 65536
  pmemWords := 65536

/-- The ranges of R9: 1 ≤ BUF_BYTES ≤ 2^28 and 4 ≤ PMEM_WORDS ≤ 65536. -/
abbrev Config.Legal (c : Config) : Prop :=
  1 ≤ c.bufBytes ∧ c.bufBytes ≤ 2 ^ 28 ∧ 4 ≤ c.pmemWords ∧ c.pmemWords ≤ 65536

/-- The five memories of R60. -/
inductive Space where
  | rceObuf
  | rcdIbuf
  | bpwObuf
  | bprIbuf
  | pmem
  deriving DecidableEq, Repr

/-- How many units (bytes, or words for PMEM) a space has (R60). -/
def Config.sizeOf (c : Config) : Space → Nat
  | .rceObuf => c.bufBytes
  | .rcdIbuf => c.bufBytes
  | .bpwObuf => c.bufBytes
  | .bprIbuf => c.bufBytes
  | .pmem => c.pmemWords

end Sys2Proof
end

