-- ==== Sys2Proof/Syntax.lean ====
section
/-!
DEFINITION. The 32 instructions of spec/opcode_table.json, one constructor each, with the operand fields of
spec/30_encoding.md R92 to R105. Every operand is one contiguous unsigned field (R104), so a field's type is its width
and every term has an encoding (log 15).
-/
namespace Sys2Proof

/-- The instructions of R105. -/
inductive Instr where
  /-- RCE.INIT cap: rule R130. -/
  | rceInit (cap : BitVec 32)
  /-- RCE.PUTBIT bit, prob: rule R131. -/
  | rcePutbit (bit : Bool) (prob : BitVec 8)
  /-- RCE.FINISH: rule R134. -/
  | rceFinish
  /-- RCE.ABORT: rule R135. -/
  | rceAbort
  /-- RCD.INIT len: rule R140. -/
  | rcdInit (len : BitVec 32)
  /-- RCD.GETBIT prob: rule R142. -/
  | rcdGetbit (prob : BitVec 8)
  /-- BPW.INIT cap: rule R161. -/
  | bpwInit (cap : BitVec 32)
  /-- BPW.PUTBITS value, nbits: rule R163. -/
  | bpwPutbits (value : BitVec 32) (nbits : BitVec 8)
  /-- BPW.FINISH: rule R165. -/
  | bpwFinish
  /-- BPW.ABORT: rule R166. -/
  | bpwAbort
  /-- BPR.INIT len: rule R170. -/
  | bprInit (len : BitVec 32)
  /-- BPR.READBITS nbits: rule R171. -/
  | bprReadbits (nbits : BitVec 8)
  /-- PRED0 top, left: rule R195. -/
  | pred0 (top : BitVec 16) (left : Pixel)
  /-- PRED1 top, left: rule R196. -/
  | pred1 (top : BitVec 16) (left : Pixel)
  /-- PRED2 top, left: rule R197. -/
  | pred2 (top : BitVec 16) (left : Pixel)
  /-- PRED3 top, left: rule R198. -/
  | pred3 (top : BitVec 16) (left : Pixel)
  /-- PRED4 top, left: rule R199. -/
  | pred4 (top : BitVec 16) (left : Pixel)
  /-- PRED5 top, left: rule R200. -/
  | pred5 (top : BitVec 16) (left : Pixel)
  /-- PRED6 top, left: rule R201. -/
  | pred6 (top : BitVec 16) (left : Pixel)
  /-- PRED7 top, left: rule R202. -/
  | pred7 (top : BitVec 16) (left : Pixel)
  /-- PRED8 top, left: rule R203. -/
  | pred8 (top : BitVec 16) (left : Pixel)
  /-- PRED9 top, left: rule R204. -/
  | pred9 (top : BitVec 16) (left : Pixel)
  /-- PRED10 top, left: rule R205. -/
  | pred10 (top : BitVec 16) (left : Pixel)
  /-- PRED11 top, left: rule R206. -/
  | pred11 (top : BitVec 16) (left : Pixel)
  /-- PRED12 top, left: rule R207. -/
  | pred12 (top : BitVec 16) (left : Pixel)
  /-- PRED13 top, left: rule R208. -/
  | pred13 (top : BitVec 16) (left : Pixel)
  /-- SUBG addr, count: rule R233. -/
  | subg (addr : BitVec 16) (count : BitVec 16)
  /-- ADDG addr, count: rule R234. -/
  | addg (addr : BitVec 16) (count : BitVec 16)
  /-- CT.SETM g2r, g2b, r2b: rule R235. -/
  | ctSetm (g2r : BitVec 8) (g2b : BitVec 8) (r2b : BitVec 8)
  /-- CT.FWD addr, count: rule R236. -/
  | ctFwd (addr : BitVec 16) (count : BitVec 16)
  /-- CT.INV src, dst, count: rule R237. -/
  | ctInv (src : BitVec 16) (dst : BitVec 16) (count : BitVec 16)
  /-- RDSR sr: rule R260. -/
  | rdsr (sr : BitVec 8)
  deriving DecidableEq, Repr

end Sys2Proof
end

