-- ==== Sys2Proof/Machine/State.lean ====
section
/-!
DEFINITION. Everything the spec gives one core (spec/10_state.md R20): the registers of the four stateful units, the
colour transform's register, the command counter, the five memories and the two ports; the reasons a step can stop; the
machine right after reset (R56, spec/70_reset_and_hazards.md R310, R311).
-/
namespace Sys2Proof.Machine

/-- A memory of `w`-bit units as (address, unit) pairs. An address that is not listed holds no value (R63; log 3).
`Memory 8` is a list of `Host.Cell`; `Memory 32` holds the words of PMEM, which has no byte access (R62; log 11). -/
abbrev Memory (w : Nat) := List (Nat × BitVec w)

/-- The canonical form: addresses strictly rising. Every listed unit has a value, which no unlisted address has. -/
abbrev Memory.wf {w : Nat} (m : Memory w) : Prop := m.Pairwise fun a b => a.1 < b.1

/-- `U.ST` of R21: IDLE is 0, ACTIVE is 1. -/
inductive Lifecycle where
  | idle
  | active
  deriving DecidableEq, Repr

/-- The codes 0 to 7 of spec/60_exceptions.md R271, the value of a response's status field and of `U.ERR` (R22), whose
3 bits hold exactly these eight values (log 12). -/
inductive Status where
  | ok
  | illegal
  | state
  | operand
  | addr
  | capacity
  | eos
  | corrupt
  deriving DecidableEq, Repr

/-- What stands on the command port and the response port (spec/30_encoding.md R90, R91). The host presents a command
only after it has taken the previous response, so at most one of the two ports holds a word (log 1). -/
inductive Ports where
  /-- No command presented, no response waiting. -/
  | idle
  /-- The host has presented this command word. -/
  | command (w : Word64)
  /-- The core has answered with this response word and the host has not taken it yet. -/
  | response (w : Word64)
  deriving DecidableEq, Repr

/-- The range-coder encoder: R21 to R30 and its output buffer (R60). -/
structure Rce where
  st : Lifecycle
  err : Status
  range : BitVec 8
  low : BitVec 8
  held : Bool
  outst : BitVec 32
  pbyte : BitVec 8
  pcnt : BitVec 3
  bitpos : BitVec 32
  olen : BitVec 32
  ocap : BitVec 32
  obuf : Memory 8
  deriving DecidableEq, Repr

/-- The range-coder decoder: R21, R22, R32 to R35 and its input buffer (R60). -/
structure Rcd where
  st : Lifecycle
  err : Status
  range : BitVec 8
  value : BitVec 8
  bitpos : BitVec 32
  ilen : BitVec 32
  ibuf : Memory 8
  deriving DecidableEq, Repr

/-- The bit-packer writer: R21, R22, R37 to R40 and its output buffer (R60). -/
structure Bpw where
  st : Lifecycle
  err : Status
  acc : BitVec 32
  pend : BitVec 5
  olen : BitVec 32
  ocap : BitVec 32
  obuf : Memory 8
  deriving DecidableEq, Repr

/-- The bit-packer reader: R21, R22, R42 to R45 and its input buffer (R60). -/
structure Bpr where
  st : Lifecycle
  err : Status
  acc : BitVec 32
  cnt : BitVec 5
  pos : BitVec 32
  ilen : BitVec 32
  ibuf : Memory 8
  deriving DecidableEq, Repr

/-- The state of one core (R20). `cfg` is the model's own field: the parameters of R9, which no step changes (log 2). -/
structure State where
  cfg : Config
  rce : Rce
  rcd : Rcd
  bpw : Bpw
  bpr : Bpr
  /-- `CDT.MULT` of R47. -/
  mult : BitVec 24
  /-- The pixel memory of R62. -/
  pmem : Memory 32
  /-- The command counter `CC` of R53. -/
  cc : BitVec 32
  ports : Ports
  deriving DecidableEq, Repr

/-- The faults of the model. None is an architectural error: those are answered in the response (R271). -/
inductive Fault where
  /-- A command reads a byte or word that nothing has written since reset (R63, U2). Raised by `memRead`: RCD.INIT,
  RCD.GETBIT, BPR.READBITS, PRED0 to PRED13, SUBG, ADDG, CT.FWD, CT.INV. Safe: the machine stops where the hardware's
  value is unspecified (log 3). -/
  | unwrittenRead (space : Space) (addr : Nat)
  /-- An access outside a space (R72 says no rule makes one). Raised by `memRead` and `memWrite`, only in states no run
  reaches. Safe (log 4). -/
  | outsideSpace (space : Space) (addr : Nat)
  /-- `carry()` with `RCE.HELD = 0`, which R127 gives no meaning. Raised by RCE.PUTBIT, only in states no run reaches.
  Safe (log 4). -/
  | carryWithNothingHeld
  /-- The split of R122 asked for a range outside 128..255. Raised by RCE.PUTBIT and RCD.GETBIT, only in states no run
  reaches. Safe (log 4). -/
  | rangeOutsideBand
  /-- A value that does not fit the register a rule stores it in, where the spec rests on an invariant (R10, R31, R36, R41,
  R46). Raised by `fit`, only in states no run reaches. Safe (log 4). -/
  | doesNotFit
  deriving DecidableEq, Repr

/-- The refusals. Every instruction has its meaning, so no step answers one. -/
inductive Refusal where
  /-- An instruction without a meaning yet. Raised by an arm of `exec` only; no arm is left. Safe: the machine stops. -/
  | notModelled (mnemonic : String)
  deriving DecidableEq, Repr

/-- The encoder after reset (R56): every register 0, no byte of `RCE.OBUF` written (R63). -/
def Rce.reset : Rce where
  st := .idle
  err := .ok
  range := 0
  low := 0
  held := false
  outst := 0
  pbyte := 0
  pcnt := 0
  bitpos := 0
  olen := 0
  ocap := 0
  obuf := []

/-- The decoder after reset (R56, R63). -/
def Rcd.reset : Rcd where
  st := .idle
  err := .ok
  range := 0
  value := 0
  bitpos := 0
  ilen := 0
  ibuf := []

/-- The writer after reset (R56, R63). -/
def Bpw.reset : Bpw where
  st := .idle
  err := .ok
  acc := 0
  pend := 0
  olen := 0
  ocap := 0
  obuf := []

/-- The reader after reset (R56, R63). -/
def Bpr.reset : Bpr where
  st := .idle
  err := .ok
  acc := 0
  cnt := 0
  pos := 0
  ilen := 0
  ibuf := []

/-- A core of the given sizes after reset (R56, R310): every register 0, every memory without a value, no command
presented (log 17). -/
def State.resetWith (c : Config) : State where
  cfg := c
  rce := Rce.reset
  rcd := Rcd.reset
  bpw := Bpw.reset
  bpr := Bpr.reset
  mult := 0
  pmem := []
  cc := 0
  ports := .idle

/-- The machine right after reset, with the default sizes of R9. -/
def State.reset : State := State.resetWith Config.standard

end Sys2Proof.Machine
end

