-- ==== Sys2Proof/Machine/Ops.lean ====
section
/-!
DEFINITION. The named operations every command is built from: reading and writing a memory (spec/20_memory.md R72, R74),
storing an integer in a register (spec/00_scope.md R10), answering a command (spec/30_encoding.md R90, R91), and
taking an error, the core's only kind of exception (spec/60_exceptions.md R280, R282).
-/
namespace Sys2Proof.Machine

/-- What `exec` and `step` answer. -/
abbrev Result := Host.Outcome State Fault Refusal

/-! ### Memories -/

/-- The unit at an address, or `none` where nothing has been written since reset (R63). -/
def Memory.read {w : Nat} : Memory w → Nat → Option (BitVec w)
  | [], _ => none
  | (b, v) :: rest, a => if a = b then some v else Memory.read rest a

/-- The memory with one unit replaced (R72); it keeps the addresses strictly rising. -/
def Memory.write {w : Nat} : Memory w → Nat → BitVec w → Memory w
  | [], a, v => [(a, v)]
  | (b, x) :: rest, a, v =>
    if a < b then (a, v) :: (b, x) :: rest
    else if a = b then (a, v) :: rest
    else (b, x) :: Memory.write rest a v

/-- `MemRead` of R72. Reading a unit nothing has written is a fault of the model (R63, U2). -/
def memRead {w : Nat} (c : Config) (sp : Space) (m : Memory w) (a : Nat) : Except Fault (BitVec w) :=
  if a < c.sizeOf sp then
    match m.read a with
    | some v => .ok v
    | none => .error (.unwrittenRead sp a)
  else .error (.outsideSpace sp a)

/-- `MemWrite` of R72. -/
def memWrite {w : Nat} (c : Config) (sp : Space) (m : Memory w) (a : Nat) (v : BitVec w) :
    Except Fault (Memory w) :=
  if a < c.sizeOf sp then .ok (m.write a v) else .error (.outsideSpace sp a)

/-- Storing an exact integer in a `w`-bit register where the rule states no reduction: R10 lets it rest on an invariant
that makes the value fit, and in a state where it does not fit the model stops (log 4). -/
def fit (w : Nat) (n : Nat) : Except Fault (BitVec w) :=
  if n < 2 ^ w then .ok (BitVec.ofNat w n) else .error .doesNotFit

/-- `append(U, byte)` of R61 and R74 (a): write at `U.OLEN`, then `U.OLEN <- U.OLEN + 1`. -/
def append (c : Config) (sp : Space) (m : Memory 8) (olen : BitVec 32) (byte : Byte) :
    Except Fault (Memory 8 × BitVec 32) := do
  let m' ← memWrite c sp m olen.toNat byte
  let olen' ← fit 32 (olen.toNat + 1)
  .ok (m', olen')

/-! ### Updating a unit -/

/-- The state with the encoder replaced. -/
def State.setRce (s : State) (u : Rce) : State := { s with rce := u }

/-- The state with the decoder replaced. -/
def State.setRcd (s : State) (u : Rcd) : State := { s with rcd := u }

/-- The state with the writer replaced. -/
def State.setBpw (s : State) (u : Bpw) : State := { s with bpw := u }

/-- The state with the reader replaced. -/
def State.setBpr (s : State) (u : Bpr) : State := { s with bpr := u }

/-- The state with `CDT.MULT` replaced. -/
def State.setMult (s : State) (m : BitVec 24) : State := { s with mult := m }

/-- The state with the pixel memory replaced. -/
def State.setPmem (s : State) (m : Memory 32) : State := { s with pmem := m }

/-! ### Answering a command -/

/-- The code of a status in the response's 8-bit status field (R271). -/
def Status.code : Status → BitVec 8
  | .ok => 0
  | .illegal => 1
  | .state => 2
  | .operand => 3
  | .addr => 4
  | .capacity => 5
  | .eos => 6
  | .corrupt => 7

/-- The response word of R91: bits 63:40 zero, status in 39:32, value in 31:0. -/
def responseWord (st : Status) (value : Reg32) : Word64 := (0 : BitVec 24) ++ st.code ++ value

/-- The end of every command: `CC <- (CC + 1) mod 2^32` (R53), and one response word on the response port (R90). -/
def State.answer (s : State) (st : Status) (value : Reg32) : State :=
  { s with cc := s.cc + 1, ports := .response (responseWord st value) }

/-- `respond(v)` of R13: the command ends with status OK and value `v`. -/
def State.respond (s : State) (value : Reg32) : Result := .next (s.answer .ok value)

/-- `raise E` of R13, the one way a command takes an error: the response carries the code of `E` and value 0, `CC`
advances, and nothing else changes here (R280, R282). Nothing is saved and control goes nowhere (R282); the writes that R280
allows `E` (a sticky `U.ERR`, a closed session) are made by the caller on the state it passes. There is no return
from an error (R283): a sticky code is cleared or replaced by the unit's next INIT, cleared by ABORT, or by reset. -/
def State.raise (s : State) (e : Status) : Result := .next (s.answer e 0)

/-- A command goes on with the value of an operation, or the machine stops with the operation's fault. -/
def orFault {α : Type} (r : Except Fault α) (k : α → Result) : Result :=
  match r with
  | .ok a => k a
  | .error f => .fault f

/-- Reset asserted and released (R310): registers 0, every memory without a value (U5), the sizes as they are (log 7). -/
def State.assertReset (s : State) : State := State.resetWith s.cfg

end Sys2Proof.Machine
end

