-- ==== Sys2Proof/Machine/Flags.lean ====
section
/-!
DEFINITION. The only status flags of the core, `U.ST` and `U.ERR` (spec/10_state.md R50): the check a data command makes on
them, the sticky errors, and the status words a program reads (R51).
-/
namespace Sys2Proof.Machine

/-- What a data command or FINISH meets before its operands are examined (spec/60_exceptions.md R281 steps 2 and 3): STATE in IDLE
(R276), else the stored error (R278), else nothing. -/
def dataGate (st : Lifecycle) (err : Status) : Option Status :=
  if st = .idle then some .state else if err = .ok then none else some err

/-- A sticky error of the encoder: `RCE.ERR` takes the code and the response carries it (R271, R280). -/
def raiseRce (s : State) (e : Status) : Result := (s.setRce { s.rce with err := e }).raise e

/-- A sticky error of the decoder (R271, R280). -/
def raiseRcd (s : State) (e : Status) : Result := (s.setRcd { s.rcd with err := e }).raise e

/-- A sticky error of the writer (R271, R280). -/
def raiseBpw (s : State) (e : Status) : Result := (s.setBpw { s.bpw with err := e }).raise e

/-- A sticky error of the reader (R271, R280). -/
def raiseBpr (s : State) (e : Status) : Result := (s.setBpr { s.bpr with err := e }).raise e

/-- A failing RCD.INIT: the session it found ends too (R140, R280). -/
def failRcdInit (s : State) (e : Status) : Result :=
  (s.setRcd { s.rcd with st := .idle, err := e }).raise e

/-- A failing BPR.INIT: the session it found ends too (R170, R280). -/
def failBprInit (s : State) (e : Status) : Result :=
  (s.setBpr { s.bpr with st := .idle, err := e }).raise e

/-- Bit 0 of a STAT register (R51). -/
def Lifecycle.bit : Lifecycle → BitVec 1
  | .idle => 0
  | .active => 1

/-- A STAT register: bit 0 `U.ST`, bits 3:1 `U.ERR`, bits 31:4 zero (R51). -/
def statWord (st : Lifecycle) (err : Status) : Reg32 :=
  (0 : BitVec 28) ++ err.code.extractLsb' 0 3 ++ st.bit

end Sys2Proof.Machine
end

