-- ==== Sys2Proof/Machine/BitPacker.lean ====
section
/-!
DEFINITION. The raw bit packer, units BPW and BPR (spec/41_bit_packer.md): LSB-first in each byte (spec/20_memory.md R66 a).
-/
namespace Sys2Proof.Machine

/-- The largest width of one packer call, MAX_NBITS of spec/00_scope.md R9. -/
def maxNbits : Nat := 24

/-! ### The writer -/

/-- `while BPW.PEND ≥ 8` of R163: the low byte is appended and shifted out, at most `n` times; the caller gives 3, which is
enough for a 5-bit PEND (log 13). -/
def flushBytes (c : Config) : Nat → Bpw → Except Fault Bpw
  | 0, u => .ok u
  | n + 1, u =>
    if 8 ≤ u.pend.toNat then do
      let (obuf, olen) ← append c .bpwObuf u.obuf u.olen (u.acc.setWidth 8)
      flushBytes c n { u with obuf := obuf, olen := olen, acc := u.acc >>> 8, pend := u.pend - 8 }
    else .ok u

/-- The writes of an accepted PUTBITS (R163): the low `nbits` bits of `value` above the pending bits, then whole bytes out. -/
def packBits (c : Config) (value : BitVec 32) (nbits : Nat) (u : Bpw) : Except Fault Bpw := do
  let acc ← fit 32 (u.acc.toNat ||| ((value.toNat % 2 ^ nbits) * 2 ^ u.pend.toNat))
  let pend ← fit 5 (u.pend.toNat + nbits)
  flushBytes c 3 { u with acc := acc, pend := pend }

/-- The writes of a successful FINISH up to the response (R165): the pending bits as one last byte. -/
def finishPack (c : Config) (u : Bpw) : Except Fault Bpw :=
  if 0 < u.pend.toNat then do
    let (obuf, olen) ← append c .bpwObuf u.obuf u.olen (u.acc.setWidth 8)
    .ok { u with obuf := obuf, olen := olen, acc := 0, pend := 0, st := .idle }
  else .ok { u with st := .idle }

/-- The registers BPW.INIT sets (R161). -/
def openBpw (u : Bpw) (cap : BitVec 32) : Bpw :=
  { u with
    acc := 0
    pend := 0
    olen := 0
    ocap := cap
    err := .ok
    st := .active }

/-- BPW.INIT cap (R161). -/
def execBpwInit (cap : BitVec 32) (s : State) : Result :=
  if s.bpw.st = .active then s.raise .state
  else if cap.toNat ≤ s.cfg.bufBytes then (s.setBpw (openBpw s.bpw cap)).respond 0
  else raiseBpw s .operand

/-- BPW.PUTBITS value, nbits (R162, R163). -/
def execBpwPutbits (value : BitVec 32) (nbits : BitVec 8) (s : State) : Result :=
  match dataGate s.bpw.st s.bpw.err with
  | some e => s.raise e
  | none =>
    if maxNbits < nbits.toNat then raiseBpw s .operand
    else if 8 * s.bpw.olen.toNat + s.bpw.pend.toNat + nbits.toNat ≤ 8 * s.bpw.ocap.toNat then
      orFault (packBits s.cfg value nbits.toNat s.bpw) fun u => (s.setBpw u).respond 0
    else raiseBpw s .capacity

/-- BPW.FINISH (R165): after an error it fails, closes the session and keeps `BPW.ERR` (R278). -/
def execBpwFinish (s : State) : Result :=
  if s.bpw.st = .idle then s.raise .state
  else if s.bpw.err = .ok then
    orFault (finishPack s.cfg s.bpw) fun u => (s.setBpw u).respond u.olen
  else (s.setBpw { s.bpw with st := .idle, olen := 0 }).raise s.bpw.err

/-- BPW.ABORT (R166). -/
def execBpwAbort (s : State) : Result :=
  if s.bpw.st = .idle then s.raise .state
  else (s.setBpw { s.bpw with st := .idle, err := .ok, olen := 0 }).respond 0

/-! ### The reader -/

/-- `while BPR.CNT < nbits` of R171: one byte of `BPR.IBUF` above the bits already held, at most `n` times; the caller gives 3,
which is enough for 24 bits (log 13). With `CNT < nbits ≤ 24` neither `CNT + 8` nor the shifted byte passes its register. -/
def refill (c : Config) (nbits : Nat) : Nat → Bpr → Except Fault Bpr
  | 0, u => .ok u
  | n + 1, u =>
    if u.cnt.toNat < nbits then do
      let byte ← memRead c .bprIbuf u.ibuf u.pos.toNat
      let pos ← fit 32 (u.pos.toNat + 1)
      refill c nbits n
        { u with acc := u.acc ||| (byte.setWidth 32 <<< u.cnt.toNat), cnt := u.cnt + 8, pos := pos }
    else .ok u

/-- The bits READBITS may still take: `8·(BPR.ILEN − BPR.POS) + BPR.CNT` of R171, an integer. -/
def bitsLeft (u : Bpr) : Int := 8 * ((u.ilen.toNat : Int) - u.pos.toNat) + u.cnt.toNat

/-- The low `nbits` bits of the accumulator, the result of R171. -/
def takeBits (acc : BitVec 32) (nbits : Nat) : Reg32 := acc &&& BitVec.ofNat 32 (2 ^ nbits - 1)

/-- The reader after the bits were taken (R171). -/
def dropBits (u : Bpr) (nbits : Nat) : Bpr :=
  { u with acc := u.acc >>> nbits, cnt := u.cnt - BitVec.ofNat 5 nbits }

/-- The registers BPR.INIT sets (R170). -/
def openBpr (u : Bpr) (len : BitVec 32) : Bpr :=
  { u with
    ilen := len
    acc := 0
    cnt := 0
    pos := 0
    err := .ok
    st := .active }

/-- BPR.INIT len (R170): legal in both lifecycle states; it ends any open session, also when it fails. -/
def execBprInit (len : BitVec 32) (s : State) : Result :=
  if len.toNat ≤ s.cfg.bufBytes then (s.setBpr (openBpr s.bpr len)).respond 0
  else failBprInit s .operand

/-- BPR.READBITS nbits (R171, R172). -/
def execBprReadbits (nbits : BitVec 8) (s : State) : Result :=
  match dataGate s.bpr.st s.bpr.err with
  | some e => s.raise e
  | none =>
    if maxNbits < nbits.toNat then raiseBpr s .operand
    else if (nbits.toNat : Int) ≤ bitsLeft s.bpr then
      orFault (refill s.cfg nbits.toNat 3 s.bpr) fun u =>
        (s.setBpr (dropBits u nbits.toNat)).respond (takeBits u.acc nbits.toNat)
    else raiseBpr s .eos

end Sys2Proof.Machine
end

