-- ==== Sys2Proof/Machine/Operands.lean ====
section
/-!
DEFINITION. The operand forms: the integer operators of spec/00_scope.md R11, the lanes of a pixel (R12), the PMEM operands
and their bounds (spec/20_memory.md R73, R74), the fields of the multiplier tuple (spec/10_state.md R47).
-/
namespace Sys2Proof.Machine

/-! ### Integer operators (R11) -/

/-- `u8(a)`: a mod 256, of a negative integer too. -/
def u8 (a : Int) : Byte := BitVec.ofInt 8 a

/-- `u32(a)`: a mod 2^32, the two's-complement image. -/
def u32 (a : Int) : Reg32 := BitVec.ofInt 32 a

/-- `s8(b)`: the byte read as a signed integer. -/
def s8 (b : Byte) : Int := b.toInt

/-- `asr(a, n)`: floor(a / 2^n); integer division by a positive divisor rounds toward minus infinity. -/
def asr (a : Int) (n : Nat) : Int := a / 2 ^ n

/-- `tdiv2(a)`: a divided by 2, rounding toward zero. -/
def tdiv2 (a : Int) : Int := Int.tdiv a 2

/-! ### Pixel lanes (R12) -/

/-- `lane(p, k)`: bits 8k+7 to 8k; lane 0 is blue, 1 green, 2 red, 3 alpha. -/
def lane (p : Pixel) (k : Nat) : Byte := p.extractLsb' (8 * k) 8

/-- `A(p)`. -/
def alphaOf (p : Pixel) : Byte := lane p 3

/-- `R(p)`. -/
def redOf (p : Pixel) : Byte := lane p 2

/-- `G(p)`. -/
def greenOf (p : Pixel) : Byte := lane p 1

/-- `B(p)`. -/
def blueOf (p : Pixel) : Byte := lane p 0

/-- `pack(a, r, g, b)`. -/
def pack (a r g b : Byte) : Pixel := a ++ r ++ g ++ b

/-- `pack_k(f k)` of R210: the result of lane k in lane k. -/
def packLanes (f : Nat → Byte) : Pixel := pack (f 3) (f 2) (f 1) (f 0)

/-! ### PMEM operands (R73) -/

/-- A range operand (addr, count) lies in PMEM: `addr + count ≤ PMEM_WORDS`, an integer sum. -/
def rangeInPmem (c : Config) (addr count : BitVec 16) : Bool :=
  decide (addr.toNat + count.toNat ≤ c.pmemWords)

/-- A predictor's `top` has its two neighbours in PMEM: `1 ≤ top` and `top + 1 ≤ PMEM_WORDS − 1`. -/
def topInPmem (c : Config) (top : BitVec 16) : Bool :=
  decide (1 ≤ top.toNat ∧ top.toNat + 1 ≤ c.pmemWords - 1)

/-- The pixels of a range, each read and then written before the next is read, in ascending order (R74 c, R232, R237):
`n` pixels from `src` on, `f` of each stored from `dst` on. -/
def mapPixels (c : Config) (f : Pixel → Pixel) : (n src dst : Nat) → Memory 32 → Except Fault (Memory 32)
  | 0, _, _, m => .ok m
  | n + 1, src, dst, m => do
    let p ← memRead c .pmem m src
    let m' ← memWrite c .pmem m dst (f p)
    mapPixels c f n (src + 1) (dst + 1) m'

/-! ### The multiplier tuple (R47) -/

/-- `G2R`, bits 23:16 of `CDT.MULT`. -/
def g2rOf (mult : BitVec 24) : Byte := mult.extractLsb' 16 8

/-- `G2B`, bits 15:8 of `CDT.MULT`. -/
def g2bOf (mult : BitVec 24) : Byte := mult.extractLsb' 8 8

/-- `R2B`, bits 7:0 of `CDT.MULT`. -/
def r2bOf (mult : BitVec 24) : Byte := mult.extractLsb' 0 8

end Sys2Proof.Machine
end

