-- ==== Sys2Proof/Machine/ColorTransform.lean ====
section
/-!
DEFINITION. The colour decorrelation transform (spec/43_color_transform.md): `delta`, the four pixel functions, and the
five instructions over the template of R232.
-/
namespace Sys2Proof.Machine

/-- `delta(coef, channel)` of R231: signed bytes multiplied exactly, then an arithmetic shift right by 5. -/
def delta (coef channel : Byte) : Int := asr (s8 coef * s8 channel) 5

/-- A channel as an integer 0..255. -/
def chan (b : Byte) : Int := b.toNat

/-- f_SUBG of R233. -/
def subGreen (p : Pixel) : Pixel :=
  pack (alphaOf p) (u8 (chan (redOf p) - chan (greenOf p))) (greenOf p) (u8 (chan (blueOf p) - chan (greenOf p)))

/-- f_ADDG of R234. -/
def addGreen (p : Pixel) : Pixel :=
  pack (alphaOf p) (u8 (chan (redOf p) + chan (greenOf p))) (greenOf p) (u8 (chan (blueOf p) + chan (greenOf p)))

/-- f_FWD of R236: blue consumes green and the original red. -/
def forwardPixel (mult : BitVec 24) (p : Pixel) : Pixel :=
  let g := greenOf p
  let nr := u8 (chan (redOf p) - delta (g2rOf mult) g)
  let nb := u8 (chan (blueOf p) - delta (g2bOf mult) g - delta (r2bOf mult) (redOf p))
  pack (alphaOf p) nr g nb

/-- f_INV of R237: blue consumes green and the red just recomputed. -/
def inversePixel (mult : BitVec 24) (p : Pixel) : Pixel :=
  let g := greenOf p
  let nr := u8 (chan (redOf p) + delta (g2rOf mult) g)
  let nb := u8 (chan (blueOf p) + delta (g2bOf mult) g + delta (r2bOf mult) nr)
  pack (alphaOf p) nr g nb

/-- The template of R232: the bounds check once, then every pixel of the range in place. -/
def mapRange (f : Pixel → Pixel) (addr count : BitVec 16) (s : State) : Result :=
  if rangeInPmem s.cfg addr count then
    orFault (mapPixels s.cfg f count.toNat addr.toNat addr.toNat s.pmem) fun m => (s.setPmem m).respond 0
  else s.raise .addr

/-- SUBG addr, count (R233). -/
def execSubg (addr count : BitVec 16) (s : State) : Result := mapRange subGreen addr count s

/-- ADDG addr, count (R234). -/
def execAddg (addr count : BitVec 16) (s : State) : Result := mapRange addGreen addr count s

/-- CT.SETM g2r, g2b, r2b (R235). -/
def execCtSetm (g2r g2b r2b : BitVec 8) (s : State) : Result := (s.setMult (g2r ++ g2b ++ r2b)).respond 0

/-- CT.FWD addr, count (R236). -/
def execCtFwd (addr count : BitVec 16) (s : State) : Result := mapRange (forwardPixel s.mult) addr count s

/-- CT.INV src, dst, count (R237): the source range is checked before the destination range (R281). -/
def execCtInv (src dst count : BitVec 16) (s : State) : Result :=
  if rangeInPmem s.cfg src count then
    if rangeInPmem s.cfg dst count then
      orFault (mapPixels s.cfg (inversePixel s.mult) count.toNat src.toNat dst.toNat s.pmem) fun m =>
        (s.setPmem m).respond 0
    else s.raise .addr
  else s.raise .addr

end Sys2Proof.Machine
end

