-- ==== Sys2Proof/Machine/Predictors.lean ====
section
/-!
DEFINITION. The pixel predictor bank (spec/42_predictors.md): the packed arithmetic of R190 to R193 and R209 to R211, the
fourteen predictor functions, and their instructions over the template of R194.
-/
namespace Sys2Proof.Machine

/-- `avg2(a, b)` of R191: every lane averaged and rounded down, on the packed word. -/
def avg2 (a b : Pixel) : Pixel := (((a ^^^ b) &&& 0xFEFEFEFE) >>> 1) + (a &&& b)

/-- `clip255(x)` of R193 on the two's-complement word of x; the result is below 256. -/
def clip255 (x : Int) : Byte :=
  let u := u32 x
  (if u < 256 then u else ~~~u >>> 24).setWidth 8

/-- The difference of two bytes as integers 0..255 (R209). -/
def byteDiff (a b : Byte) : Int := (a.toNat : Int) - b.toNat

/-- `|lane(T,k) − lane(TL,k)| − |lane(L,k) − lane(TL,k)|` of R209. -/
def selectTerm (t l tl : Pixel) (k : Nat) : Int :=
  |byteDiff (lane t k) (lane tl k)| - |byteDiff (lane l k) (lane tl k)|

/-- `Select(T, L, TL)` of R209; a tie returns T. -/
def select (t l tl : Pixel) : Pixel :=
  if selectTerm t l tl 0 + selectTerm t l tl 1 + selectTerm t l tl 2 + selectTerm t l tl 3 ≤ 0 then t else l

/-- `ClampedAddSubtractFull(a, b, c)` of R210. -/
def clampedAddSubtractFull (a b c : Pixel) : Pixel :=
  packLanes fun k => clip255 ((lane a k).toNat + byteDiff (lane b k) (lane c k))

/-- `ClampedAddSubtractHalf(a, b)` of R211; the half rounds toward zero. -/
def clampedAddSubtractHalf (a b : Pixel) : Pixel :=
  packLanes fun k => clip255 ((lane a k).toNat + tdiv2 (byteDiff (lane a k) (lane b k)))

/-- The template of R194: the address check, the three reads, the response. Nothing is written but `CC` and the port. -/
def predict (f : Pixel → Pixel → Pixel → Pixel → Pixel) (top : BitVec 16) (left : Pixel) (s : State) : Result :=
  if topInPmem s.cfg top then
    orFault (memRead s.cfg .pmem s.pmem (top.toNat - 1)) fun tl =>
    orFault (memRead s.cfg .pmem s.pmem top.toNat) fun t =>
    orFault (memRead s.cfg .pmem s.pmem (top.toNat + 1)) fun tr =>
    s.respond (f left tl t tr)
  else s.raise .addr

/-- f_0 of R195: constant opaque black. -/
def predictor0 (_l _tl _t _tr : Pixel) : Pixel := 0xFF000000

/-- f_1 of R196: left. -/
def predictor1 (l _tl _t _tr : Pixel) : Pixel := l

/-- f_2 of R197: top. -/
def predictor2 (_l _tl t _tr : Pixel) : Pixel := t

/-- f_3 of R198: top-right. -/
def predictor3 (_l _tl _t tr : Pixel) : Pixel := tr

/-- f_4 of R199: top-left. -/
def predictor4 (_l tl _t _tr : Pixel) : Pixel := tl

/-- f_5 of R200: avg3(left, top, top-right). -/
def predictor5 (l _tl t tr : Pixel) : Pixel := avg2 (avg2 l tr) t

/-- f_6 of R201: avg2(left, top-left). -/
def predictor6 (l tl _t _tr : Pixel) : Pixel := avg2 l tl

/-- f_7 of R202: avg2(left, top). -/
def predictor7 (l _tl t _tr : Pixel) : Pixel := avg2 l t

/-- f_8 of R203: avg2(top-left, top). -/
def predictor8 (_l tl t _tr : Pixel) : Pixel := avg2 tl t

/-- f_9 of R204: avg2(top, top-right). -/
def predictor9 (_l _tl t tr : Pixel) : Pixel := avg2 t tr

/-- f_10 of R205: avg4(left, top-left, top, top-right). -/
def predictor10 (l tl t tr : Pixel) : Pixel := avg2 (avg2 l tl) (avg2 t tr)

/-- f_11 of R206: Select(top, left, top-left). -/
def predictor11 (l tl t _tr : Pixel) : Pixel := select t l tl

/-- f_12 of R207: ClampedAddSubtractFull(left, top, top-left). -/
def predictor12 (l tl t _tr : Pixel) : Pixel := clampedAddSubtractFull l t tl

/-- f_13 of R208: ClampedAddSubtractHalf(avg2(left, top), top-left). -/
def predictor13 (l tl t _tr : Pixel) : Pixel := clampedAddSubtractHalf (avg2 l t) tl

/-- PRED0 top, left (R194, R195). -/
def execPred0 (top : BitVec 16) (left : Pixel) (s : State) : Result := predict predictor0 top left s

/-- PRED1 top, left (R194, R196). -/
def execPred1 (top : BitVec 16) (left : Pixel) (s : State) : Result := predict predictor1 top left s

/-- PRED2 top, left (R194, R197). -/
def execPred2 (top : BitVec 16) (left : Pixel) (s : State) : Result := predict predictor2 top left s

/-- PRED3 top, left (R194, R198). -/
def execPred3 (top : BitVec 16) (left : Pixel) (s : State) : Result := predict predictor3 top left s

/-- PRED4 top, left (R194, R199). -/
def execPred4 (top : BitVec 16) (left : Pixel) (s : State) : Result := predict predictor4 top left s

/-- PRED5 top, left (R194, R200). -/
def execPred5 (top : BitVec 16) (left : Pixel) (s : State) : Result := predict predictor5 top left s

/-- PRED6 top, left (R194, R201). -/
def execPred6 (top : BitVec 16) (left : Pixel) (s : State) : Result := predict predictor6 top left s

/-- PRED7 top, left (R194, R202). -/
def execPred7 (top : BitVec 16) (left : Pixel) (s : State) : Result := predict predictor7 top left s

/-- PRED8 top, left (R194, R203). -/
def execPred8 (top : BitVec 16) (left : Pixel) (s : State) : Result := predict predictor8 top left s

/-- PRED9 top, left (R194, R204). -/
def execPred9 (top : BitVec 16) (left : Pixel) (s : State) : Result := predict predictor9 top left s

/-- PRED10 top, left (R194, R205). -/
def execPred10 (top : BitVec 16) (left : Pixel) (s : State) : Result := predict predictor10 top left s

/-- PRED11 top, left (R194, R206). -/
def execPred11 (top : BitVec 16) (left : Pixel) (s : State) : Result := predict predictor11 top left s

/-- PRED12 top, left (R194, R207). -/
def execPred12 (top : BitVec 16) (left : Pixel) (s : State) : Result := predict predictor12 top left s

/-- PRED13 top, left (R194, R208). -/
def execPred13 (top : BitVec 16) (left : Pixel) (s : State) : Result := predict predictor13 top left s

end Sys2Proof.Machine
end

