-- ==== Sys2Proof/Machine/RangeCoder.lean ====
section
/-!
DEFINITION. The binary range coder, units RCE and RCD (spec/40_range_coder.md): the split and the shift count both halves
share, the encoder's procedures that keep bits back until no carry can reach them, and the six instructions.
-/
namespace Sys2Proof.Machine

/-! ### The arithmetic both halves share -/

/-- `split(range, prob)` of R122, for range in 128..255 and prob in 1..255. -/
def split (range prob : Nat) : Nat := 1 + ((range - 1) * prob) / 2 ^ 8

/-- `nshift(r)` of R128, by its table, for r in 1..255: the least n with r·2^n ≥ 128. -/
def nshift (r : Nat) : Nat :=
  if 128 ≤ r then 0
  else if 64 ≤ r then 1
  else if 32 ≤ r then 2
  else if 16 ≤ r then 3
  else if 8 ≤ r then 4
  else if 4 ≤ r then 5
  else if 2 ≤ r then 6
  else 7

/-! ### The encoder's procedures -/

/-- `emit_bit(b)` of R126, the byte assembler: the first of eight bits ends in bit 7 of the byte (R66 b). -/
def emitBit (c : Config) (b : Bool) (u : Rce) : Except Fault Rce :=
  let byte : Byte := (u.pbyte <<< 1) ||| (BitVec.ofBool b).setWidth 8
  if u.pcnt = 7 then do
    let (obuf, olen) ← append c .rceObuf u.obuf u.olen byte
    .ok { u with obuf := obuf, olen := olen, pbyte := 0, pcnt := 0 }
  else .ok { u with pbyte := byte, pcnt := u.pcnt + 1 }

/-- `repeat n times: emit_bit(b)`. -/
def emitBits (c : Config) (b : Bool) : Nat → Rce → Except Fault Rce
  | 0, u => .ok u
  | n + 1, u => do
    let u' ← emitBit c b u
    emitBits c b n u'

/-- The held bit, when there is one, given to the byte assembler as `b`. -/
def emitHeld (c : Config) (b : Bool) (u : Rce) : Except Fault Rce :=
  if u.held then emitBit c b u else .ok u

/-- `shift_out(b)` of R125: a 0 makes the held and outstanding bits final and is held itself; a 1 is counted. -/
def shiftOut (c : Config) (b : Bool) (u : Rce) : Except Fault Rce :=
  if b then do
    let outst ← fit 32 (u.outst.toNat + 1)
    .ok { u with outst := outst }
  else do
    let u1 ← emitHeld c false u
    let u2 ← emitBits c true u.outst.toNat u1
    .ok { u2 with held := true, outst := 0 }

/-- `carry()` of R127: the held 0 becomes 1 and every outstanding 1 becomes 0; without a held bit it has no meaning. -/
def carry (c : Config) (u : Rce) : Except Fault Rce :=
  if u.held then do
    let u1 ← emitBit c true u
    let u2 ← emitBits c false u.outst.toNat u1
    .ok { u2 with held := false, outst := 0 }
  else .error .carryWithNothingHeld

/-- `if c = 1: carry()` of R131. -/
def carryIfDue (c : Config) (due : Bool) (u : Rce) : Except Fault Rce := if due then carry c u else .ok u

/-- The renormalization loop of R131: `n` times, bit 7 of `RCE.LOW` leaves the window and both registers shift. -/
def renormalize (c : Config) : Nat → Rce → Except Fault Rce
  | 0, u => .ok u
  | n + 1, u => do
    let u' ← shiftOut c (u.low.getLsbD 7) u
    renormalize c n { u' with low := u'.low <<< 1, range := u'.range <<< 1 }

/-- The window sent out at FINISH (R134): bits `n − 1` down to 0 of `low`. -/
def flushWindow (c : Config) (low : BitVec 8) : Nat → Rce → Except Fault Rce
  | 0, u => .ok u
  | n + 1, u => do
    let u' ← shiftOut c (low.getLsbD n) u
    flushWindow c low n u'

/-- `while RCE.PCNT ≠ 0: emit_bit(0)` of R134, at most `n` times; the caller gives 8, and at most 7 are needed (log 13). -/
def padByte (c : Config) : Nat → Rce → Except Fault Rce
  | 0, u => .ok u
  | n + 1, u =>
    if u.pcnt = 0 then .ok u
    else do
      let u' ← emitBit c false u
      padByte c n u'

/-- The sub-interval a bit chooses (R123, R131): the new width, the new window, and whether the window carried. -/
structure Choice where
  range : Nat
  low : BitVec 8
  carries : Bool
  deriving DecidableEq, Repr

/-- The choice of R131 for `RCE.RANGE` in 128..255: bit 0 takes the lower `split`, bit 1 the rest, above it. -/
def chooseInterval (range low : BitVec 8) (bit : Bool) (prob : BitVec 8) : Choice :=
  let s := split range.toNat prob.toNat
  if bit then
    { range := range.toNat - s
      low := BitVec.ofNat 8 (low.toNat + s)
      carries := decide (256 ≤ low.toNat + s) }
  else
    { range := s
      low := low
      carries := false }

/-- The writes of an accepted PUTBIT (R131): the carry, the new interval, the shifts, the bit position. -/
def codeBit (c : Config) (ch : Choice) (u : Rce) : Except Fault Rce := do
  let n := nshift ch.range
  let u1 ← carryIfDue c ch.carries u
  let u2 ← renormalize c n { u1 with low := ch.low, range := BitVec.ofNat 8 ch.range }
  let bitpos ← fit 32 (u2.bitpos.toNat + n)
  .ok { u2 with bitpos := bitpos }

/-- The writes of a successful FINISH up to the response (R134): the window, the held and outstanding bits, zero padding. -/
def finishStream (c : Config) (u : Rce) : Except Fault Rce := do
  let u1 ← flushWindow c u.low 8 u
  let u2 ← emitHeld c false u1
  let u3 ← emitBits c true u2.outst.toNat u2
  let u4 ← padByte c 8 { u3 with held := false, outst := 0 }
  .ok { u4 with st := .idle }

/-- The registers RCE.INIT sets (R130); the output buffer is not touched. -/
def openRce (u : Rce) (cap : BitVec 32) : Rce :=
  { u with
    range := 255
    low := 0
    held := false
    outst := 0
    pbyte := 0
    pcnt := 0
    bitpos := 0
    olen := 0
    ocap := cap
    err := .ok
    st := .active }

/-! ### The encoder's instructions -/

/-- RCE.INIT cap (R130). -/
def execRceInit (cap : BitVec 32) (s : State) : Result :=
  if s.rce.st = .active then s.raise .state
  else if 1 ≤ cap.toNat ∧ cap.toNat ≤ s.cfg.bufBytes then (s.setRce (openRce s.rce cap)).respond 0
  else raiseRce s .operand

/-- RCE.PUTBIT bit, prob (R131). -/
def execRcePutbit (bit : Bool) (prob : BitVec 8) (s : State) : Result :=
  match dataGate s.rce.st s.rce.err with
  | some e => s.raise e
  | none =>
    if prob = 0 then raiseRce s .operand
    else if s.rce.range.toNat < 128 then .fault .rangeOutsideBand
    else
      let ch := chooseInterval s.rce.range s.rce.low bit prob
      if s.rce.bitpos.toNat + nshift ch.range + 8 ≤ 8 * s.rce.ocap.toNat then
        orFault (codeBit s.cfg ch s.rce) fun u => (s.setRce u).respond 0
      else raiseRce s .capacity

/-- RCE.FINISH (R134): after an error it fails, closes the session and keeps `RCE.ERR` (R278). -/
def execRceFinish (s : State) : Result :=
  if s.rce.st = .idle then s.raise .state
  else if s.rce.err = .ok then
    orFault (finishStream s.cfg s.rce) fun u => (s.setRce u).respond u.olen
  else (s.setRce { s.rce with st := .idle, olen := 0 }).raise s.rce.err

/-- RCE.ABORT (R135). -/
def execRceAbort (s : State) : Result :=
  if s.rce.st = .idle then s.raise .state
  else (s.setRce { s.rce with st := .idle, err := .ok, olen := 0 }).respond 0

/-! ### The decoder -/

/-- `next_bit()` of R141: stream bit `RCD.BITPOS`, bit 7 − (i mod 8) of byte i / 8 (R66 b). -/
def nextBit (c : Config) (u : Rcd) : Except Fault (Bool × Rcd) := do
  let i := u.bitpos.toNat
  let byte ← memRead c .rcdIbuf u.ibuf (i / 8)
  let bitpos ← fit 32 (i + 1)
  .ok (byte.getLsbD (7 - i % 8), { u with bitpos := bitpos })

/-- `repeat n times: v <- 2·v + next_bit()` of R142. -/
def pullBits (c : Config) : Nat → Nat → Rcd → Except Fault (Nat × Rcd)
  | 0, v, u => .ok (v, u)
  | n + 1, v, u => do
    let (b, u') ← nextBit c u
    pullBits c n (2 * v + b.toNat) u'

/-- The comparison of R142 for `RCD.RANGE` in 128..255: the decoded bit, and value and width after the choice. -/
def decideBit (range value : BitVec 8) (prob : BitVec 8) : Bool × Nat × Nat :=
  let s := split range.toNat prob.toNat
  if s ≤ value.toNat then (true, value.toNat - s, range.toNat - s) else (false, value.toNat, s)

/-- The writes of an accepted GETBIT (R142). -/
def decodeBit (c : Config) (v r : Nat) (u : Rcd) : Except Fault Rcd := do
  let n := nshift r
  let (v', u') ← pullBits c n v u
  let value ← fit 8 v'
  let range ← fit 8 (r * 2 ^ n)
  .ok { u' with value := value, range := range }

/-- The registers RCD.INIT sets (R140), `first` being the first stream byte. -/
def openRcd (u : Rcd) (len : BitVec 32) (first : Byte) : Rcd :=
  { u with
    ilen := len
    range := 255
    value := first
    bitpos := 8
    err := .ok
    st := .active }

/-- RCD.INIT len (R140): legal in both lifecycle states; it ends any open session, also when it fails. -/
def execRcdInit (len : BitVec 32) (s : State) : Result :=
  if s.cfg.bufBytes < len.toNat then failRcdInit s .operand
  else if len = 0 then failRcdInit s .eos
  else orFault (memRead s.cfg .rcdIbuf s.rcd.ibuf 0) fun v =>
    if v = 0xFF then failRcdInit s .corrupt
    else (s.setRcd (openRcd s.rcd len v)).respond 0

/-- RCD.GETBIT prob (R142, R143). -/
def execRcdGetbit (prob : BitVec 8) (s : State) : Result :=
  match dataGate s.rcd.st s.rcd.err with
  | some e => s.raise e
  | none =>
    if prob = 0 then raiseRcd s .operand
    else if s.rcd.range.toNat < 128 then .fault .rangeOutsideBand
    else
      match decideBit s.rcd.range s.rcd.value prob with
      | (b, v, r) =>
        if s.rcd.bitpos.toNat + nshift r ≤ 8 * s.rcd.ilen.toNat then
          orFault (decodeBit s.cfg v r s.rcd) fun u =>
            (s.setRcd u).respond ((BitVec.ofBool b).setWidth 32)
        else raiseRcd s .eos

end Sys2Proof.Machine
end

