-- ==== Sys2Proof/Machine/System.lean ====
section
/-!
DEFINITION. The system instruction RDSR (spec/44_system.md) and the status registers it reads (spec/10_state.md R51), and the
answer to a word that is no instruction (spec/60_exceptions.md R273).
-/
namespace Sys2Proof.Machine

/-- The sixteen status registers of R51. -/
inductive StatusReg where
  | rceStat
  | rceLen
  | rceCap
  | rcePos
  | rcdStat
  | rcdLen
  | rcdPos
  | bpwStat
  | bpwLen
  | bpwCap
  | bpwPos
  | bprStat
  | bprLen
  | bprPos
  | cdtMult
  | cc
  deriving DecidableEq, Repr

/-- The register of a number, or `none` for a reserved number (R51, R260). -/
def statusRegOf (sr : BitVec 8) : Option StatusReg :=
  if sr = 0x00 then some .rceStat
  else if sr = 0x01 then some .rceLen
  else if sr = 0x02 then some .rceCap
  else if sr = 0x03 then some .rcePos
  else if sr = 0x04 then some .rcdStat
  else if sr = 0x05 then some .rcdLen
  else if sr = 0x07 then some .rcdPos
  else if sr = 0x08 then some .bpwStat
  else if sr = 0x09 then some .bpwLen
  else if sr = 0x0A then some .bpwCap
  else if sr = 0x0B then some .bpwPos
  else if sr = 0x0C then some .bprStat
  else if sr = 0x0D then some .bprLen
  else if sr = 0x0F then some .bprPos
  else if sr = 0x10 then some .cdtMult
  else if sr = 0x11 then some .cc
  else none

/-- The content column of R51; BPW_POS and BPR_POS are formed at the time of the read (R260). -/
def readStatus (s : State) : StatusReg → Except Fault Reg32
  | .rceStat => .ok (statWord s.rce.st s.rce.err)
  | .rceLen => .ok s.rce.olen
  | .rceCap => .ok s.rce.ocap
  | .rcePos => .ok s.rce.bitpos
  | .rcdStat => .ok (statWord s.rcd.st s.rcd.err)
  | .rcdLen => .ok s.rcd.ilen
  | .rcdPos => .ok s.rcd.bitpos
  | .bpwStat => .ok (statWord s.bpw.st s.bpw.err)
  | .bpwLen => .ok s.bpw.olen
  | .bpwCap => .ok s.bpw.ocap
  | .bpwPos => fit 32 (8 * s.bpw.olen.toNat + s.bpw.pend.toNat)
  | .bprStat => .ok (statWord s.bpr.st s.bpr.err)
  | .bprLen => .ok s.bpr.ilen
  | .bprPos =>
    if s.bpr.cnt.toNat ≤ 8 * s.bpr.pos.toNat then fit 32 (8 * s.bpr.pos.toNat - s.bpr.cnt.toNat)
    else .error .doesNotFit
  | .cdtMult => .ok (s.mult.setWidth 32)
  | .cc => .ok s.cc

/-- RDSR sr (R260): the value is read before `CC` advances (R53). -/
def execRdsr (sr : BitVec 8) (s : State) : Result :=
  match statusRegOf sr with
  | some r => orFault (readStatus s r) fun v => s.respond v
  | none => s.raise .operand

/-- A command word that is no instruction (R106, R273): no unit is involved, nothing changes but `CC`. -/
def execIllegal (s : State) : Result := s.raise .illegal

end Sys2Proof.Machine
end

