-- ==== Sys2Proof/Machine/Dispatch.lean ====
section
/-! DEFINITION. One arm per instruction: the execution of a decoded command (spec/30_encoding.md R105, R111). -/
namespace Sys2Proof.Machine

/-- A command executed whole (R14): its effect, `CC` advanced, its response on the response port. -/
def exec (i : Instr) (s : State) : Host.Outcome State Fault Refusal :=
  match i with
  | .rceInit cap => Sys2Proof.Machine.execRceInit cap s
  | .rcePutbit bit prob => Sys2Proof.Machine.execRcePutbit bit prob s
  | .rceFinish => Sys2Proof.Machine.execRceFinish s
  | .rceAbort => Sys2Proof.Machine.execRceAbort s
  | .rcdInit len => Sys2Proof.Machine.execRcdInit len s
  | .rcdGetbit prob => Sys2Proof.Machine.execRcdGetbit prob s
  | .bpwInit cap => Sys2Proof.Machine.execBpwInit cap s
  | .bpwPutbits value nbits => Sys2Proof.Machine.execBpwPutbits value nbits s
  | .bpwFinish => Sys2Proof.Machine.execBpwFinish s
  | .bpwAbort => Sys2Proof.Machine.execBpwAbort s
  | .bprInit len => Sys2Proof.Machine.execBprInit len s
  | .bprReadbits nbits => Sys2Proof.Machine.execBprReadbits nbits s
  | .pred0 top left => Sys2Proof.Machine.execPred0 top left s
  | .pred1 top left => Sys2Proof.Machine.execPred1 top left s
  | .pred2 top left => Sys2Proof.Machine.execPred2 top left s
  | .pred3 top left => Sys2Proof.Machine.execPred3 top left s
  | .pred4 top left => Sys2Proof.Machine.execPred4 top left s
  | .pred5 top left => Sys2Proof.Machine.execPred5 top left s
  | .pred6 top left => Sys2Proof.Machine.execPred6 top left s
  | .pred7 top left => Sys2Proof.Machine.execPred7 top left s
  | .pred8 top left => Sys2Proof.Machine.execPred8 top left s
  | .pred9 top left => Sys2Proof.Machine.execPred9 top left s
  | .pred10 top left => Sys2Proof.Machine.execPred10 top left s
  | .pred11 top left => Sys2Proof.Machine.execPred11 top left s
  | .pred12 top left => Sys2Proof.Machine.execPred12 top left s
  | .pred13 top left => Sys2Proof.Machine.execPred13 top left s
  | .subg addr count => Sys2Proof.Machine.execSubg addr count s
  | .addg addr count => Sys2Proof.Machine.execAddg addr count s
  | .ctSetm g2r g2b r2b => Sys2Proof.Machine.execCtSetm g2r g2b r2b s
  | .ctFwd addr count => Sys2Proof.Machine.execCtFwd addr count s
  | .ctInv src dst count => Sys2Proof.Machine.execCtInv src dst count s
  | .rdsr sr => Sys2Proof.Machine.execRdsr sr s

end Sys2Proof.Machine
end

