-- ==== Sys2Proof/WellFormed.lean ====
section
/-!
DEFINITION. When a 64-bit command word is well formed: the three ways in which spec/30_encoding.md R106 says a word is
illegal, each a check of its own, written from the format table of R92 and not from the decoder's rows. An instruction
term needs no check: its operand types are the field widths of R92 (log 15).
-/
namespace Sys2Proof.WellFormed

/-- The opcode field, bits 63:56 (R92). -/
def opcode (w : Word64) : BitVec 8 := w.extractLsb' 56 8

/-- The assigned opcodes (R106 a). -/
def assignedOpcodes : List (BitVec 8) :=
  [0x10, 0x11, 0x12, 0x13, 0x18, 0x19, 0x20, 0x21, 0x22, 0x23, 0x28, 0x29, 0x30, 0x40, 0x41, 0x42, 0x43, 0x44, 0x50]

/-- R106 (a): the opcode is assigned. -/
def opcodeAssigned (w : Word64) : Bool := assignedOpcodes.contains (opcode w)

/-- The `zero` fields of bits 55:0, as (lowest bit, width), by opcode, through the format of R92 that R105 gives it. -/
def zeroFields (op : BitVec 8) : List (Nat × Nat) :=
  if op = 0x12 ∨ op = 0x13 ∨ op = 0x22 ∨ op = 0x23 then [(0, 56)]            -- Z
  else if op = 0x10 ∨ op = 0x18 ∨ op = 0x20 ∨ op = 0x28 then [(32, 24)]      -- L
  else if op = 0x11 then [(9, 47)]                                           -- B
  else if op = 0x19 then [(8, 48)]                                           -- P
  else if op = 0x21 then [(40, 16)]                                          -- V
  else if op = 0x29 then [(40, 16), (0, 32)]                                 -- N
  else if op = 0x30 then [(48, 4)]                                           -- PR
  else if op = 0x40 ∨ op = 0x41 ∨ op = 0x43 then [(32, 24)]                  -- A
  else if op = 0x44 then [(48, 8)]                                           -- A3
  else if op = 0x42 then [(24, 32)]                                          -- M
  else if op = 0x50 then [(8, 48)]                                           -- S
  else []

/-- R106 (b): every bit of a `zero` field of the word's format is 0. -/
def zerosClear (w : Word64) : Bool :=
  (zeroFields (opcode w)).all fun f => w.extractLsb' f.1 f.2 == 0

/-- R106 (c): a predictor word's mode field, bits 55:52, is not 14 or 15. -/
def modeLegal (w : Word64) : Bool :=
  !(opcode w == 0x30 && (w.extractLsb' 52 4 == 14#4 || w.extractLsb' 52 4 == 15#4))

/-- A word that R106 does not call illegal. -/
def wordLegal (w : Word64) : Bool := opcodeAssigned w && zerosClear w && modeLegal w

end Sys2Proof.WellFormed
end

