-- ==== Sys2Proof/Decode.lean ====
section
/-!
DEFINITION. Decoding and encoding of command words: the opcode map of spec/30_encoding.md R105 as rows of mask and
match, the total decoder of R111, and the encoder, written from the formats R93 to R103. Decoding reads no state (R108,
R111); a word that fits no row has no instruction and is answered ILLEGAL by the machine (R106, R273).
-/
namespace Sys2Proof

/-- One row of R105: a word `w` is the row's instruction exactly when `w & mask = pattern`; `make` extracts the fields of
the row's format (R93 to R104). -/
structure Row where
  mask : Word64
  pattern : Word64
  make : Word64 → Instr

/-- Whether a word is the instruction of a row (R105). -/
def Row.fits (r : Row) (w : Word64) : Bool := w &&& r.mask == r.pattern

/-- The twelve rows of the range coder and the bit packer (R105). -/
def coderRows : List Row := [
  -- RCE.INIT
  ⟨0xFFFFFFFF00000000, 0x1000000000000000, fun w => .rceInit (w.extractLsb' 0 32)⟩,
  -- RCE.PUTBIT
  ⟨0xFFFFFFFFFFFFFE00, 0x1100000000000000, fun w => .rcePutbit (w.getLsbD 8) (w.extractLsb' 0 8)⟩,
  -- RCE.FINISH
  ⟨0xFFFFFFFFFFFFFFFF, 0x1200000000000000, fun _ => .rceFinish⟩,
  -- RCE.ABORT
  ⟨0xFFFFFFFFFFFFFFFF, 0x1300000000000000, fun _ => .rceAbort⟩,
  -- RCD.INIT
  ⟨0xFFFFFFFF00000000, 0x1800000000000000, fun w => .rcdInit (w.extractLsb' 0 32)⟩,
  -- RCD.GETBIT
  ⟨0xFFFFFFFFFFFFFF00, 0x1900000000000000, fun w => .rcdGetbit (w.extractLsb' 0 8)⟩,
  -- BPW.INIT
  ⟨0xFFFFFFFF00000000, 0x2000000000000000, fun w => .bpwInit (w.extractLsb' 0 32)⟩,
  -- BPW.PUTBITS
  ⟨0xFFFFFF0000000000, 0x2100000000000000, fun w => .bpwPutbits (w.extractLsb' 0 32) (w.extractLsb' 32 8)⟩,
  -- BPW.FINISH
  ⟨0xFFFFFFFFFFFFFFFF, 0x2200000000000000, fun _ => .bpwFinish⟩,
  -- BPW.ABORT
  ⟨0xFFFFFFFFFFFFFFFF, 0x2300000000000000, fun _ => .bpwAbort⟩,
  -- BPR.INIT
  ⟨0xFFFFFFFF00000000, 0x2800000000000000, fun w => .bprInit (w.extractLsb' 0 32)⟩,
  -- BPR.READBITS
  ⟨0xFFFFFF00FFFFFFFF, 0x2900000000000000, fun w => .bprReadbits (w.extractLsb' 32 8)⟩]

/-- The fourteen predictor rows, one per legal mode (R99, R105). -/
def predictorRows : List Row := [
  -- PRED0
  ⟨0xFFFF000000000000, 0x3000000000000000, fun w => .pred0 (w.extractLsb' 32 16) (w.extractLsb' 0 32)⟩,
  -- PRED1
  ⟨0xFFFF000000000000, 0x3010000000000000, fun w => .pred1 (w.extractLsb' 32 16) (w.extractLsb' 0 32)⟩,
  -- PRED2
  ⟨0xFFFF000000000000, 0x3020000000000000, fun w => .pred2 (w.extractLsb' 32 16) (w.extractLsb' 0 32)⟩,
  -- PRED3
  ⟨0xFFFF000000000000, 0x3030000000000000, fun w => .pred3 (w.extractLsb' 32 16) (w.extractLsb' 0 32)⟩,
  -- PRED4
  ⟨0xFFFF000000000000, 0x3040000000000000, fun w => .pred4 (w.extractLsb' 32 16) (w.extractLsb' 0 32)⟩,
  -- PRED5
  ⟨0xFFFF000000000000, 0x3050000000000000, fun w => .pred5 (w.extractLsb' 32 16) (w.extractLsb' 0 32)⟩,
  -- PRED6
  ⟨0xFFFF000000000000, 0x3060000000000000, fun w => .pred6 (w.extractLsb' 32 16) (w.extractLsb' 0 32)⟩,
  -- PRED7
  ⟨0xFFFF000000000000, 0x3070000000000000, fun w => .pred7 (w.extractLsb' 32 16) (w.extractLsb' 0 32)⟩,
  -- PRED8
  ⟨0xFFFF000000000000, 0x3080000000000000, fun w => .pred8 (w.extractLsb' 32 16) (w.extractLsb' 0 32)⟩,
  -- PRED9
  ⟨0xFFFF000000000000, 0x3090000000000000, fun w => .pred9 (w.extractLsb' 32 16) (w.extractLsb' 0 32)⟩,
  -- PRED10
  ⟨0xFFFF000000000000, 0x30A0000000000000, fun w => .pred10 (w.extractLsb' 32 16) (w.extractLsb' 0 32)⟩,
  -- PRED11
  ⟨0xFFFF000000000000, 0x30B0000000000000, fun w => .pred11 (w.extractLsb' 32 16) (w.extractLsb' 0 32)⟩,
  -- PRED12
  ⟨0xFFFF000000000000, 0x30C0000000000000, fun w => .pred12 (w.extractLsb' 32 16) (w.extractLsb' 0 32)⟩,
  -- PRED13
  ⟨0xFFFF000000000000, 0x30D0000000000000, fun w => .pred13 (w.extractLsb' 32 16) (w.extractLsb' 0 32)⟩]

/-- The five colour-transform rows and RDSR (R105). -/
def colourRows : List Row := [
  -- SUBG
  ⟨0xFFFFFFFF00000000, 0x4000000000000000, fun w => .subg (w.extractLsb' 0 16) (w.extractLsb' 16 16)⟩,
  -- ADDG
  ⟨0xFFFFFFFF00000000, 0x4100000000000000, fun w => .addg (w.extractLsb' 0 16) (w.extractLsb' 16 16)⟩,
  -- CT.SETM
  ⟨0xFFFFFFFFFF000000, 0x4200000000000000, fun w => .ctSetm (w.extractLsb' 16 8) (w.extractLsb' 8 8) (w.extractLsb' 0 8)⟩,
  -- CT.FWD
  ⟨0xFFFFFFFF00000000, 0x4300000000000000, fun w => .ctFwd (w.extractLsb' 0 16) (w.extractLsb' 16 16)⟩,
  -- CT.INV
  ⟨0xFFFF000000000000, 0x4400000000000000, fun w => .ctInv (w.extractLsb' 0 16) (w.extractLsb' 16 16) (w.extractLsb' 32 16)⟩,
  -- RDSR
  ⟨0xFFFFFFFFFFFFFF00, 0x5000000000000000, fun w => .rdsr (w.extractLsb' 0 8)⟩]

/-- The opcode map of R105, in the table's order. -/
def rows : List Row := coderRows ++ predictorRows ++ colourRows

/-- R111: the instruction of a command word, or `none` when the word is illegal (R106). -/
def decode (w : Word64) : Option Instr :=
  (rows.find? fun r => r.fits w).map fun r => r.make w

/-- Format Z (R93). -/
def formatZ (op : BitVec 8) : Word64 := op ++ (0 : BitVec 56)

/-- Format L (R94). -/
def formatL (op : BitVec 8) (imm : BitVec 32) : Word64 := op ++ (0 : BitVec 24) ++ imm

/-- Format B (R95). -/
def formatB (op : BitVec 8) (bit : Bool) (prob : BitVec 8) : Word64 :=
  op ++ (0 : BitVec 47) ++ BitVec.ofBool bit ++ prob

/-- Formats P and S: one byte operand (R96, R103). -/
def formatP (op : BitVec 8) (b : BitVec 8) : Word64 := op ++ (0 : BitVec 48) ++ b

/-- Format V (R97). -/
def formatV (op : BitVec 8) (nbits : BitVec 8) (value : BitVec 32) : Word64 :=
  op ++ (0 : BitVec 16) ++ nbits ++ value

/-- Format N (R98). -/
def formatN (op : BitVec 8) (nbits : BitVec 8) : Word64 :=
  op ++ (0 : BitVec 16) ++ nbits ++ (0 : BitVec 32)

/-- Format PR (R99). -/
def formatPR (mode : BitVec 4) (top : BitVec 16) (left : BitVec 32) : Word64 :=
  (0x30 : BitVec 8) ++ mode ++ (0 : BitVec 4) ++ top ++ left

/-- Format A (R100). -/
def formatA (op : BitVec 8) (addr count : BitVec 16) : Word64 :=
  op ++ (0 : BitVec 24) ++ count ++ addr

/-- Format A3 (R101). -/
def formatA3 (op : BitVec 8) (src dst count : BitVec 16) : Word64 :=
  op ++ (0 : BitVec 8) ++ count ++ dst ++ src

/-- Format M (R102). -/
def formatM (op : BitVec 8) (g2r g2b r2b : BitVec 8) : Word64 :=
  op ++ (0 : BitVec 32) ++ g2r ++ g2b ++ r2b

/-- The command word of an instruction: the opcode of R105 in the format of R92. -/
def encode : Instr → Word64
  | .rceInit cap => formatL 0x10 cap
  | .rcePutbit bit prob => formatB 0x11 bit prob
  | .rceFinish => formatZ 0x12
  | .rceAbort => formatZ 0x13
  | .rcdInit len => formatL 0x18 len
  | .rcdGetbit prob => formatP 0x19 prob
  | .bpwInit cap => formatL 0x20 cap
  | .bpwPutbits value nbits => formatV 0x21 nbits value
  | .bpwFinish => formatZ 0x22
  | .bpwAbort => formatZ 0x23
  | .bprInit len => formatL 0x28 len
  | .bprReadbits nbits => formatN 0x29 nbits
  | .pred0 top left => formatPR 0 top left
  | .pred1 top left => formatPR 1 top left
  | .pred2 top left => formatPR 2 top left
  | .pred3 top left => formatPR 3 top left
  | .pred4 top left => formatPR 4 top left
  | .pred5 top left => formatPR 5 top left
  | .pred6 top left => formatPR 6 top left
  | .pred7 top left => formatPR 7 top left
  | .pred8 top left => formatPR 8 top left
  | .pred9 top left => formatPR 9 top left
  | .pred10 top left => formatPR 10 top left
  | .pred11 top left => formatPR 11 top left
  | .pred12 top left => formatPR 12 top left
  | .pred13 top left => formatPR 13 top left
  | .subg addr count => formatA 0x40 addr count
  | .addg addr count => formatA 0x41 addr count
  | .ctSetm g2r g2b r2b => formatM 0x42 g2r g2b r2b
  | .ctFwd addr count => formatA 0x43 addr count
  | .ctInv src dst count => formatA3 0x44 src dst count
  | .rdsr sr => formatP 0x50 sr

/-- The instruction the decoder reads from an instruction whose bits are `w`, of which the opcode table gives the low
`nbits`; every higher bit of the 64-bit command word is 0. A command word is one 64-bit value, not bytes (R67, R92). -/
def decodeTableWord (nbits w : Nat) : Option Instr :=
  if w % 2 ^ nbits < 2 ^ 64 then decode (BitVec.ofNat 64 (w % 2 ^ nbits)) else none

end Sys2Proof
end

