-- ==== Sys2Proof/Machine/Fetch.lean ====
section
/-!
DEFINITION. How the core comes by its next command: the word the host presents on the command port (spec/30_encoding.md R90);
the core fetches nothing from memory (spec/20_memory.md R78).
-/
namespace Sys2Proof.Machine

/-- The command word presented, if there is one. -/
def presented (s : State) : Option Word64 :=
  match s.ports with
  | .command w => some w
  | .idle => none
  | .response _ => none

/-- The state with a command word presented, whatever stood on the ports before (log 6). -/
def present (s : State) (w : Word64) : State := { s with ports := .command w }

end Sys2Proof.Machine
end

