-- ==== Sys2Proof/Machine/Step.lean ====
section
/-!
DEFINITION. One step of the core (spec/30_encoding.md R90): the command presented is decoded and executed whole, a word that is
no instruction is answered ILLEGAL, and with no command presented the core waits and keeps its state (R295, R310; log 5).
-/
namespace Sys2Proof.Machine

/-- One step. -/
def step (s : State) : Host.Outcome State Fault Refusal :=
  match presented s with
  | none => .next s
  | some w =>
    match decode w with
    | some i => exec i s
    | none => execIllegal s

/-- The state with the instruction whose bits are `w` (of which the table gives the low `nbits`, all higher bits 0) presented
as the next command word: the host issues it (R64; log 6). -/
def State.withFetchWord (s : State) (nbits w : Nat) : State :=
  present s (BitVec.ofNat 64 (w % 2 ^ nbits))

end Sys2Proof.Machine
end

