-- ==== Sys2Proof/Machine/Assembly.lean ====
section
/-!
DEFINITION. The assembler of spec/30_encoding.md R109 and R110: the text of an instruction, the expansion of the
pseudo-instructions, and reading one line of text (log 16 for what R109 leaves open).
-/
namespace Sys2Proof.Machine

/-- The mnemonic of R105. -/
def mnemonic : Instr → String
  | .rceInit _ => "RCE.INIT"
  | .rcePutbit _ _ => "RCE.PUTBIT"
  | .rceFinish => "RCE.FINISH"
  | .rceAbort => "RCE.ABORT"
  | .rcdInit _ => "RCD.INIT"
  | .rcdGetbit _ => "RCD.GETBIT"
  | .bpwInit _ => "BPW.INIT"
  | .bpwPutbits _ _ => "BPW.PUTBITS"
  | .bpwFinish => "BPW.FINISH"
  | .bpwAbort => "BPW.ABORT"
  | .bprInit _ => "BPR.INIT"
  | .bprReadbits _ => "BPR.READBITS"
  | .pred0 _ _ => "PRED0"
  | .pred1 _ _ => "PRED1"
  | .pred2 _ _ => "PRED2"
  | .pred3 _ _ => "PRED3"
  | .pred4 _ _ => "PRED4"
  | .pred5 _ _ => "PRED5"
  | .pred6 _ _ => "PRED6"
  | .pred7 _ _ => "PRED7"
  | .pred8 _ _ => "PRED8"
  | .pred9 _ _ => "PRED9"
  | .pred10 _ _ => "PRED10"
  | .pred11 _ _ => "PRED11"
  | .pred12 _ _ => "PRED12"
  | .pred13 _ _ => "PRED13"
  | .subg _ _ => "SUBG"
  | .addg _ _ => "ADDG"
  | .ctSetm _ _ _ => "CT.SETM"
  | .ctFwd _ _ => "CT.FWD"
  | .ctInv _ _ _ => "CT.INV"
  | .rdsr _ => "RDSR"

/-- The operands of an instruction in the order R105 writes them. -/
def operandsOf : Instr → List Nat
  | .rceInit cap => [cap.toNat]
  | .rcePutbit bit prob => [bit.toNat, prob.toNat]
  | .rceFinish => []
  | .rceAbort => []
  | .rcdInit len => [len.toNat]
  | .rcdGetbit prob => [prob.toNat]
  | .bpwInit cap => [cap.toNat]
  | .bpwPutbits value nbits => [value.toNat, nbits.toNat]
  | .bpwFinish => []
  | .bpwAbort => []
  | .bprInit len => [len.toNat]
  | .bprReadbits nbits => [nbits.toNat]
  | .pred0 top left => [top.toNat, left.toNat]
  | .pred1 top left => [top.toNat, left.toNat]
  | .pred2 top left => [top.toNat, left.toNat]
  | .pred3 top left => [top.toNat, left.toNat]
  | .pred4 top left => [top.toNat, left.toNat]
  | .pred5 top left => [top.toNat, left.toNat]
  | .pred6 top left => [top.toNat, left.toNat]
  | .pred7 top left => [top.toNat, left.toNat]
  | .pred8 top left => [top.toNat, left.toNat]
  | .pred9 top left => [top.toNat, left.toNat]
  | .pred10 top left => [top.toNat, left.toNat]
  | .pred11 top left => [top.toNat, left.toNat]
  | .pred12 top left => [top.toNat, left.toNat]
  | .pred13 top left => [top.toNat, left.toNat]
  | .subg addr count => [addr.toNat, count.toNat]
  | .addg addr count => [addr.toNat, count.toNat]
  | .ctSetm g2r g2b r2b => [g2r.toNat, g2b.toNat, r2b.toNat]
  | .ctFwd addr count => [addr.toNat, count.toNat]
  | .ctInv src dst count => [src.toNat, dst.toNat, count.toNat]
  | .rdsr sr => [sr.toNat]

/-- One line of assembler text (R109): the mnemonic, then the operands in decimal, separated by commas. -/
def assemblyLine (i : Instr) : String :=
  match operandsOf i with
  | [] => mnemonic i
  | ops => mnemonic i ++ " " ++ String.intercalate ", " (ops.map Nat.repr)

/-- The pseudo-instructions of R110. -/
inductive Pseudo where
  /-- `PRED m, top, left`. -/
  | pred (m : Nat) (top : BitVec 16) (left : Pixel)
  /-- `BPW.PUT32 v`. -/
  | bpwPut32 (v : BitVec 32)
  /-- `CT.CLRM`. -/
  | ctClrm
  deriving DecidableEq, Repr

/-- `PREDm top, left` for m in 0..13, and no instruction otherwise (R99, R110). -/
def predInstr (m : Nat) (top : BitVec 16) (left : Pixel) : Option Instr :=
  match m with
  | 0 => some (.pred0 top left)
  | 1 => some (.pred1 top left)
  | 2 => some (.pred2 top left)
  | 3 => some (.pred3 top left)
  | 4 => some (.pred4 top left)
  | 5 => some (.pred5 top left)
  | 6 => some (.pred6 top left)
  | 7 => some (.pred7 top left)
  | 8 => some (.pred8 top left)
  | 9 => some (.pred9 top left)
  | 10 => some (.pred10 top left)
  | 11 => some (.pred11 top left)
  | 12 => some (.pred12 top left)
  | 13 => some (.pred13 top left)
  | _ => none

/-- The expansion of a pseudo-instruction (R110); `PRED m` with m above 13 has none. -/
def expand : Pseudo → Option (List Instr)
  | .pred m top left => (predInstr m top left).map fun i => [i]
  | .bpwPut32 v => some [.bpwPutbits (v &&& 0xFFFF) 16, .bpwPutbits (v >>> 16) 16]
  | .ctClrm => some [.ctSetm 0 0 0]

/-! ### Reading a line of text (R109) -/

/-- The digit a character stands for in a base up to 16. -/
def digitOf (base : Nat) (c : Char) : Option Nat :=
  let d :=
    if '0' ≤ c ∧ c ≤ '9' then c.toNat - 48
    else if 'a' ≤ c ∧ c ≤ 'f' then c.toNat - 87
    else if 'A' ≤ c ∧ c ≤ 'F' then c.toNat - 55
    else base
  if d < base then some d else none

/-- Digits read after the number `acc`, the most significant first. -/
def digitsFrom (base : Nat) : Nat → List Char → Option Nat
  | acc, [] => some acc
  | acc, c :: cs => (digitOf base c).bind fun d => digitsFrom base (acc * base + d) cs

/-- At least one digit. -/
def digits (base : Nat) (cs : List Char) : Option Nat := if cs.isEmpty then none else digitsFrom base 0 cs

/-- A number: decimal, `0x` hexadecimal or `0b` binary (R109). -/
def number : List Char → Option Nat
  | '0' :: 'x' :: cs => digits 16 cs
  | '0' :: 'b' :: cs => digits 2 cs
  | cs => digits 10 cs

/-- A coefficient of CT.SETM: a byte, or a negative decimal down to −128, which is encoded as `u8` of it (R109). -/
def coefficient : List Char → Option Nat
  | '-' :: cs => (digits 10 cs).bind fun n => if n ≤ 128 then some ((256 - n) % 256) else none
  | cs => number cs

/-- The names of the status registers, with their numbers (R51). -/
def statusNames : List (String × Nat) := [
  ("RCE_STAT", 0x00), ("RCE_LEN", 0x01), ("RCE_CAP", 0x02), ("RCE_POS", 0x03),
  ("RCD_STAT", 0x04), ("RCD_LEN", 0x05), ("RCD_POS", 0x07),
  ("BPW_STAT", 0x08), ("BPW_LEN", 0x09), ("BPW_CAP", 0x0A), ("BPW_POS", 0x0B),
  ("BPR_STAT", 0x0C), ("BPR_LEN", 0x0D), ("BPR_POS", 0x0F),
  ("CDT_MULT", 0x10), ("CC", 0x11)]

/-- The operand of RDSR: a register's name or a number. DESIGN CHOICE (log 16): R109 gives numbers only, and R260 and
spec/95_test_vectors.md write `RDSR CC` and `RDSR 0x06`. -/
def statusOperand (cs : List Char) : Option Nat :=
  match statusNames.lookup (String.ofList cs) with
  | some n => some n
  | none => number cs

/-- How an operand of an instruction is written (R109). -/
def operandOf (name : String) : List Char → Option Nat :=
  if name = "CT.SETM" then coefficient else if name = "RDSR" then statusOperand else number

/-- A number that fits a field of `w` bits. -/
def field (w n : Nat) : Option (BitVec w) := if n < 2 ^ w then some (BitVec.ofNat w n) else none

/-- White space is dropped at both ends. -/
def trimmed (cs : List Char) : List Char :=
  ((cs.dropWhile Char.isWhitespace).reverse.dropWhile Char.isWhitespace).reverse

/-- The parts between commas. -/
def commaParts (cs : List Char) : List (List Char) :=
  cs.foldr
    (fun c parts =>
      if c = ',' then [] :: parts
      else
        match parts with
        | [] => [[c]]
        | p :: rest => (c :: p) :: rest)
    [[]]

/-- The instructions of a mnemonic and its operands in the order of R105: one, or the expansion of R110; `none` for an unknown
mnemonic, a wrong number of operands, or one that does not fit its field. -/
def instrsOf (name : String) (ops : List Nat) : Option (List Instr) :=
  match name, ops with
  | "RCE.INIT", [cap] => do return [.rceInit (← field 32 cap)]
  | "RCE.PUTBIT", [bit, prob] => do return [.rcePutbit ((← field 1 bit) == 1#1) (← field 8 prob)]
  | "RCE.FINISH", [] => some [.rceFinish]
  | "RCE.ABORT", [] => some [.rceAbort]
  | "RCD.INIT", [len] => do return [.rcdInit (← field 32 len)]
  | "RCD.GETBIT", [prob] => do return [.rcdGetbit (← field 8 prob)]
  | "BPW.INIT", [cap] => do return [.bpwInit (← field 32 cap)]
  | "BPW.PUTBITS", [value, nbits] => do return [.bpwPutbits (← field 32 value) (← field 8 nbits)]
  | "BPW.FINISH", [] => some [.bpwFinish]
  | "BPW.ABORT", [] => some [.bpwAbort]
  | "BPR.INIT", [len] => do return [.bprInit (← field 32 len)]
  | "BPR.READBITS", [nbits] => do return [.bprReadbits (← field 8 nbits)]
  | "PRED0", [top, left] => do return [.pred0 (← field 16 top) (← field 32 left)]
  | "PRED1", [top, left] => do return [.pred1 (← field 16 top) (← field 32 left)]
  | "PRED2", [top, left] => do return [.pred2 (← field 16 top) (← field 32 left)]
  | "PRED3", [top, left] => do return [.pred3 (← field 16 top) (← field 32 left)]
  | "PRED4", [top, left] => do return [.pred4 (← field 16 top) (← field 32 left)]
  | "PRED5", [top, left] => do return [.pred5 (← field 16 top) (← field 32 left)]
  | "PRED6", [top, left] => do return [.pred6 (← field 16 top) (← field 32 left)]
  | "PRED7", [top, left] => do return [.pred7 (← field 16 top) (← field 32 left)]
  | "PRED8", [top, left] => do return [.pred8 (← field 16 top) (← field 32 left)]
  | "PRED9", [top, left] => do return [.pred9 (← field 16 top) (← field 32 left)]
  | "PRED10", [top, left] => do return [.pred10 (← field 16 top) (← field 32 left)]
  | "PRED11", [top, left] => do return [.pred11 (← field 16 top) (← field 32 left)]
  | "PRED12", [top, left] => do return [.pred12 (← field 16 top) (← field 32 left)]
  | "PRED13", [top, left] => do return [.pred13 (← field 16 top) (← field 32 left)]
  | "SUBG", [addr, count] => do return [.subg (← field 16 addr) (← field 16 count)]
  | "ADDG", [addr, count] => do return [.addg (← field 16 addr) (← field 16 count)]
  | "CT.SETM", [g2r, g2b, r2b] => do return [.ctSetm (← field 8 g2r) (← field 8 g2b) (← field 8 r2b)]
  | "CT.FWD", [addr, count] => do return [.ctFwd (← field 16 addr) (← field 16 count)]
  | "CT.INV", [src, dst, count] => do return [.ctInv (← field 16 src) (← field 16 dst) (← field 16 count)]
  | "RDSR", [sr] => do return [.rdsr (← field 8 sr)]
  | "PRED", [m, top, left] => do expand (.pred m (← field 16 top) (← field 32 left))
  | "BPW.PUT32", [v] => do expand (.bpwPut32 (← field 32 v))
  | "CT.CLRM", [] => expand .ctClrm
  | _, _ => none

/-- The instructions of one line of assembler text (R109): none on a line that is empty up to its comment. -/
def assemble (line : String) : Option (List Instr) :=
  let cs := trimmed (line.toList.takeWhile fun c => c ≠ ';')
  let name := String.ofList (cs.takeWhile fun c => !c.isWhitespace)
  let rest := trimmed (cs.dropWhile fun c => !c.isWhitespace)
  if cs.isEmpty then some []
  else do
    let ops ← if rest.isEmpty then some [] else (commaParts rest).mapM fun p => operandOf name (trimmed p)
    instrsOf name ops

end Sys2Proof.Machine
end

