-- ==== Sys2Proof/Machine/HostMoves.lean ====
section
/-!
DEFINITION. What the host may do to the core between its steps (spec/20_memory.md R64, R65). What R64 does not allow, and what
spec/70_reset_and_hazards.md R322 lists, is no move here (log 8).
-/
namespace Sys2Proof.Machine

/-- A core with its host. The two bits are the model's own: the host has written `RCD.IBUF` (`BPR.IBUF`) since it last issued
that unit's INIT, and owes one before the next GETBIT (READBITS) (R64). -/
structure Hosted where
  core : State
  rcdStale : Bool
  bprStale : Bool
  deriving DecidableEq, Repr

/-- The moves of R64 that change the core. -/
inductive HostMove where
  /-- Issue a command: one 64-bit command word on the command port. -/
  | issue (w : Word64)
  /-- Take the response. -/
  | takeResponse
  /-- Write a stream byte to `RCD.IBUF`. -/
  | writeRcdIbuf (addr : Nat) (b : Byte)
  /-- Write a stream byte to `BPR.IBUF`. -/
  | writeBprIbuf (addr : Nat) (b : Byte)
  /-- Write a pixel word to PMEM. -/
  | writePmem (addr : Nat) (p : Pixel)
  /-- Assert and release reset. -/
  | reset
  deriving DecidableEq, Repr

/-- "Between commands" of R64: a response has been taken and the next command is not issued. -/
def betweenCommands (s : State) : Bool := s.ports == .idle

/-- Whether a word is an RCD.INIT. -/
def isRcdInit (w : Word64) : Bool :=
  match decode w with
  | some (.rcdInit _) => true
  | _ => false

/-- Whether a word is an RCD.GETBIT. -/
def isRcdGetbit (w : Word64) : Bool :=
  match decode w with
  | some (.rcdGetbit _) => true
  | _ => false

/-- Whether a word is a BPR.INIT. -/
def isBprInit (w : Word64) : Bool :=
  match decode w with
  | some (.bprInit _) => true
  | _ => false

/-- Whether a word is a BPR.READBITS. -/
def isBprReadbits (w : Word64) : Bool :=
  match decode w with
  | some (.bprReadbits _) => true
  | _ => false

/-- Issuing a command (R64, R90): between commands, and no data command of a decoder whose input buffer was written since its
last INIT. -/
def hostIssue (w : Word64) (h : Hosted) : Option Hosted :=
  if betweenCommands h.core && !(h.rcdStale && isRcdGetbit w) && !(h.bprStale && isBprReadbits w) then
    some
      { core := present h.core w
        rcdStale := h.rcdStale && !isRcdInit w
        bprStale := h.bprStale && !isBprInit w }
  else none

/-- Taking the response (R90). -/
def hostTake (h : Hosted) : Option Hosted :=
  match h.core.ports with
  | .response _ => some { h with core := { h.core with ports := .idle } }
  | .idle => none
  | .command _ => none

/-- Writing a byte of `RCD.IBUF` (R64). -/
def hostWriteRcdIbuf (addr : Nat) (b : Byte) (h : Hosted) : Option Hosted :=
  if betweenCommands h.core && decide (addr < h.core.cfg.sizeOf .rcdIbuf) then
    some
      { h with
        core := h.core.setRcd { h.core.rcd with ibuf := h.core.rcd.ibuf.write addr b }
        rcdStale := true }
  else none

/-- Writing a byte of `BPR.IBUF` (R64). -/
def hostWriteBprIbuf (addr : Nat) (b : Byte) (h : Hosted) : Option Hosted :=
  if betweenCommands h.core && decide (addr < h.core.cfg.sizeOf .bprIbuf) then
    some
      { h with
        core := h.core.setBpr { h.core.bpr with ibuf := h.core.bpr.ibuf.write addr b }
        bprStale := true }
  else none

/-- Writing a word of PMEM (R64). -/
def hostWritePmem (addr : Nat) (p : Pixel) (h : Hosted) : Option Hosted :=
  if betweenCommands h.core && decide (addr < h.core.cfg.sizeOf .pmem) then
    some { h with core := h.core.setPmem (h.core.pmem.write addr p) }
  else none

/-- Asserting reset, at any time (R64, R310; log 7). -/
def hostReset (h : Hosted) : Option Hosted :=
  some
    { core := h.core.assertReset
      rcdStale := false
      bprStale := false }

/-- A host move, or `none` where the host has no such move. -/
def hostMove (h : Hosted) : HostMove → Option Hosted
  | .issue w => hostIssue w h
  | .takeResponse => hostTake h
  | .writeRcdIbuf addr b => hostWriteRcdIbuf addr b h
  | .writeBprIbuf addr b => hostWriteBprIbuf addr b h
  | .writePmem addr p => hostWritePmem addr p h
  | .reset => hostReset h

/-- Whether no command is executing: the ports are idle, or a response waits to be taken. DESIGN CHOICE (log 19) as the window of
the host's reads of an output buffer. -/
def noCommand (s : State) : Bool := (presented s).isNone

/-- What the host reads of `RCE.OBUF` (R64): the finished stream below `OLEN`, from an OK FINISH to the next INIT. Outside
that window `OLEN` is 0, the session is open, or `RCE.ERR` is set. DESIGN CHOICE (log 19): the read is allowed while a response
waits untaken; R64 says "from the OK response", R65 and R75 speak of the time after it was taken. -/
def hostReadRceObuf (s : State) (addr : Nat) : Option Byte :=
  if noCommand s && s.rce.st == .idle && s.rce.err == .ok && decide (addr < s.rce.olen.toNat) then
    s.rce.obuf.read addr
  else none

/-- What the host reads of `BPW.OBUF` (R64), in the same window. DESIGN CHOICE (log 19): also while a response waits untaken. -/
def hostReadBpwObuf (s : State) (addr : Nat) : Option Byte :=
  if noCommand s && s.bpw.st == .idle && s.bpw.err == .ok && decide (addr < s.bpw.olen.toNat) then
    s.bpw.obuf.read addr
  else none

/-- What the host reads of PMEM between commands (R64); `none` for a word nothing has written (R63). -/
def hostReadPmem (s : State) (addr : Nat) : Option Pixel :=
  if betweenCommands s then s.pmem.read addr else none

/-- What the host reads of `RCD.IBUF`. DESIGN CHOICE (log 18): between commands; R60 lets the host read an input buffer "when rule
R64 allows", and R64 has no row for it. -/
def hostReadRcdIbuf (s : State) (addr : Nat) : Option Byte :=
  if betweenCommands s then s.rcd.ibuf.read addr else none

/-- What the host reads of `BPR.IBUF`. DESIGN CHOICE (log 18): between commands, as for `RCD.IBUF`. -/
def hostReadBprIbuf (s : State) (addr : Nat) : Option Byte :=
  if betweenCommands s then s.bpr.ibuf.read addr else none

/-- The response word the host sees on the response port (R91). -/
def hostSeesResponse (s : State) : Option Word64 :=
  match s.ports with
  | .response w => some w
  | .idle => none
  | .command _ => none

end Sys2Proof.Machine
end

