-- ==== Sys2Proof/Machine/Cores.lean ====
section
/-!
DEFINITION. A system of several cores (spec/20_memory.md R80, spec/60_exceptions.md R293): NUM_CORES cores with nothing in
common, each with its own two ports. A command goes to the core whose command port the host writes, so a move of the host and a
step of the machine each name one core, and touch no other (log 10).
-/
namespace Sys2Proof.Machine

/-- A system of NUM_CORES cores after reset, with a host that has made no move yet (R9, R80, R310). -/
def coresReset (n : Nat) (c : Config) : List Hosted := List.replicate n ⟨State.resetWith c, false, false⟩

/-- Core `k` of a system takes one step; `none` where there is no such core. -/
def coreStep (k : Nat) (cores : List Hosted) : Option (Host.Outcome (List Hosted) Fault Refusal) :=
  match cores[k]? with
  | none => none
  | some h =>
    match step h.core with
    | .next s => some (.next (cores.set k { h with core := s }))
    | .fault f => some (.fault f)
    | .refused r => some (.refused r)

/-- The host makes a move at core `k`; issuing a command writes the command port of that core, which is what decides that the
command goes to it (R293). `none` where there is no such core or it has no such move. -/
def coreMove (k : Nat) (m : HostMove) (cores : List Hosted) : Option (List Hosted) :=
  match cores[k]? with
  | none => none
  | some h => (hostMove h m).map fun h' => cores.set k h'

end Sys2Proof.Machine
end

