-- ==== Sys2Proof/Safety.lean ====
section
/-!
DEFINITION. The terms claims are stated in: the register invariants of spec/10_state.md R31, R36, R41, R46 and the canonical
form of the memories, what a run of legal moves is, the response a state carries, and what a coded stream spells as a
number.
-/
namespace Sys2Proof.Machine

/-! ### Invariants -/

/-- A memory in canonical form with every address inside its space (R60). -/
abbrev memoryOk {w : Nat} (m : Memory w) (size : Nat) : Prop := m.wf ∧ ∀ e ∈ m, e.1 < size

/-- Every address below `n` has been written. -/
abbrev storedBelow {w : Nat} (m : Memory w) (n : Nat) : Prop := ∀ a, a < n → (m.read a).isSome

/-- R31 (a) to (e), for an open encoder session; `OCAP` is what RCE.INIT accepted (R30). -/
abbrev rceOpenInv (c : Config) (u : Rce) : Prop :=
  128 ≤ u.range.toNat ∧
  u.pbyte.toNat < 2 ^ u.pcnt.toNat ∧
  8 * u.olen.toNat + u.pcnt.toNat + u.held.toNat + u.outst.toNat = u.bitpos.toNat ∧
  u.bitpos.toNat + 8 ≤ 8 * u.ocap.toNat ∧
  u.ocap.toNat ≤ c.bufBytes ∧
  (u.held = false → u.low.toNat + u.range.toNat ≤ 256)

/-- The encoder's invariant: canonical buffer, the bytes below `OLEN` written (R29), the codes of R272, and R31 while a session is
open (in error too, since a refused command leaves the registers). -/
abbrev rceInv (c : Config) (u : Rce) : Prop :=
  memoryOk u.obuf c.bufBytes ∧
  storedBelow u.obuf u.olen.toNat ∧
  (u.err = .ok ∨ u.err = .operand ∨ u.err = .capacity) ∧
  (u.st = .active → rceOpenInv c u)

/-- R36, for an open decoder session. -/
abbrev rcdOpenInv (c : Config) (u : Rcd) : Prop :=
  128 ≤ u.range.toNat ∧
  u.value.toNat < u.range.toNat ∧
  8 ≤ u.bitpos.toNat ∧
  u.bitpos.toNat ≤ 8 * u.ilen.toNat ∧
  u.ilen.toNat ≤ c.bufBytes

/-- The decoder's invariant (R36, R272). -/
abbrev rcdInv (c : Config) (u : Rcd) : Prop :=
  memoryOk u.ibuf c.bufBytes ∧
  (u.err = .ok ∨ u.err = .operand ∨ u.err = .eos ∨ u.err = .corrupt) ∧
  (u.st = .active → rcdOpenInv c u)

/-- The writer's invariant (R37 to R41, R272); the register part holds in IDLE too. -/
abbrev bpwInv (c : Config) (u : Bpw) : Prop :=
  memoryOk u.obuf c.bufBytes ∧
  storedBelow u.obuf u.olen.toNat ∧
  (u.err = .ok ∨ u.err = .operand ∨ u.err = .capacity) ∧
  u.pend.toNat ≤ 7 ∧
  u.acc.toNat < 2 ^ u.pend.toNat ∧
  8 * u.olen.toNat + u.pend.toNat ≤ 8 * u.ocap.toNat ∧
  u.ocap.toNat ≤ c.bufBytes

/-- The reader's invariant (R42 to R46, R272); the register part holds in IDLE too. -/
abbrev bprInv (c : Config) (u : Bpr) : Prop :=
  memoryOk u.ibuf c.bufBytes ∧
  (u.err = .ok ∨ u.err = .operand ∨ u.err = .eos) ∧
  u.acc.toNat < 2 ^ u.cnt.toNat ∧
  u.cnt.toNat ≤ 8 * u.pos.toNat ∧
  u.pos.toNat ≤ u.ilen.toNat ∧
  u.ilen.toNat ≤ c.bufBytes

/-- The status field of a response word (R91). -/
def statusField (w : Word64) : BitVec 8 := w.extractLsb' 32 8

/-- The value field of a response word (R91). -/
def valueField (w : Word64) : Reg32 := w.extractLsb' 0 32

/-- The form of a response word (R91, R271): bits 63:40 are 0, the status is 0 to 7, and the value is 0 when the status is not. -/
abbrev responseOk (w : Word64) : Prop :=
  w.extractLsb' 40 24 = 0 ∧ (statusField w).toNat ≤ 7 ∧ (statusField w ≠ 0 → valueField w = 0)

/-- A response on the port has the form of R91. -/
abbrev portsOk (p : Ports) : Prop :=
  match p with
  | .response w => responseOk w
  | .idle => True
  | .command _ => True

/-- The invariant of the machine. -/
abbrev State.Inv (s : State) : Prop :=
  s.cfg.Legal ∧ rceInv s.cfg s.rce ∧ rcdInv s.cfg s.rcd ∧ bpwInv s.cfg s.bpw ∧ bprInv s.cfg s.bpr ∧
  memoryOk s.pmem s.cfg.pmemWords ∧ portsOk s.ports

/-! ### Runs -/

/-- The one fault a run of legal moves can meet: a read of memory nothing has written (R63). -/
def Fault.isUnwrittenRead : Fault → Bool
  | .unwrittenRead _ _ => true
  | .outsideSpace _ _ => false
  | .carryWithNothingHeld => false
  | .rangeOutsideBand => false
  | .doesNotFit => false

/-- What core and host reach from reset, on a core of given sizes, by steps of the core and moves of the host (R64, R323). -/
inductive Reachable (c : Config) : Hosted → Prop where
  | reset : Reachable c ⟨State.resetWith c, false, false⟩
  | step (h : Hosted) (s : State) : Reachable c h → Machine.step h.core = .next s → Reachable c { h with core := s }
  | move (h h' : Hosted) (m : HostMove) : Reachable c h → hostMove h m = some h' → Reachable c h'

/-- The value of an OK response on the response port. -/
def okValue (s : State) : Option Reg32 :=
  match s.ports with
  | .response w => if statusField w = 0 then some (valueField w) else none
  | .idle => none
  | .command _ => none

/-- Commands executed one after the other, all of them answered OK: the last state and the response values in order. -/
def runOk : List Instr → State → Option (State × List Reg32)
  | [], s => some (s, [])
  | i :: is, s =>
    match exec i s with
    | .next t =>
      match okValue t with
      | some v => (runOk is t).map fun r => (r.1, v :: r.2)
      | none => none
    | .fault _ => none
    | .refused _ => none

/-! ### What a coded stream spells -/

/-- The byte at an address, 0 where none is stored; used only below a length that is stored. -/
def byteAt (m : Memory 8) (a : Nat) : Nat := ((m.read a).getD 0).toNat

/-- The first `n` bytes as a number, the first byte most significant (R66 b). -/
def spelledMsb (m : Memory 8) : Nat → Nat
  | 0 => 0
  | n + 1 => spelledMsb m n * 256 + byteAt m n

/-- `n` bytes from address `a` on as a number, the first byte least significant (R66 a). -/
def spelledLsb (m : Memory 8) : (a n : Nat) → Nat
  | _, 0 => 0
  | a, n + 1 => byteAt m a + 256 * spelledLsb m (a + 1) n

/-- Stream bit `i` of the range coder: bit 7 − (i mod 8) of byte i / 8 (R66 b). -/
def streamBit (m : Memory 8) (i : Nat) : Bool := (byteAt m (i / 8)).testBit (7 - i % 8)

/-- `n` stream bits from bit `i` on as a number, the first one most significant. -/
def streamBits (m : Memory 8) (i : Nat) : Nat → Nat
  | 0 => 0
  | n + 1 => 2 * streamBits m i n + (streamBit m (i + n)).toNat

/-- The bits that have left the encoder's window, as a number (R31 c): the bytes in the buffer, the pending bits, the held 0, the
outstanding 1s. -/
def leftBits (u : Rce) : Nat :=
  (spelledMsb u.obuf u.olen.toNat * 2 ^ u.pcnt.toNat + u.pbyte.toNat) * 2 ^ u.held.toNat * 2 ^ u.outst.toNat +
    (2 ^ u.outst.toNat - 1)

/-- The lower end of the encoder's interval with its `BITPOS + 8` bits (R136): the bits that left, then the window. -/
def codeValue (u : Rce) : Nat := leftBits u * 256 + u.low.toNat

/-- The writer's stream so far as a number, its first bit least significant (R37, R66 a). -/
def packedValue (u : Bpw) : Nat := spelledLsb u.obuf 0 u.olen.toNat + u.acc.toNat * 256 ^ u.olen.toNat

/-! ### What leaves the encoder's window -/

/-- The bits that have left the encoder's window (R124): those that are final, as a number (the first bit most significant) and
a count, whether a 0 is held, and how many 1s are outstanding. -/
structure Outgoing where
  value : Nat
  count : Nat
  held : Bool
  outst : Nat
  deriving DecidableEq, Repr

/-- The outgoing bits an encoder's registers and buffer stand for (R25 to R29). -/
def outgoing (u : Rce) : Outgoing where
  value := spelledMsb u.obuf u.olen.toNat * 2 ^ u.pcnt.toNat + u.pbyte.toNat
  count := 8 * u.olen.toNat + u.pcnt.toNat
  held := u.held
  outst := u.outst.toNat

/-- `n` equal bits become final. -/
def emitted (b : Bool) (n : Nat) (o : Outgoing) : Outgoing :=
  { o with
    value := o.value * 2 ^ n + (if b then 2 ^ n - 1 else 0)
    count := o.count + n }

/-- A bit leaves the window (R125). -/
def leaves (o : Outgoing) (b : Bool) : Outgoing :=
  if b then { o with outst := o.outst + 1 }
  else { emitted true o.outst (emitted false o.held.toNat o) with held := true, outst := 0 }

/-- A carry reaches the bits kept back (R127). -/
def carried (o : Outgoing) : Outgoing :=
  { emitted false o.outst (emitted true 1 o) with held := false, outst := 0 }

/-- The `n` most significant bits of a window, bit 7 first. -/
def topBits (w : BitVec 8) (n : Nat) : List Bool := (List.range n).map fun k => w.getLsbD (7 - k)

/-! ### Coded sessions -/

/-- What coding a list of symbols makes of the interval (R123, R136): its width, its lower end in units of the window's last bit,
and the shifts so far. -/
structure Coded where
  range : Nat
  low : Nat
  shifts : Nat
  deriving DecidableEq, Repr

/-- One symbol (bit, probability) more (R123, R128). -/
def codedStep (c : Coded) (sym : Bool × BitVec 8) : Coded :=
  let sp := split c.range sym.2.toNat
  let r := if sym.1 then c.range - sp else sp
  { range := r * 2 ^ nshift r
    low := (c.low + if sym.1 then sp else 0) * 2 ^ nshift r
    shifts := c.shifts + nshift r }

/-- A whole session from the initial interval (R130). -/
def coded (syms : List (Bool × BitVec 8)) : Coded := syms.foldl codedStep ⟨255, 0, 0⟩

/-- The commands that encode a list of symbols. -/
def encodeRun (cap : BitVec 32) (syms : List (Bool × BitVec 8)) : List Instr :=
  .rceInit cap :: (syms.map (fun y => .rcePutbit y.1 y.2) ++ [.rceFinish])

/-- The commands that decode as many symbols with the same probabilities. -/
def decodeRun (len : BitVec 32) (syms : List (Bool × BitVec 8)) : List Instr :=
  .rcdInit len :: syms.map fun y => .rcdGetbit y.2

/-- The commands that pack a list of (value, width) pairs. -/
def packRun (cap : BitVec 32) (pairs : List (BitVec 32 × BitVec 8)) : List Instr :=
  .bpwInit cap :: (pairs.map (fun y => .bpwPutbits y.1 y.2) ++ [.bpwFinish])

/-- The commands that read back values of the same widths. -/
def unpackRun (len : BitVec 32) (pairs : List (BitVec 32 × BitVec 8)) : List Instr :=
  .bprInit len :: pairs.map fun y => .bprReadbits y.2

/-! ### Errors -/

/-- The status of the response on the port. -/
def answeredWith (t : State) (e : Status) : Prop := ∃ v, t.ports = .response (responseWord e v)

/-- The checks a command meets, in the order of R281, each with the code it reports: the lifecycle (R276), the stored error
(R278), the operands (R107), the address (R73), then what depends on the data (R129, R162, R143, R172, R140). -/
def errorChecks (s : State) : Instr → List (Bool × Status)
  | .rceInit cap =>
    [(s.rce.st == .active, .state), (cap.toNat == 0 || decide (s.cfg.bufBytes < cap.toNat), .operand)]
  | .rcePutbit bit prob =>
    [(s.rce.st == .idle, .state), (s.rce.err != .ok, s.rce.err), (prob == 0, .operand),
      (decide (8 * s.rce.ocap.toNat < s.rce.bitpos.toNat + 8 +
        nshift (if bit then s.rce.range.toNat - split s.rce.range.toNat prob.toNat
          else split s.rce.range.toNat prob.toNat)), .capacity)]
  | .rceFinish => [(s.rce.st == .idle, .state), (s.rce.err != .ok, s.rce.err)]
  | .rceAbort => [(s.rce.st == .idle, .state)]
  | .rcdInit len =>
    [(decide (s.cfg.bufBytes < len.toNat), .operand), (len == 0, .eos), (s.rcd.ibuf.read 0 == some 0xFF, .corrupt)]
  | .rcdGetbit prob =>
    [(s.rcd.st == .idle, .state), (s.rcd.err != .ok, s.rcd.err), (prob == 0, .operand),
      (decide (8 * s.rcd.ilen.toNat < s.rcd.bitpos.toNat +
        nshift (if split s.rcd.range.toNat prob.toNat ≤ s.rcd.value.toNat
          then s.rcd.range.toNat - split s.rcd.range.toNat prob.toNat
          else split s.rcd.range.toNat prob.toNat)), .eos)]
  | .bpwInit cap => [(s.bpw.st == .active, .state), (decide (s.cfg.bufBytes < cap.toNat), .operand)]
  | .bpwPutbits _ nbits =>
    [(s.bpw.st == .idle, .state), (s.bpw.err != .ok, s.bpw.err), (decide (24 < nbits.toNat), .operand),
      (decide (8 * s.bpw.ocap.toNat < 8 * s.bpw.olen.toNat + s.bpw.pend.toNat + nbits.toNat), .capacity)]
  | .bpwFinish => [(s.bpw.st == .idle, .state), (s.bpw.err != .ok, s.bpw.err)]
  | .bpwAbort => [(s.bpw.st == .idle, .state)]
  | .bprInit len => [(decide (s.cfg.bufBytes < len.toNat), .operand)]
  | .bprReadbits nbits =>
    [(s.bpr.st == .idle, .state), (s.bpr.err != .ok, s.bpr.err), (decide (24 < nbits.toNat), .operand),
      (decide (8 * s.bpr.ilen.toNat + s.bpr.cnt.toNat < 8 * s.bpr.pos.toNat + nbits.toNat), .eos)]
  | .pred0 top _ | .pred1 top _ | .pred2 top _ | .pred3 top _ | .pred4 top _ | .pred5 top _ | .pred6 top _
  | .pred7 top _ | .pred8 top _ | .pred9 top _ | .pred10 top _ | .pred11 top _ | .pred12 top _ | .pred13 top _ =>
    [(top.toNat == 0 || decide (s.cfg.pmemWords < top.toNat + 2), .addr)]
  | .subg addr count | .addg addr count | .ctFwd addr count =>
    [(decide (s.cfg.pmemWords < addr.toNat + count.toNat), .addr)]
  | .ctInv src dst count =>
    [(decide (s.cfg.pmemWords < src.toNat + count.toNat), .addr),
      (decide (s.cfg.pmemWords < dst.toNat + count.toNat), .addr)]
  | .ctSetm _ _ _ => []
  | .rdsr sr =>
    [(!([0x00, 0x01, 0x02, 0x03, 0x04, 0x05, 0x07, 0x08, 0x09, 0x0A, 0x0B, 0x0C, 0x0D, 0x0F, 0x10, 0x11].contains sr),
      .operand)]

/-- The error a command reports: that of the first check that fails, none when none does (R281). -/
def firstError (s : State) (i : Instr) : Option Status := ((errorChecks s i).find? fun k => k.1).map fun k => k.2

/-- The writes that take effect when a command ends with an error (R280), `CC` and the response apart. -/
def failureWrites (s : State) (e : Status) : Instr → State
  | .rceInit _ => if e = .operand then s.setRce { s.rce with err := e } else s
  | .rcePutbit _ _ =>
    if s.rce.st = .active ∧ s.rce.err = .ok then s.setRce { s.rce with err := e } else s
  | .rceFinish => if s.rce.st = .active then s.setRce { s.rce with st := .idle, olen := 0 } else s
  | .rceAbort => s
  | .rcdInit _ => s.setRcd { s.rcd with st := .idle, err := e }
  | .rcdGetbit _ =>
    if s.rcd.st = .active ∧ s.rcd.err = .ok then s.setRcd { s.rcd with err := e } else s
  | .bpwInit _ => if e = .operand then s.setBpw { s.bpw with err := e } else s
  | .bpwPutbits _ _ =>
    if s.bpw.st = .active ∧ s.bpw.err = .ok then s.setBpw { s.bpw with err := e } else s
  | .bpwFinish => if s.bpw.st = .active then s.setBpw { s.bpw with st := .idle, olen := 0 } else s
  | .bpwAbort => s
  | .bprInit _ => s.setBpr { s.bpr with st := .idle, err := e }
  | .bprReadbits _ =>
    if s.bpr.st = .active ∧ s.bpr.err = .ok then s.setBpr { s.bpr with err := e } else s
  | .pred0 _ _ | .pred1 _ _ | .pred2 _ _ | .pred3 _ _ | .pred4 _ _ | .pred5 _ _ | .pred6 _ _
  | .pred7 _ _ | .pred8 _ _ | .pred9 _ _ | .pred10 _ _ | .pred11 _ _ | .pred12 _ _ | .pred13 _ _ => s
  | .subg _ _ | .addg _ _ | .ctFwd _ _ => s
  | .ctInv _ _ _ => s
  | .ctSetm _ _ _ => s
  | .rdsr _ => s

/-- The statuses other than OK in a command's row of R272; `(E)` is the code stored in the unit's ERR. -/
def statusRow (s : State) : Instr → List Status
  | .rceInit _ => [.state, .operand]
  | .rcePutbit _ _ => [.state, .operand, .capacity, s.rce.err]
  | .rceFinish => [.state, s.rce.err]
  | .rceAbort => [.state]
  | .rcdInit _ => [.operand, .eos, .corrupt]
  | .rcdGetbit _ => [.state, .operand, .eos, s.rcd.err]
  | .bpwInit _ => [.state, .operand]
  | .bpwPutbits _ _ => [.state, .operand, .capacity, s.bpw.err]
  | .bpwFinish => [.state, s.bpw.err]
  | .bpwAbort => [.state]
  | .bprInit _ => [.operand]
  | .bprReadbits _ => [.state, .operand, .eos, s.bpr.err]
  | .pred0 _ _ | .pred1 _ _ | .pred2 _ _ | .pred3 _ _ | .pred4 _ _ | .pred5 _ _ | .pred6 _ _
  | .pred7 _ _ | .pred8 _ _ | .pred9 _ _ | .pred10 _ _ | .pred11 _ _ | .pred12 _ _ | .pred13 _ _ => [.addr]
  | .subg _ _ | .addg _ _ | .ctFwd _ _ => [.addr]
  | .ctInv _ _ _ => [.addr]
  | .ctSetm _ _ _ => []
  | .rdsr _ => [.operand]

/-! ### Units -/

/-- The units of R2, and the system instruction. -/
inductive UnitName where
  | rce
  | rcd
  | bpw
  | bpr
  | ppb
  | cdt
  | system
  deriving DecidableEq, Repr

/-- The unit of an instruction (R105). -/
def unitOf : Instr → UnitName
  | .rceInit _ | .rcePutbit _ _ | .rceFinish | .rceAbort => .rce
  | .rcdInit _ | .rcdGetbit _ => .rcd
  | .bpwInit _ | .bpwPutbits _ _ | .bpwFinish | .bpwAbort => .bpw
  | .bprInit _ | .bprReadbits _ => .bpr
  | .pred0 _ _ | .pred1 _ _ | .pred2 _ _ | .pred3 _ _ | .pred4 _ _ | .pred5 _ _ | .pred6 _ _
  | .pred7 _ _ | .pred8 _ _ | .pred9 _ _ | .pred10 _ _ | .pred11 _ _ | .pred12 _ _ | .pred13 _ _ => .ppb
  | .subg _ _ | .addg _ _ | .ctSetm _ _ _ | .ctFwd _ _ | .ctInv _ _ _ => .cdt
  | .rdsr _ => .system

/-- Two states agree on the registers of the four units, whatever their byte buffers hold. -/
def sameUnitRegisters (s t : State) : Prop :=
  { s.rce with obuf := [] } = { t.rce with obuf := [] } ∧ { s.rcd with ibuf := [] } = { t.rcd with ibuf := [] } ∧
    { s.bpw with obuf := [] } = { t.bpw with obuf := [] } ∧ { s.bpr with ibuf := [] } = { t.bpr with ibuf := [] }

/-- Two states agree on all a unit may read (R3, R60); the system instruction may read every register and no memory. -/
def agreesOn (s t : State) : UnitName → Prop
  | .rce => s.rce = t.rce
  | .rcd => s.rcd = t.rcd
  | .bpw => s.bpw = t.bpw
  | .bpr => s.bpr = t.bpr
  | .ppb => s.pmem = t.pmem
  | .cdt => s.pmem = t.pmem ∧ s.mult = t.mult
  | .system => sameUnitRegisters s t ∧ s.mult = t.mult ∧ s.cc = t.cc

/-- `t` differs from `s` at most in what a unit may write (R3, R60), in `CC` and in the ports. -/
def writesOnly (s t : State) : UnitName → Prop
  | .rce => t.cfg = s.cfg ∧ t.rcd = s.rcd ∧ t.bpw = s.bpw ∧ t.bpr = s.bpr ∧ t.mult = s.mult ∧ t.pmem = s.pmem
  | .rcd => t.cfg = s.cfg ∧ t.rce = s.rce ∧ t.bpw = s.bpw ∧ t.bpr = s.bpr ∧ t.mult = s.mult ∧ t.pmem = s.pmem
  | .bpw => t.cfg = s.cfg ∧ t.rce = s.rce ∧ t.rcd = s.rcd ∧ t.bpr = s.bpr ∧ t.mult = s.mult ∧ t.pmem = s.pmem
  | .bpr => t.cfg = s.cfg ∧ t.rce = s.rce ∧ t.rcd = s.rcd ∧ t.bpw = s.bpw ∧ t.mult = s.mult ∧ t.pmem = s.pmem
  | .cdt => t.cfg = s.cfg ∧ t.rce = s.rce ∧ t.rcd = s.rcd ∧ t.bpw = s.bpw ∧ t.bpr = s.bpr
  | .ppb | .system =>
    t.cfg = s.cfg ∧ t.rce = s.rce ∧ t.rcd = s.rcd ∧ t.bpw = s.bpw ∧ t.bpr = s.bpr ∧ t.mult = s.mult ∧ t.pmem = s.pmem

/-- The status registers of R51: number and content. -/
def statusRegisters (s : State) : List (BitVec 8 × Nat) :=
  [(0x00, s.rce.st.bit.toNat + 2 * s.rce.err.code.toNat), (0x01, s.rce.olen.toNat), (0x02, s.rce.ocap.toNat),
    (0x03, s.rce.bitpos.toNat), (0x04, s.rcd.st.bit.toNat + 2 * s.rcd.err.code.toNat), (0x05, s.rcd.ilen.toNat),
    (0x07, s.rcd.bitpos.toNat), (0x08, s.bpw.st.bit.toNat + 2 * s.bpw.err.code.toNat), (0x09, s.bpw.olen.toNat),
    (0x0A, s.bpw.ocap.toNat), (0x0B, 8 * s.bpw.olen.toNat + s.bpw.pend.toNat),
    (0x0C, s.bpr.st.bit.toNat + 2 * s.bpr.err.code.toNat), (0x0D, s.bpr.ilen.toNat),
    (0x0F, 8 * s.bpr.pos.toNat - s.bpr.cnt.toNat), (0x10, s.mult.toNat), (0x11, s.cc.toNat)]

/-! ### Pixels -/

/-- A lane as a number. -/
def laneNat (p : Pixel) (k : Nat) : Nat := (lane p k).toNat

/-- The three words a predictor reads are inside PMEM and hold these pixels (R73, R194). -/
def rowAbove (s : State) (top : BitVec 16) (tl t tr : Pixel) : Prop :=
  1 ≤ top.toNat ∧ top.toNat + 2 ≤ s.cfg.pmemWords ∧ s.pmem.read (top.toNat - 1) = some tl ∧
    s.pmem.read top.toNat = some t ∧ s.pmem.read (top.toNat + 1) = some tr

/-- Two pixels differ at most in red and blue, by these amounts mod 256 (R230). -/
def redBlueShifted (p q : Pixel) (dr db : Byte) : Prop :=
  lane q 3 = lane p 3 ∧ lane q 1 = lane p 1 ∧ lane q 2 = lane p 2 + dr ∧ lane q 0 = lane p 0 + db

/-- `delta(coef, channel)` mod 256 in 16-bit two's-complement arithmetic (R231): the product of two signed bytes fits. -/
def deltaByte (coef channel : Byte) : Byte :=
  ((coef.signExtend 16 * channel.signExtend 16).sshiftRight 5).setWidth 8

/-- What a command over a range leaves in PMEM: outside `addr .. addr + n − 1` every word as before, inside it each pixel
related to the one that stood there (R232). -/
def rangeRelated (r : Pixel → Pixel → Prop) (addr n : Nat) (m m' : Memory 32) : Prop :=
  (∀ a, ¬ (addr ≤ a ∧ a < addr + n) → m'.read a = m.read a) ∧
    ∀ i, i < n → ∃ p q, m.read (addr + i) = some p ∧ m'.read (addr + i) = some q ∧ r p q

end Sys2Proof.Machine
end

