-- ==== Sys2Proof/Certificates/Slice0/Obligations.lean ====
section
/-!
DEFINITION. The statements for the provers, each formalising rules of spec/. A response is stated as the state
`s.answer status value`: `CC` advanced by one and the response word of spec/30_encoding.md R91 on the response port, nothing
else changed; so an equation `exec i s = .next (… .answer …)` says the instruction's whole effect and its whole frame.
-/

open Sys2Proof Sys2Proof.Machine

/-! ### Encoding -/

/-- R92, R105, R111: decoding the command word of an instruction gives it back, with every operand at every value. -/
def Obligations.DecodeOfEncodeIsIdentity : Prop := ∀ i : Instr, decode (encode i) = some i

/-- R105, R111: a word that decodes is the command word of what it decodes to: no bit of a word is dropped. -/
def Obligations.EncodeOfDecodeIsIdentity : Prop := ∀ (w : Word64) (i : Instr), decode w = some i → encode i = w

/-- R106: a word is illegal exactly when its opcode is unassigned, a bit of a `zero` field is 1, or it is a predictor word of
mode 14 or 15; it then changes no state but `CC` and is answered with status 1; the all-zero and all-ones words are illegal. -/
def Obligations.IllegalExactlyByThreeChecks : Prop :=
  (∀ w : Word64, decode w = none ↔
    ¬ (WellFormed.opcodeAssigned w = true ∧ WellFormed.zerosClear w = true ∧ WellFormed.modeLegal w = true)) ∧
  (∀ (s : State) (w : Word64), s.ports = .command w → decode w = none → step s = .next (s.answer .illegal 0)) ∧
  decode 0 = none ∧ decode (BitVec.allOnes 64) = none

/-- R105 on one written-out word of each format (spec/95_test_vectors.md 2.8). -/
def Obligations.SampleWordsDecode : Prop :=
  decode 0x1000000000000010 = some (.rceInit 16) ∧
  decode 0x1100000000000180 = some (.rcePutbit true 128) ∧
  decode 0x1200000000000000 = some .rceFinish ∧
  decode 0x1900000000000080 = some (.rcdGetbit 128) ∧
  decode 0x2100001800ABCDEF = some (.bpwPutbits 0xABCDEF 24) ∧
  decode 0x2900001000000000 = some (.bprReadbits 16) ∧
  decode 0x30C00001FF102030 = some (.pred12 1 0xFF102030) ∧
  decode 0x4000000000030008 = some (.subg 8 3) ∧
  decode 0x420000000020F040 = some (.ctSetm 0x20 0xF0 0x40) ∧
  decode 0x4400000300100008 = some (.ctInv 8 16 3) ∧
  decode 0x5000000000000003 = some (.rdsr 3)

/-! ### The machine -/

/-- R90, R111: with a command presented, a step executes the instruction the word decodes to, from that very state. -/
def Obligations.StepRunsDecodedInstruction : Prop :=
  ∀ (s : State) (w : Word64) (i : Instr), s.ports = .command w → decode w = some i → step s = exec i s

/-- R295, R310, and the model's own choice of log 5: with no command presented a step changes nothing. -/
def Obligations.IdleStepChangesNothing : Prop :=
  ∀ s : State, (∀ w, s.ports ≠ .command w) → step s = .next s

/-- R53, R91: whatever its status, a command advances `CC` by one mod 2^32 and puts exactly one response word on the port: bits
63:40 zero, a status of 0 to 7, and the value 0 when the status is not 0. The parameters of R9 never change. -/
def Obligations.EveryCommandCountsAndAnswers : Prop :=
  ∀ (i : Instr) (s t : State), exec i s = .next t →
    t.cc.toNat = (s.cc.toNat + 1) % 2 ^ 32 ∧ t.cfg = s.cfg ∧
    ∃ w, t.ports = .response w ∧ w.extractLsb' 40 24 = 0 ∧ (statusField w).toNat ≤ 7 ∧
      (statusField w ≠ 0 → valueField w = 0)

/-- R56, R310, R311: reset leaves every register 0 and every unit IDLE with no error, whatever the state before; the model's reset
state is such a state. That no memory unit holds a value then is R63 as log 3 reads it and U5; that reset is one move from any
state is the model's choice of log 7. -/
def Obligations.ResetLeavesEveryRegisterZero : Prop :=
  (∀ s : State,
    let t := s.assertReset
    (t.rce.st = .idle ∧ t.rce.err = .ok ∧ t.rce.range = 0 ∧ t.rce.low = 0 ∧ t.rce.held = false ∧ t.rce.outst = 0 ∧
      t.rce.pbyte = 0 ∧ t.rce.pcnt = 0 ∧ t.rce.bitpos = 0 ∧ t.rce.olen = 0 ∧ t.rce.ocap = 0) ∧
    (t.rcd.st = .idle ∧ t.rcd.err = .ok ∧ t.rcd.range = 0 ∧ t.rcd.value = 0 ∧ t.rcd.bitpos = 0 ∧ t.rcd.ilen = 0) ∧
    (t.bpw.st = .idle ∧ t.bpw.err = .ok ∧ t.bpw.acc = 0 ∧ t.bpw.pend = 0 ∧ t.bpw.olen = 0 ∧ t.bpw.ocap = 0) ∧
    (t.bpr.st = .idle ∧ t.bpr.err = .ok ∧ t.bpr.acc = 0 ∧ t.bpr.cnt = 0 ∧ t.bpr.pos = 0 ∧ t.bpr.ilen = 0) ∧
    t.mult = 0 ∧ t.cc = 0 ∧
    ∀ a, t.rce.obuf.read a = none ∧ t.rcd.ibuf.read a = none ∧ t.bpw.obuf.read a = none ∧
      t.bpr.ibuf.read a = none ∧ t.pmem.read a = none) ∧
  State.reset = State.reset.assertReset

/-! ### Invariants -/

/-- R31, R36, R41, R46 and the canonical memories hold after reset, for every legal pair of sizes; the model's reset state has
the default sizes of R9 (the model's choice of log 2). -/
def Obligations.ResetMeetsInvariant : Prop :=
  (∀ c : Config, c.Legal → (State.resetWith c).Inv) ∧
  State.reset.cfg.bufBytes = 65536 ∧ State.reset.cfg.pmemWords = 65536

/-- R31, R36, R41, R46: every step keeps the register invariants of the four units, the canonical form of the five memories
inside their spaces, the codes each ERR may hold, and the form of the response. -/
def Obligations.StepKeepsInvariant : Prop := ∀ s t : State, s.Inv → step s = .next t → t.Inv

/-- R63, R72: from a state that meets the invariant a step never refuses, and the only fault it can meet is the read of a memory
unit inside its space that nothing has written. -/
def Obligations.StepStopsOnlyOnUnwrittenMemory : Prop :=
  ∀ s : State, s.Inv →
    (∀ r, step s ≠ .refused r) ∧
    ∀ f, step s = .fault f →
      (∃ a, f = .unwrittenRead .rcdIbuf a ∧ a < s.cfg.bufBytes ∧ s.rcd.ibuf.read a = none) ∨
      (∃ a, f = .unwrittenRead .bprIbuf a ∧ a < s.cfg.bufBytes ∧ s.bpr.ibuf.read a = none) ∨
      (∃ a, f = .unwrittenRead .pmem a ∧ a < s.cfg.pmemWords ∧ s.pmem.read a = none)

/-- R64, R310: every move of the host (log 8) keeps the invariant and the sizes, so the core may rely on it after any of them. -/
def Obligations.HostMovesKeepInvariant : Prop :=
  ∀ (h h' : Hosted) (m : HostMove), h.core.Inv → hostMove h m = some h' → h'.core.Inv ∧ h'.core.cfg = h.core.cfg

/-- R31, R36, R41, R127, R322: in every state core and host reach from reset by legal moves (log 8), on a core of any legal sizes,
the invariant holds and the core neither refuses nor meets a fault other than a read of memory nothing has written. -/
def Obligations.ReachableStatesAreSafe : Prop :=
  ∀ (c : Config) (h : Hosted), c.Legal → Reachable c h →
    h.core.Inv ∧ h.core.cfg = c ∧ (∀ r, step h.core ≠ .refused r) ∧ ∀ f, step h.core = .fault f → f.isUnwrittenRead = true

/-! ### Frames and independence -/

/-- R3, R48, R60: a command writes nothing outside its own unit: no register and no memory of another unit; a predictor and
RDSR write nothing at all but `CC` and the response. -/
def Obligations.CommandWritesOnlyItsUnit : Prop :=
  ∀ (i : Instr) (s t : State), exec i s = .next t → writesOnly s t (unitOf i)

/-- R3: a command reads nothing outside its own unit: from two states that agree on it (and on the sizes), the response is the
same and so is the unit afterwards; the same fault stops both. RDSR reads the registers and no memory: the two states may differ
in every buffer and in PMEM. -/
def Obligations.CommandReadsOnlyItsUnit : Prop :=
  ∀ (i : Instr) (s s' : State), s.cfg = s'.cfg → agreesOn s s' (unitOf i) →
    (∀ t, exec i s = .next t → ∃ t', exec i s' = .next t' ∧ t'.ports = t.ports ∧ agreesOn t t' (unitOf i)) ∧
    ∀ f, exec i s = .fault f → exec i s' = .fault f

/-- R60, R61, R74: the core writes an output buffer only by appending: every byte outside `old OLEN .. new OLEN − 1` is as before;
it never writes an input buffer; and only SUBG, ADDG, CT.FWD (in `addr ..`) and CT.INV (in `dst ..`) write PMEM, inside
the `count` words of their range. -/
def Obligations.MemoriesChangeOnlyWhereStored : Prop :=
  ∀ (i : Instr) (s t : State), exec i s = .next t →
    (∀ a, ¬ (s.rce.olen.toNat ≤ a ∧ a < t.rce.olen.toNat) → t.rce.obuf.read a = s.rce.obuf.read a) ∧
    (∀ a, ¬ (s.bpw.olen.toNat ≤ a ∧ a < t.bpw.olen.toNat) → t.bpw.obuf.read a = s.bpw.obuf.read a) ∧
    t.rcd.ibuf = s.rcd.ibuf ∧ t.bpr.ibuf = s.bpr.ibuf ∧
    ∀ a, t.pmem.read a ≠ s.pmem.read a →
      ∃ base count, (i = .subg base count ∨ i = .addg base count ∨ i = .ctFwd base count ∨
        ∃ src, i = .ctInv src base count) ∧ base.toNat ≤ a ∧ a < base.toNat + count.toNat

/-- R21: `U.ST` is written only by the unit's INIT, FINISH and ABORT. R22: once non-zero, `U.ERR` is changed only by the unit's
INIT or ABORT. R30, R35, R40, R45, R47: the budget, the length and the tuple are written only by INIT and CT.SETM. -/
def Obligations.ControlRegistersWrittenOnlyByTheirCommands : Prop :=
  ∀ (i : Instr) (s t : State), exec i s = .next t →
    (t.rce.st ≠ s.rce.st → (∃ cap, i = .rceInit cap) ∨ i = .rceFinish ∨ i = .rceAbort) ∧
    (t.rcd.st ≠ s.rcd.st → ∃ len, i = .rcdInit len) ∧
    (t.bpw.st ≠ s.bpw.st → (∃ cap, i = .bpwInit cap) ∨ i = .bpwFinish ∨ i = .bpwAbort) ∧
    (t.bpr.st ≠ s.bpr.st → ∃ len, i = .bprInit len) ∧
    (s.rce.err ≠ .ok → t.rce.err ≠ s.rce.err → (∃ cap, i = .rceInit cap) ∨ i = .rceAbort) ∧
    (s.rcd.err ≠ .ok → t.rcd.err ≠ s.rcd.err → ∃ len, i = .rcdInit len) ∧
    (s.bpw.err ≠ .ok → t.bpw.err ≠ s.bpw.err → (∃ cap, i = .bpwInit cap) ∨ i = .bpwAbort) ∧
    (s.bpr.err ≠ .ok → t.bpr.err ≠ s.bpr.err → ∃ len, i = .bprInit len) ∧
    (t.rce.ocap ≠ s.rce.ocap → ∃ cap, i = .rceInit cap) ∧ (t.rcd.ilen ≠ s.rcd.ilen → ∃ len, i = .rcdInit len) ∧
    (t.bpw.ocap ≠ s.bpw.ocap → ∃ cap, i = .bpwInit cap) ∧ (t.bpr.ilen ≠ s.bpr.ilen → ∃ len, i = .bprInit len) ∧
    (t.mult ≠ s.mult → ∃ g2r g2b r2b, i = .ctSetm g2r g2b r2b)

/-- R61, R143, R172: a decoder reads no byte at or above its length: from two states whose decoders differ only in bytes of the
input buffer at or above the length (the operand, for INIT; `ILEN`, for a data command), RCD.INIT, RCD.GETBIT and BPR.READBITS
answer alike, and the same fault stops both. -/
def Obligations.DecodersReadOnlyBelowLength : Prop :=
  (∀ (s : State) (m : Memory 8) (prob : BitVec 8), (∀ a, a < s.rcd.ilen.toNat → m.read a = s.rcd.ibuf.read a) →
    (∀ t, exec (.rcdGetbit prob) s = .next t →
      exec (.rcdGetbit prob) (s.setRcd { s.rcd with ibuf := m }) = .next (t.setRcd { t.rcd with ibuf := m })) ∧
    ∀ f, exec (.rcdGetbit prob) s = .fault f →
      exec (.rcdGetbit prob) (s.setRcd { s.rcd with ibuf := m }) = .fault f) ∧
  (∀ (s : State) (m : Memory 8) (len : BitVec 32), (∀ a, a < len.toNat → m.read a = s.rcd.ibuf.read a) →
    (∀ t, exec (.rcdInit len) s = .next t →
      exec (.rcdInit len) (s.setRcd { s.rcd with ibuf := m }) = .next (t.setRcd { t.rcd with ibuf := m })) ∧
    ∀ f, exec (.rcdInit len) s = .fault f →
      exec (.rcdInit len) (s.setRcd { s.rcd with ibuf := m }) = .fault f) ∧
  ∀ (s : State) (m : Memory 8) (nbits : BitVec 8), (∀ a, a < s.bpr.ilen.toNat → m.read a = s.bpr.ibuf.read a) →
    (∀ t, exec (.bprReadbits nbits) s = .next t →
      exec (.bprReadbits nbits) (s.setBpr { s.bpr with ibuf := m }) = .next (t.setBpr { t.bpr with ibuf := m })) ∧
    ∀ f, exec (.bprReadbits nbits) s = .fault f →
      exec (.bprReadbits nbits) (s.setBpr { s.bpr with ibuf := m }) = .fault f

/-- R80, R293, with the model's choice of log 10 that one core steps at a time: a step of one core of a system, and a move of the
host at one core, are that core's own and leave every other core as it was. A command goes to the core whose command port the
host writes: issued at core k, it is what core k executes next. -/
def Obligations.CoresShareNothing : Prop :=
  ∀ (k : Nat) (cores : List Hosted),
    (∀ cores', coreStep k cores = some (.next cores') →
      (∃ h t, cores[k]? = some h ∧ step h.core = .next t ∧ cores'[k]? = some { h with core := t }) ∧
      cores'.length = cores.length ∧ ∀ j, j ≠ k → cores'[j]? = cores[j]?) ∧
    (∀ m cores', coreMove k m cores = some cores' →
      (∃ h h', cores[k]? = some h ∧ hostMove h m = some h' ∧ cores'[k]? = some h') ∧
      cores'.length = cores.length ∧ ∀ j, j ≠ k → cores'[j]? = cores[j]?) ∧
    ∀ (h h' : Hosted) (w : Word64) (i : Instr) (t : State),
      cores[k]? = some h → hostMove h (.issue w) = some h' → decode w = some i → exec i (present h.core w) = .next t →
      ∃ cores', coreMove k (.issue w) cores = some cores' ∧
        coreStep k cores' = some (.next (cores'.set k { h' with core := t }))

/-! ### Errors -/

/-- R281, R280: a command reports the first failing check in the order of R281 and no other; it then answers that code with value
0, and of all writes only those of R280 take effect. Decode comes first: an illegal word is answered ILLEGAL and writes nothing. -/
def Obligations.FirstFailingCheckIsReported : Prop :=
  (∀ (s : State) (w : Word64), s.ports = .command w → decode w = none → step s = .next (s.answer .illegal 0)) ∧
  ∀ (i : Instr) (s : State) (e : Status), s.Inv → firstError s i = some e →
    exec i s = .next ((failureWrites s e i).answer e 0)

/-- R281, R91: when no check fails a command does not report an error: it is answered OK, or the model stops at memory nothing
has written. -/
def Obligations.NoFailingCheckMeansOk : Prop :=
  ∀ (i : Instr) (s : State), s.Inv → firstError s i = none →
    (∃ t, exec i s = .next t ∧ answeredWith t .ok) ∨ ∃ f, exec i s = .fault f ∧ f.isUnwrittenRead = true

/-- R280, in every state, reachable or not: a command that is answered with an error leaves everything unchanged but the writes
R280 lists for it. -/
def Obligations.FailingCommandsWriteOnlyTheListed : Prop :=
  ∀ (i : Instr) (s t : State) (e : Status), e ≠ .ok → exec i s = .next t → answeredWith t e →
    t = (failureWrites s e i).answer e 0

/-- R272: the status of a response is OK or one of the command's row in the table; and the codes the four ERR registers hold
after a command are those of the last line of R272, if the registers held such codes before. -/
def Obligations.StatusesAreThoseOfTheTable : Prop :=
  ∀ (i : Instr) (s t : State), exec i s = .next t →
    (∃ e, answeredWith t e ∧ (e = .ok ∨ e ∈ statusRow s i)) ∧
    (s.rce.err ∈ [.ok, .operand, .capacity] → t.rce.err ∈ [.ok, .operand, .capacity]) ∧
    (s.rcd.err ∈ [.ok, .operand, .eos, .corrupt] → t.rcd.err ∈ [.ok, .operand, .eos, .corrupt]) ∧
    (s.bpw.err ∈ [.ok, .operand, .capacity] → t.bpw.err ∈ [.ok, .operand, .capacity]) ∧
    (s.bpr.err ∈ [.ok, .operand, .eos] → t.bpr.err ∈ [.ok, .operand, .eos])

/-- R276, R274: which command is legal in which lifecycle state, the state after an OK response, and after a failing FINISH or a
failing INIT of a decoder. A command that is not legal changes nothing but `CC` and answers STATE; one that is legal never
answers STATE. -/
def Obligations.LifecycleTableHolds : Prop :=
  ∀ (i : Instr) (s t : State), s.Inv → exec i s = .next t →
    let illegal := match i with
      | .rceInit _ => s.rce.st = .active
      | .rcePutbit _ _ | .rceFinish | .rceAbort => s.rce.st = .idle
      | .bpwInit _ => s.bpw.st = .active
      | .bpwPutbits _ _ | .bpwFinish | .bpwAbort => s.bpw.st = .idle
      | .rcdGetbit _ => s.rcd.st = .idle
      | .bprReadbits _ => s.bpr.st = .idle
      | _ => False
    (illegal → t = s.answer .state 0) ∧ (answeredWith t .state → illegal) ∧
    (answeredWith t .ok → match i with
      | .rceInit _ | .rcePutbit _ _ => t.rce.st = .active
      | .rceFinish | .rceAbort => t.rce.st = .idle
      | .bpwInit _ | .bpwPutbits _ _ => t.bpw.st = .active
      | .bpwFinish | .bpwAbort => t.bpw.st = .idle
      | .rcdInit _ | .rcdGetbit _ => t.rcd.st = .active
      | .bprInit _ | .bprReadbits _ => t.bpr.st = .active
      | _ => True) ∧
    (¬ illegal → ¬ answeredWith t .ok → match i with
      | .rceFinish => t.rce.st = .idle
      | .bpwFinish => t.bpw.st = .idle
      | .rcdInit _ => t.rcd.st = .idle
      | .bprInit _ => t.bpr.st = .idle
      | _ => True)

/-- R278: in an open session with a stored error every data command, whatever its operands, changes nothing but `CC` and answers
the stored code; FINISH closes the session, sets the length to 0, keeps the code and answers it. -/
def Obligations.StoredErrorIsAnswered : Prop :=
  ∀ s : State,
    (s.rce.st = .active → s.rce.err ≠ .ok →
      (∀ bit prob, exec (.rcePutbit bit prob) s = .next (s.answer s.rce.err 0)) ∧
      exec .rceFinish s = .next ((s.setRce { s.rce with st := .idle, olen := 0 }).answer s.rce.err 0)) ∧
    (s.rcd.st = .active → s.rcd.err ≠ .ok → ∀ prob, exec (.rcdGetbit prob) s = .next (s.answer s.rcd.err 0)) ∧
    (s.bpw.st = .active → s.bpw.err ≠ .ok →
      (∀ value nbits, exec (.bpwPutbits value nbits) s = .next (s.answer s.bpw.err 0)) ∧
      exec .bpwFinish s = .next ((s.setBpw { s.bpw with st := .idle, olen := 0 }).answer s.bpw.err 0)) ∧
    (s.bpr.st = .active → s.bpr.err ≠ .ok → ∀ nbits, exec (.bprReadbits nbits) s = .next (s.answer s.bpr.err 0))

/-! ### The range-coder encoder -/

/-- R130: RCE.INIT opens a session in IDLE with a budget of 1 to BUF_BYTES bytes. -/
def Obligations.RceInitResult : Prop :=
  ∀ (cap : BitVec 32) (s : State),
    decode ((0x10 : BitVec 8) ++ (0 : BitVec 24) ++ cap) = some (.rceInit cap) ∧
    (s.rce.st = .active → exec (.rceInit cap) s = .next (s.answer .state 0)) ∧
    (s.rce.st = .idle → cap.toNat = 0 ∨ s.cfg.bufBytes < cap.toNat →
      exec (.rceInit cap) s = .next ((s.setRce { s.rce with err := .operand }).answer .operand 0)) ∧
    (s.rce.st = .idle → 1 ≤ cap.toNat → cap.toNat ≤ s.cfg.bufBytes →
      exec (.rceInit cap) s = .next ((s.setRce
        { s.rce with
          range := 255, low := 0, held := false, outst := 0, pbyte := 0, pcnt := 0, bitpos := 0, olen := 0, ocap := cap,
          err := .ok, st := .active }).answer .ok 0))

/-- R122: the split is `1 + (((range − 1) · prob) >> 8)` and leaves both sub-intervals non-empty, with the rule's examples. -/
def Obligations.SplitLeavesBothNonEmpty : Prop :=
  (∀ range prob : Nat, 128 ≤ range → range ≤ 255 → 1 ≤ prob → prob ≤ 255 →
    split range prob = 1 + (((range - 1) * prob) >>> 8) ∧ (range - 1) * prob ≤ 64770 ∧
    1 ≤ split range prob ∧ split range prob ≤ range - 1) ∧
  split 255 128 = 128 ∧ split 254 128 = 127 ∧ split 255 1 = 1 ∧ split 255 255 = 254 ∧ split 128 255 = 127 ∧
  split 128 1 = 1

/-- R131 with R123 to R129: an accepted PUTBIT chooses the sub-interval, lets a carry reach the bits kept back, shifts the least
number of times that brings the width back to 128..255, sends the bits that leave the window out, and writes nothing else; a
refused one writes what R131 says. -/
def Obligations.RcePutbitResult : Prop :=
  ∀ (bit : Bool) (prob : BitVec 8) (s : State),
    decode ((0x11 : BitVec 8) ++ (0 : BitVec 47) ++ BitVec.ofBool bit ++ prob) = some (.rcePutbit bit prob) ∧
    (s.rce.st = .idle → exec (.rcePutbit bit prob) s = .next (s.answer .state 0)) ∧
    (s.rce.st = .active → s.rce.err ≠ .ok → exec (.rcePutbit bit prob) s = .next (s.answer s.rce.err 0)) ∧
    (s.rce.st = .active → s.rce.err = .ok → prob = 0 →
      exec (.rcePutbit bit prob) s = .next ((s.setRce { s.rce with err := .operand }).answer .operand 0)) ∧
    (s.Inv → s.rce.st = .active → s.rce.err = .ok → prob ≠ 0 →
      let sp := 1 + (s.rce.range.toNat - 1) * prob.toNat / 256
      let r := if bit then s.rce.range.toNat - sp else sp
      let sum := if bit then s.rce.low.toNat + sp else s.rce.low.toNat
      ∃ n, n ≤ 7 ∧ 128 ≤ r * 2 ^ n ∧ r * 2 ^ n ≤ 255 ∧
        if s.rce.bitpos.toNat + n + 8 ≤ 8 * s.rce.ocap.toNat then
          ∃ u : Rce, exec (.rcePutbit bit prob) s = .next ((s.setRce u).answer .ok 0) ∧
            u.range.toNat = r * 2 ^ n ∧ u.low.toNat = sum * 2 ^ n % 256 ∧ u.bitpos.toNat = s.rce.bitpos.toNat + n ∧
            outgoing u = (topBits (BitVec.ofNat 8 sum) n).foldl leaves
              (if 256 ≤ sum then carried (outgoing s.rce) else outgoing s.rce) ∧
            u.st = .active ∧ u.err = .ok ∧ u.ocap = s.rce.ocap ∧ s.rce.olen.toNat ≤ u.olen.toNat ∧
            ∀ a, ¬ (s.rce.olen.toNat ≤ a ∧ a < u.olen.toNat) → u.obuf.read a = s.rce.obuf.read a
        else exec (.rcePutbit bit prob) s = .next ((s.setRce { s.rce with err := .capacity }).answer .capacity 0))

/-- R134: a successful FINISH closes the session and answers the length ceil((BITPOS + 8)/8); the stream spells the lower end of
the interval (the bits gone, then the window), with 0 bits of padding; RANGE, LOW, BITPOS and OCAP keep their values. -/
def Obligations.RceFinishResult : Prop :=
  ∀ s : State,
    decode ((0x12 : BitVec 8) ++ (0 : BitVec 56)) = some .rceFinish ∧
    (s.rce.st = .idle → exec .rceFinish s = .next (s.answer .state 0)) ∧
    (s.rce.st = .active → s.rce.err ≠ .ok →
      exec .rceFinish s = .next ((s.setRce { s.rce with st := .idle, olen := 0 }).answer s.rce.err 0)) ∧
    (s.Inv → s.rce.st = .active → s.rce.err = .ok →
      ∃ u : Rce, exec .rceFinish s = .next ((s.setRce u).answer .ok u.olen) ∧
        u.olen.toNat = (s.rce.bitpos.toNat + 8 + 7) / 8 ∧
        spelledMsb u.obuf u.olen.toNat = codeValue s.rce * 2 ^ (8 * u.olen.toNat - (s.rce.bitpos.toNat + 8)) ∧
        storedBelow u.obuf u.olen.toNat ∧
        u.st = .idle ∧ u.err = .ok ∧ u.held = false ∧ u.outst = 0 ∧ u.pbyte = 0 ∧ u.pcnt = 0 ∧
        u.range = s.rce.range ∧ u.low = s.rce.low ∧ u.bitpos = s.rce.bitpos ∧ u.ocap = s.rce.ocap ∧
        s.rce.olen.toNat ≤ u.olen.toNat ∧
        ∀ a, ¬ (s.rce.olen.toNat ≤ a ∧ a < u.olen.toNat) → u.obuf.read a = s.rce.obuf.read a)

/-- R135: ABORT closes an open session, in error or not, clears ERR and the length, and writes nothing else. -/
def Obligations.RceAbortResult : Prop :=
  ∀ s : State,
    decode ((0x13 : BitVec 8) ++ (0 : BitVec 56)) = some .rceAbort ∧
    (s.rce.st = .idle → exec .rceAbort s = .next (s.answer .state 0)) ∧
    (s.rce.st = .active →
      exec .rceAbort s = .next ((s.setRce { s.rce with st := .idle, err := .ok, olen := 0 }).answer .ok 0))

/-- R136, R146: a session whose symbols fit the budget runs OK to its end, from every state that meets the invariant and whatever
the budget; the stream spells exactly the lower end of the final interval, the length depends on the symbols alone, and the
stream is below 255/256, so its first byte is never 0xFF. -/
def Obligations.FinishedStreamSpellsLowerEnd : Prop :=
  ∀ (s : State) (cap : BitVec 32) (syms : List (Bool × BitVec 8)),
    s.Inv → s.rce.st = .idle → cap.toNat ≤ s.cfg.bufBytes → (∀ y ∈ syms, y.2 ≠ 0) →
    (coded syms).shifts + 8 ≤ 8 * cap.toNat →
    ∃ t vs, runOk (encodeRun cap syms) s = some (t, vs) ∧
      vs = List.replicate (syms.length + 1) 0 ++ [t.rce.olen] ∧
      t.rce.olen.toNat = ((coded syms).shifts + 8 + 7) / 8 ∧
      spelledMsb t.rce.obuf t.rce.olen.toNat =
        (coded syms).low * 2 ^ (8 * t.rce.olen.toNat - ((coded syms).shifts + 8)) ∧
      t.rce.range.toNat = (coded syms).range ∧ t.rce.bitpos.toNat = (coded syms).shifts ∧
      (coded syms).low + (coded syms).range ≤ 255 * 2 ^ (coded syms).shifts ∧ byteAt t.rce.obuf 0 < 255

/-- R129: a session whose probabilities are legal runs OK to its end exactly when its finished length fits the budget. -/
def Obligations.BudgetIsOnTheFinishedStream : Prop :=
  ∀ (s : State) (cap : BitVec 32) (syms : List (Bool × BitVec 8)),
    s.Inv → s.rce.st = .idle → 1 ≤ cap.toNat → cap.toNat ≤ s.cfg.bufBytes → (∀ y ∈ syms, y.2 ≠ 0) →
    ((runOk (encodeRun cap syms) s).isSome ↔ ((coded syms).shifts + 8 + 7) / 8 ≤ cap.toNat)

/-! ### The range-coder decoder -/

/-- R140: RCD.INIT ends any open session; it opens one when the length is 1 to BUF_BYTES and the first byte is not 0xFF. -/
def Obligations.RcdInitResult : Prop :=
  ∀ (len : BitVec 32) (s : State),
    decode ((0x18 : BitVec 8) ++ (0 : BitVec 24) ++ len) = some (.rcdInit len) ∧
    (s.cfg.bufBytes < len.toNat →
      exec (.rcdInit len) s = .next ((s.setRcd { s.rcd with st := .idle, err := .operand }).answer .operand 0)) ∧
    (len = 0 → exec (.rcdInit len) s = .next ((s.setRcd { s.rcd with st := .idle, err := .eos }).answer .eos 0)) ∧
    (1 ≤ len.toNat → len.toNat ≤ s.cfg.bufBytes → s.rcd.ibuf.read 0 = some 0xFF →
      exec (.rcdInit len) s = .next ((s.setRcd { s.rcd with st := .idle, err := .corrupt }).answer .corrupt 0)) ∧
    ∀ v : Byte, 1 ≤ len.toNat → len.toNat ≤ s.cfg.bufBytes → s.rcd.ibuf.read 0 = some v → v ≠ 0xFF →
      exec (.rcdInit len) s = .next ((s.setRcd
        { s.rcd with ilen := len, range := 255, value := v, bitpos := 8, err := .ok, st := .active }).answer .ok 0)

/-- R142, R143: GETBIT decides the bit by VALUE ≥ split, shifts VALUE and RANGE the least number of times that brings RANGE back to
128..255, bringing in that many stream bits, and refuses with EOS, changing only ERR, when they pass the length. -/
def Obligations.RcdGetbitResult : Prop :=
  ∀ (prob : BitVec 8) (s : State),
    decode ((0x19 : BitVec 8) ++ (0 : BitVec 48) ++ prob) = some (.rcdGetbit prob) ∧
    (s.rcd.st = .idle → exec (.rcdGetbit prob) s = .next (s.answer .state 0)) ∧
    (s.rcd.st = .active → s.rcd.err ≠ .ok → exec (.rcdGetbit prob) s = .next (s.answer s.rcd.err 0)) ∧
    (s.rcd.st = .active → s.rcd.err = .ok → prob = 0 →
      exec (.rcdGetbit prob) s = .next ((s.setRcd { s.rcd with err := .operand }).answer .operand 0)) ∧
    (s.Inv → s.rcd.st = .active → s.rcd.err = .ok → prob ≠ 0 →
      let sp := 1 + (s.rcd.range.toNat - 1) * prob.toNat / 256
      let one := sp ≤ s.rcd.value.toNat
      let v := if one then s.rcd.value.toNat - sp else s.rcd.value.toNat
      let r := if one then s.rcd.range.toNat - sp else sp
      ∃ n, n ≤ 7 ∧ 128 ≤ r * 2 ^ n ∧ r * 2 ^ n ≤ 255 ∧
        if s.rcd.bitpos.toNat + n ≤ 8 * s.rcd.ilen.toNat then
          (∀ a, s.rcd.bitpos.toNat / 8 ≤ a → 8 * a < s.rcd.bitpos.toNat + n → (s.rcd.ibuf.read a).isSome) →
            v * 2 ^ n + streamBits s.rcd.ibuf s.rcd.bitpos.toNat n < r * 2 ^ n ∧
            exec (.rcdGetbit prob) s = .next ((s.setRcd
              { s.rcd with
                value := BitVec.ofNat 8 (v * 2 ^ n + streamBits s.rcd.ibuf s.rcd.bitpos.toNat n)
                range := BitVec.ofNat 8 (r * 2 ^ n)
                bitpos := s.rcd.bitpos + BitVec.ofNat 32 n }).answer .ok (if one then 1 else 0))
        else exec (.rcdGetbit prob) s = .next ((s.setRcd { s.rcd with err := .eos }).answer .eos 0))

/-- R145: when RCE.INIT, the PUTBITs and RCE.FINISH all answer OK, a decoder given the finished bytes and the same probabilities
answers OK throughout and returns the same bits; after the k-th symbol both have the same RANGE; at the end the decoder has
consumed `RCE.BITPOS + 8` bits. -/
def Obligations.RangeCoderRoundTrip : Prop :=
  ∀ (s t d : State) (cap : BitVec 32) (syms : List (Bool × BitVec 8)) (vs : List Reg32),
    s.Inv → runOk (encodeRun cap syms) s = some (t, vs) →
    d.Inv → t.rce.olen.toNat ≤ d.cfg.bufBytes →
    (∀ a, a < t.rce.olen.toNat → d.rcd.ibuf.read a = t.rce.obuf.read a) →
    (∃ d', runOk (decodeRun t.rce.olen syms) d = some (d', 0 :: syms.map fun y => if y.1 then 1 else 0) ∧
      d'.rcd.range = t.rce.range ∧ d'.rcd.bitpos.toNat = t.rce.bitpos.toNat + 8) ∧
    ∀ k, k ≤ syms.length → ∃ e f ve vf,
      runOk (.rceInit cap :: (syms.take k).map fun y => .rcePutbit y.1 y.2) s = some (e, ve) ∧
      runOk (decodeRun t.rce.olen (syms.take k)) d = some (f, vf) ∧ f.rcd.range = e.rce.range

/-! ### The bit-packer writer -/

/-- R161: BPW.INIT opens a session in IDLE with a budget of at most BUF_BYTES bytes. -/
def Obligations.BpwInitResult : Prop :=
  ∀ (cap : BitVec 32) (s : State),
    decode ((0x20 : BitVec 8) ++ (0 : BitVec 24) ++ cap) = some (.bpwInit cap) ∧
    (s.bpw.st = .active → exec (.bpwInit cap) s = .next (s.answer .state 0)) ∧
    (s.bpw.st = .idle → s.cfg.bufBytes < cap.toNat →
      exec (.bpwInit cap) s = .next ((s.setBpw { s.bpw with err := .operand }).answer .operand 0)) ∧
    (s.bpw.st = .idle → cap.toNat ≤ s.cfg.bufBytes →
      exec (.bpwInit cap) s = .next ((s.setBpw
        { s.bpw with acc := 0, pend := 0, olen := 0, ocap := cap, err := .ok, st := .active }).answer .ok 0))

/-- R162, R163: an accepted PUTBITS adds the low `nbits` bits of `value`, LSB first, after the bits written so far, moves whole
bytes to the buffer and keeps fewer than 8 bits; a refused one writes what R163 says. -/
def Obligations.BpwPutbitsResult : Prop :=
  ∀ (value : BitVec 32) (nbits : BitVec 8) (s : State),
    decode ((0x21 : BitVec 8) ++ (0 : BitVec 16) ++ nbits ++ value) = some (.bpwPutbits value nbits) ∧
    (s.bpw.st = .idle → exec (.bpwPutbits value nbits) s = .next (s.answer .state 0)) ∧
    (s.bpw.st = .active → s.bpw.err ≠ .ok → exec (.bpwPutbits value nbits) s = .next (s.answer s.bpw.err 0)) ∧
    (s.bpw.st = .active → s.bpw.err = .ok → 24 < nbits.toNat →
      exec (.bpwPutbits value nbits) s = .next ((s.setBpw { s.bpw with err := .operand }).answer .operand 0)) ∧
    (s.bpw.st = .active → s.bpw.err = .ok → nbits.toNat ≤ 24 →
      8 * s.bpw.ocap.toNat < 8 * s.bpw.olen.toNat + s.bpw.pend.toNat + nbits.toNat →
      exec (.bpwPutbits value nbits) s = .next ((s.setBpw { s.bpw with err := .capacity }).answer .capacity 0)) ∧
    (s.Inv → s.bpw.st = .active → s.bpw.err = .ok → nbits.toNat ≤ 24 →
      8 * s.bpw.olen.toNat + s.bpw.pend.toNat + nbits.toNat ≤ 8 * s.bpw.ocap.toNat →
      ∃ u : Bpw, exec (.bpwPutbits value nbits) s = .next ((s.setBpw u).answer .ok 0) ∧
        packedValue u = packedValue s.bpw +
          value.toNat % 2 ^ nbits.toNat * 2 ^ (8 * s.bpw.olen.toNat + s.bpw.pend.toNat) ∧
        u.olen.toNat = s.bpw.olen.toNat + (s.bpw.pend.toNat + nbits.toNat) / 8 ∧
        u.pend.toNat = (s.bpw.pend.toNat + nbits.toNat) % 8 ∧ u.acc.toNat < 2 ^ u.pend.toNat ∧
        storedBelow u.obuf u.olen.toNat ∧ u.st = .active ∧ u.err = .ok ∧ u.ocap = s.bpw.ocap ∧
        ∀ a, ¬ (s.bpw.olen.toNat ≤ a ∧ a < u.olen.toNat) → u.obuf.read a = s.bpw.obuf.read a)

/-- R165: a successful FINISH closes the session and answers the length ceil(total bits / 8); the stream spells the bits written,
the first in bit 0 of byte 0, with zero bits of padding. -/
def Obligations.BpwFinishResult : Prop :=
  ∀ s : State,
    decode ((0x22 : BitVec 8) ++ (0 : BitVec 56)) = some .bpwFinish ∧
    (s.bpw.st = .idle → exec .bpwFinish s = .next (s.answer .state 0)) ∧
    (s.bpw.st = .active → s.bpw.err ≠ .ok →
      exec .bpwFinish s = .next ((s.setBpw { s.bpw with st := .idle, olen := 0 }).answer s.bpw.err 0)) ∧
    (s.Inv → s.bpw.st = .active → s.bpw.err = .ok →
      ∃ u : Bpw, exec .bpwFinish s = .next ((s.setBpw u).answer .ok u.olen) ∧
        u.olen.toNat = (8 * s.bpw.olen.toNat + s.bpw.pend.toNat + 7) / 8 ∧
        spelledLsb u.obuf 0 u.olen.toNat = packedValue s.bpw ∧ storedBelow u.obuf u.olen.toNat ∧
        u.st = .idle ∧ u.err = .ok ∧ u.acc = 0 ∧ u.pend = 0 ∧ u.ocap = s.bpw.ocap ∧
        s.bpw.olen.toNat ≤ u.olen.toNat ∧
        ∀ a, ¬ (s.bpw.olen.toNat ≤ a ∧ a < u.olen.toNat) → u.obuf.read a = s.bpw.obuf.read a)

/-- R166: ABORT closes an open session, in error or not, clears ERR and the length, and writes nothing else. -/
def Obligations.BpwAbortResult : Prop :=
  ∀ s : State,
    decode ((0x23 : BitVec 8) ++ (0 : BitVec 56)) = some .bpwAbort ∧
    (s.bpw.st = .idle → exec .bpwAbort s = .next (s.answer .state 0)) ∧
    (s.bpw.st = .active →
      exec .bpwAbort s = .next ((s.setBpw { s.bpw with st := .idle, err := .ok, olen := 0 }).answer .ok 0))

/-- R164, R110: the two commands that BPW.PUT32 expands to write the 32 bits of the value, low half first. -/
def Obligations.WideValueIsWrittenInHalves : Prop :=
  ∀ (v : BitVec 32) (s : State), s.Inv → s.bpw.st = .active → s.bpw.err = .ok →
    8 * s.bpw.olen.toNat + s.bpw.pend.toNat + 32 ≤ 8 * s.bpw.ocap.toNat →
    ∃ is t, expand (.bpwPut32 v) = some is ∧ is = [.bpwPutbits (v &&& 0xFFFF) 16, .bpwPutbits (v >>> 16) 16] ∧
      runOk is s = some (t, [0, 0]) ∧
      packedValue t.bpw = packedValue s.bpw + v.toNat * 2 ^ (8 * s.bpw.olen.toNat + s.bpw.pend.toNat)

/-! ### The bit-packer reader -/

/-- R170: BPR.INIT ends any open session and opens one when the length is at most BUF_BYTES. -/
def Obligations.BprInitResult : Prop :=
  ∀ (len : BitVec 32) (s : State),
    decode ((0x28 : BitVec 8) ++ (0 : BitVec 24) ++ len) = some (.bprInit len) ∧
    (s.cfg.bufBytes < len.toNat →
      exec (.bprInit len) s = .next ((s.setBpr { s.bpr with st := .idle, err := .operand }).answer .operand 0)) ∧
    (len.toNat ≤ s.cfg.bufBytes →
      exec (.bprInit len) s = .next ((s.setBpr
        { s.bpr with ilen := len, acc := 0, cnt := 0, pos := 0, err := .ok, st := .active }).answer .ok 0))

/-- R171, R172: an accepted READBITS takes as few whole bytes as it needs above the bits already held and returns the next `nbits`
bits, the first in bit 0; a refused one writes what R171 says and takes no bit. -/
def Obligations.BprReadbitsResult : Prop :=
  ∀ (nbits : BitVec 8) (s : State),
    decode ((0x29 : BitVec 8) ++ (0 : BitVec 16) ++ nbits ++ (0 : BitVec 32)) = some (.bprReadbits nbits) ∧
    (s.bpr.st = .idle → exec (.bprReadbits nbits) s = .next (s.answer .state 0)) ∧
    (s.bpr.st = .active → s.bpr.err ≠ .ok → exec (.bprReadbits nbits) s = .next (s.answer s.bpr.err 0)) ∧
    (s.bpr.st = .active → s.bpr.err = .ok → 24 < nbits.toNat →
      exec (.bprReadbits nbits) s = .next ((s.setBpr { s.bpr with err := .operand }).answer .operand 0)) ∧
    (s.bpr.st = .active → s.bpr.err = .ok → nbits.toNat ≤ 24 →
      8 * ((s.bpr.ilen.toNat : Int) - s.bpr.pos.toNat) + s.bpr.cnt.toNat < nbits.toNat →
      exec (.bprReadbits nbits) s = .next ((s.setBpr { s.bpr with err := .eos }).answer .eos 0)) ∧
    (s.Inv → s.bpr.st = .active → s.bpr.err = .ok → nbits.toNat ≤ 24 →
      (nbits.toNat : Int) ≤ 8 * ((s.bpr.ilen.toNat : Int) - s.bpr.pos.toNat) + s.bpr.cnt.toNat →
      let k := (nbits.toNat - s.bpr.cnt.toNat + 7) / 8
      let acc := s.bpr.acc.toNat + 2 ^ s.bpr.cnt.toNat * spelledLsb s.bpr.ibuf s.bpr.pos.toNat k
      (∀ a, s.bpr.pos.toNat ≤ a → a < s.bpr.pos.toNat + k → (s.bpr.ibuf.read a).isSome) →
        exec (.bprReadbits nbits) s = .next ((s.setBpr
          { s.bpr with
            acc := BitVec.ofNat 32 (acc / 2 ^ nbits.toNat)
            cnt := BitVec.ofNat 5 (s.bpr.cnt.toNat + 8 * k - nbits.toNat)
            pos := BitVec.ofNat 32 (s.bpr.pos.toNat + k) }).answer .ok (BitVec.ofNat 32 (acc % 2 ^ nbits.toNat))))

/-- R173: when BPW.INIT, the PUTBITS and BPW.FINISH all answer OK, a reader given the finished bytes and the same widths answers
OK throughout and returns each value's low bits in order. -/
def Obligations.BitPackerRoundTrip : Prop :=
  ∀ (s t d : State) (cap : BitVec 32) (pairs : List (BitVec 32 × BitVec 8)) (vs : List Reg32),
    s.Inv → runOk (packRun cap pairs) s = some (t, vs) →
    d.Inv → t.bpw.olen.toNat ≤ d.cfg.bufBytes →
    (∀ a, a < t.bpw.olen.toNat → d.bpr.ibuf.read a = t.bpw.obuf.read a) →
    ∃ d', runOk (unpackRun t.bpw.olen pairs) d =
      some (d', 0 :: pairs.map fun y => BitVec.ofNat 32 (y.1.toNat % 2 ^ y.2.toNat))

/-! ### The predictors -/

/-- R191: `avg2` is the average of each lane rounded down, with no carry between lanes; it is commutative; the source's checks. -/
def Obligations.AverageIsLanewiseFloor : Prop :=
  (∀ (a b : Pixel) (k : Nat), k < 4 → laneNat (avg2 a b) k = (laneNat a k + laneNat b k) / 2) ∧
  (∀ a b : Pixel, avg2 a b = avg2 b a) ∧
  avg2 0 0 = 0 ∧ avg2 0xFFFFFFFF 0xFFFFFFFF = 0xFFFFFFFF ∧ avg2 0x00000000 0xFFFFFFFF = 0x7F7F7F7F

/-- R73, R194, R277: a predictor whose `top` has no neighbour in PMEM answers ADDR, in every mode, and reads and writes nothing. -/
def Obligations.PredictorAddressCheck : Prop :=
  ∀ (top : BitVec 16) (left : Pixel) (s : State), top.toNat = 0 ∨ s.cfg.pmemWords < top.toNat + 2 →
    ∀ i ∈ [Instr.pred0 top left, .pred1 top left, .pred2 top left, .pred3 top left, .pred4 top left, .pred5 top left,
      .pred6 top left, .pred7 top left, .pred8 top left, .pred9 top left, .pred10 top left, .pred11 top left,
      .pred12 top left, .pred13 top left], exec i s = .next (s.answer .addr 0)

/-- R63, R194: every mode reads all three words, also those its formula does not use: if one of them was never written, the model
stops at the first such word. -/
def Obligations.PredictorsReadAllThreeWords : Prop :=
  ∀ (top : BitVec 16) (left : Pixel) (s : State), 1 ≤ top.toNat → top.toNat + 2 ≤ s.cfg.pmemWords →
    ∀ k, k < 3 → (∀ j, j < k → (s.pmem.read (top.toNat - 1 + j)).isSome) → s.pmem.read (top.toNat - 1 + k) = none →
    ∀ i ∈ [Instr.pred0 top left, .pred1 top left, .pred2 top left, .pred3 top left, .pred4 top left, .pred5 top left,
      .pred6 top left, .pred7 top left, .pred8 top left, .pred9 top left, .pred10 top left, .pred11 top left,
      .pred12 top left, .pred13 top left], exec i s = .fault (.unwrittenRead .pmem (top.toNat - 1 + k))

/-- R195 to R199: modes 0 to 4 answer opaque black, the left pixel, the top, the top-right, the top-left. -/
def Obligations.CopyingPredictorsResult : Prop :=
  ∀ (top : BitVec 16) (left tl t tr : Pixel) (s : State), rowAbove s top tl t tr →
    exec (.pred0 top left) s = .next (s.answer .ok 0xFF000000) ∧
    exec (.pred1 top left) s = .next (s.answer .ok left) ∧
    exec (.pred2 top left) s = .next (s.answer .ok t) ∧
    exec (.pred3 top left) s = .next (s.answer .ok tr) ∧
    exec (.pred4 top left) s = .next (s.answer .ok tl)

/-- R192, R200 to R205: modes 5 to 10 answer, lane by lane, the nested averages of the mode, each rounded down on its own. -/
def Obligations.AveragingPredictorsResult : Prop :=
  ∀ (top : BitVec 16) (left tl t tr : Pixel) (s : State), rowAbove s top tl t tr →
    (∃ v, exec (.pred5 top left) s = .next (s.answer .ok v) ∧
      ∀ k, k < 4 → laneNat v k = ((laneNat left k + laneNat tr k) / 2 + laneNat t k) / 2) ∧
    (∃ v, exec (.pred6 top left) s = .next (s.answer .ok v) ∧
      ∀ k, k < 4 → laneNat v k = (laneNat left k + laneNat tl k) / 2) ∧
    (∃ v, exec (.pred7 top left) s = .next (s.answer .ok v) ∧
      ∀ k, k < 4 → laneNat v k = (laneNat left k + laneNat t k) / 2) ∧
    (∃ v, exec (.pred8 top left) s = .next (s.answer .ok v) ∧
      ∀ k, k < 4 → laneNat v k = (laneNat tl k + laneNat t k) / 2) ∧
    (∃ v, exec (.pred9 top left) s = .next (s.answer .ok v) ∧
      ∀ k, k < 4 → laneNat v k = (laneNat t k + laneNat tr k) / 2) ∧
    (∃ v, exec (.pred10 top left) s = .next (s.answer .ok v) ∧
      ∀ k, k < 4 → laneNat v k = ((laneNat left k + laneNat tl k) / 2 + (laneNat t k + laneNat tr k) / 2) / 2)

/-- R206 to R211: mode 11 answers the top pixel when its total distance to the top-left one is at most the left one's, and the left
pixel otherwise; modes 12 and 13 answer, lane by lane, the gradient and the half gradient clamped to 0..255, the half rounded
toward zero. -/
def Obligations.GradientPredictorsResult : Prop :=
  ∀ (top : BitVec 16) (left tl t tr : Pixel) (s : State), rowAbove s top tl t tr →
    let distance (p : Pixel) : Nat :=
      ((laneNat p 0 : Int) - laneNat tl 0).natAbs + ((laneNat p 1 : Int) - laneNat tl 1).natAbs +
        ((laneNat p 2 : Int) - laneNat tl 2).natAbs + ((laneNat p 3 : Int) - laneNat tl 3).natAbs
    exec (.pred11 top left) s = .next (s.answer .ok (if distance t ≤ distance left then t else left)) ∧
    (∃ v, exec (.pred12 top left) s = .next (s.answer .ok v) ∧
      ∀ k, k < 4 → (laneNat v k : Int) = min 255 (max 0 ((laneNat left k : Int) + laneNat t k - laneNat tl k))) ∧
    (∃ v, exec (.pred13 top left) s = .next (s.answer .ok v) ∧
      ∀ k, k < 4 →
        let a : Int := ((laneNat left k + laneNat t k) / 2 : Nat)
        (laneNat v k : Int) = min 255 (max 0 (a + Int.tdiv (a - laneNat tl k) 2)))

/-! ### The colour transform -/

/-- R232 to R234: SUBG and ADDG answer ADDR and touch no word when the range leaves PMEM; over written words of PMEM they answer
OK, in each word of the range alpha and green stay and green is subtracted from, or added to, red and blue mod 256, and nothing
else changes. The bounds sum does not wrap, and a range of no words may begin at the end of PMEM. -/
def Obligations.GreenStageResult : Prop :=
  ∀ (addr count : BitVec 16) (s : State),
    (s.cfg.pmemWords < addr.toNat + count.toNat →
      exec (.subg addr count) s = .next (s.answer .addr 0) ∧ exec (.addg addr count) s = .next (s.answer .addr 0)) ∧
    (s.Inv → addr.toNat + count.toNat ≤ s.cfg.pmemWords →
      (∀ i, i < count.toNat → (s.pmem.read (addr.toNat + i)).isSome) →
      (∃ m, exec (.subg addr count) s = .next ((s.setPmem m).answer .ok 0) ∧
        rangeRelated (fun p q => redBlueShifted p q (- lane p 1) (- lane p 1)) addr.toNat count.toNat s.pmem m) ∧
      ∃ m, exec (.addg addr count) s = .next ((s.setPmem m).answer .ok 0) ∧
        rangeRelated (fun p q => redBlueShifted p q (lane p 1) (lane p 1)) addr.toNat count.toNat s.pmem m)

/-- R235, R47: CT.SETM stores the three bytes in `CDT.MULT`, G2R in bits 23:16, G2B in 15:8, R2B in 7:0, and always answers OK. -/
def Obligations.CtSetmResult : Prop :=
  ∀ (g2r g2b r2b : BitVec 8) (s : State),
    decode ((0x42 : BitVec 8) ++ (0 : BitVec 32) ++ g2r ++ g2b ++ r2b) = some (.ctSetm g2r g2b r2b) ∧
    exec (.ctSetm g2r g2b r2b) s = .next ((s.setMult (g2r ++ g2b ++ r2b)).answer .ok 0) ∧
    (g2r ++ g2b ++ r2b : BitVec 24).toNat = g2r.toNat * 2 ^ 16 + g2b.toNat * 2 ^ 8 + r2b.toNat

/-- R231, R236: CT.FWD answers ADDR and touches no word when the range leaves PMEM; over written words of PMEM it answers OK, in
each word of the range alpha and green stay, red loses the delta of green, and blue loses the delta of green and the delta of
the original red, mod 256, and nothing else changes. -/
def Obligations.CtFwdResult : Prop :=
  ∀ (addr count : BitVec 16) (s : State),
    (s.cfg.pmemWords < addr.toNat + count.toNat → exec (.ctFwd addr count) s = .next (s.answer .addr 0)) ∧
    (s.Inv → addr.toNat + count.toNat ≤ s.cfg.pmemWords →
      (∀ i, i < count.toNat → (s.pmem.read (addr.toNat + i)).isSome) →
      ∃ m, exec (.ctFwd addr count) s = .next ((s.setPmem m).answer .ok 0) ∧
        rangeRelated (fun p q => redBlueShifted p q (- deltaByte (s.mult.extractLsb' 16 8) (lane p 1))
          (- deltaByte (s.mult.extractLsb' 8 8) (lane p 1) - deltaByte (s.mult.extractLsb' 0 8) (lane p 2)))
          addr.toNat count.toNat s.pmem m)

/-- R237, R74: CT.INV answers ADDR and touches no word when either range leaves PMEM; otherwise, over written words, it answers OK.
Word `dst + i` becomes the inverse of the pixel read at `src + i` before pixel i + 1 is read: an earlier result where the
destination had already passed that word, the old word otherwise. Blue uses the red just recomputed. Nothing outside `dst ..`
changes. -/
def Obligations.CtInvResult : Prop :=
  ∀ (src dst count : BitVec 16) (s : State),
    (s.cfg.pmemWords < src.toNat + count.toNat ∨ s.cfg.pmemWords < dst.toNat + count.toNat →
      exec (.ctInv src dst count) s = .next (s.answer .addr 0)) ∧
    (s.Inv → src.toNat + count.toNat ≤ s.cfg.pmemWords → dst.toNat + count.toNat ≤ s.cfg.pmemWords →
      (∀ i, i < count.toNat →
        (src.toNat < dst.toNat ∧ dst.toNat ≤ src.toNat + i) ∨ (s.pmem.read (src.toNat + i)).isSome) →
      ∃ m, exec (.ctInv src dst count) s = .next ((s.setPmem m).answer .ok 0) ∧
        (∀ a, ¬ (dst.toNat ≤ a ∧ a < dst.toNat + count.toNat) → m.read a = s.pmem.read a) ∧
        ∀ i, i < count.toNat → ∃ p q,
          (if src.toNat < dst.toNat ∧ dst.toNat ≤ src.toNat + i then m.read (src.toNat + i)
            else s.pmem.read (src.toNat + i)) = some p ∧
          m.read (dst.toNat + i) = some q ∧
          redBlueShifted p q (deltaByte (s.mult.extractLsb' 16 8) (lane p 1))
            (deltaByte (s.mult.extractLsb' 8 8) (lane p 1) + deltaByte (s.mult.extractLsb' 0 8) (lane q 2)))

/-- R239: the inverse pixel function undoes the forward one, and the other way round, for every pixel and every tuple; so CT.FWD
then CT.INV in place with the same tuple restores PMEM. -/
def Obligations.ColourTransformIsInvertible : Prop :=
  (∀ (mult : BitVec 24) (p : Pixel),
    inversePixel mult (forwardPixel mult p) = p ∧ forwardPixel mult (inversePixel mult p) = p) ∧
  ∀ (addr count : BitVec 16) (s : State), s.Inv → addr.toNat + count.toNat ≤ s.cfg.pmemWords →
    (∀ i, i < count.toNat → (s.pmem.read (addr.toNat + i)).isSome) →
    ∃ t, runOk [.ctFwd addr count, .ctInv addr addr count] s = some (t, [0, 0]) ∧ t.pmem = s.pmem

/-- R234: `add_green(subtract_green(p)) = p` and the converse for every pixel; so SUBG then ADDG over a range, and ADDG then SUBG,
restore PMEM. -/
def Obligations.GreenStageIsInvertible : Prop :=
  (∀ p : Pixel, addGreen (subGreen p) = p ∧ subGreen (addGreen p) = p) ∧
  ∀ (addr count : BitVec 16) (s : State), s.Inv → addr.toNat + count.toNat ≤ s.cfg.pmemWords →
    (∀ i, i < count.toNat → (s.pmem.read (addr.toNat + i)).isSome) →
    (∃ t, runOk [.subg addr count, .addg addr count] s = some (t, [0, 0]) ∧ t.pmem = s.pmem) ∧
    ∃ t, runOk [.addg addr count, .subg addr count] s = some (t, [0, 0]) ∧ t.pmem = s.pmem

/-- R238: with the zero tuple, the tuple after reset, CT.FWD leaves PMEM as it is, and CT.INV to a range that does not begin
inside its source copies the words from `src` to `dst`. -/
def Obligations.ZeroTupleIsIdentity : Prop :=
  (∀ p : Pixel, forwardPixel 0 p = p ∧ inversePixel 0 p = p) ∧
  ∀ (src dst count : BitVec 16) (s : State), s.Inv → s.mult = 0 →
    src.toNat + count.toNat ≤ s.cfg.pmemWords → dst.toNat + count.toNat ≤ s.cfg.pmemWords →
    (∀ i, i < count.toNat → (s.pmem.read (src.toNat + i)).isSome) →
    exec (.ctFwd src count) s = .next (s.answer .ok 0) ∧
    (dst.toNat ≤ src.toNat ∨ src.toNat + count.toNat ≤ dst.toNat →
      ∃ m, exec (.ctInv src dst count) s = .next ((s.setPmem m).answer .ok 0) ∧
        (∀ i, i < count.toNat → m.read (dst.toNat + i) = s.pmem.read (src.toNat + i)) ∧
        ∀ a, ¬ (dst.toNat ≤ a ∧ a < dst.toNat + count.toNat) → m.read a = s.pmem.read a)

/-! ### Status registers and the host -/

/-- R51, R260: RDSR of each of the sixteen numbers answers the register's content before `CC` advances, and changes nothing; RDSR
of any other number answers OPERAND and sets no ERR. -/
def Obligations.RdsrReadsStatusRegisters : Prop :=
  (∀ s : State, s.Inv → ∀ r ∈ statusRegisters s,
    r.2 < 2 ^ 32 ∧ exec (.rdsr r.1) s = .next (s.answer .ok (BitVec.ofNat 32 r.2))) ∧
  (∀ s : State, s.Inv → s.bpr.cnt.toNat ≤ 8 * s.bpr.pos.toNat) ∧
  ∀ (s : State) (sr : BitVec 8), sr ∉ (statusRegisters s).map (fun r => r.1) →
    exec (.rdsr sr) s = .next (s.answer .operand 0)

/-- R64: after an OK FINISH and the response taken, the host can read every byte of the finished stream below OLEN and none at or
above it; after a failed FINISH or an ABORT, and during a session, it can read none. -/
def Obligations.HostReadsOnlyFinishedStreams : Prop :=
  (∀ s t : State, s.Inv → exec .rceFinish s = .next t → answeredWith t .ok →
    ∀ a, (hostReadRceObuf { t with ports := .idle } a).isSome ↔ a < t.rce.olen.toNat) ∧
  (∀ s t : State, s.Inv → exec .bpwFinish s = .next t → answeredWith t .ok →
    ∀ a, (hostReadBpwObuf { t with ports := .idle } a).isSome ↔ a < t.bpw.olen.toNat) ∧
  (∀ (s t : State) (e : Status), e ≠ .ok → s.rce.st = .active →
    (exec .rceFinish s = .next t ∧ answeredWith t e) ∨ exec .rceAbort s = .next t → ∀ a, hostReadRceObuf t a = none) ∧
  (∀ (s t : State) (e : Status), e ≠ .ok → s.bpw.st = .active →
    (exec .bpwFinish s = .next t ∧ answeredWith t e) ∨ exec .bpwAbort s = .next t → ∀ a, hostReadBpwObuf t a = none) ∧
  ∀ s : State, (s.rce.st = .active → ∀ a, hostReadRceObuf s a = none) ∧
    (s.bpw.st = .active → ∀ a, hostReadBpwObuf s a = none)
end

