-- ==== Sys2Proof/Laws/Memory.lean ====
section
/-!
SUPPORT. Reading and writing a memory (spec/20_memory.md R72): a read after a write, and the canonical form kept by every
operation.
-/
namespace Sys2Proof.Machine

variable {w : Nat}

@[simp] theorem Memory.read_nil (a : Nat) : Memory.read ([] : Memory w) a = none := rfl

/-- A read of the address just written gives the value written. -/
@[simp] theorem Memory.read_write_same (m : Memory w) (a : Nat) (v : BitVec w) : (m.write a v).read a = some v := by
  induction m with
  | nil => simp [Memory.write, Memory.read]
  | cons e rest ih =>
    obtain ⟨b, x⟩ := e
    unfold Memory.write
    split
    · simp [Memory.read]
    · split
      · simp [Memory.read]
      · rename_i h1 h2
        simp [Memory.read, h2, ih]

/-- A write leaves every other address alone. -/
theorem Memory.read_write_other (m : Memory w) {a a' : Nat} (v : BitVec w) (h : a' ≠ a) :
    (m.write a v).read a' = m.read a' := by
  induction m with
  | nil => simp [Memory.write, Memory.read, h]
  | cons e rest ih =>
    obtain ⟨b, x⟩ := e
    unfold Memory.write
    split
    · simp [Memory.read, h]
    · split
      · rename_i h1 h2
        subst h2
        simp [Memory.read, h]
      · simp [Memory.read, ih]

theorem Memory.read_write (m : Memory w) (a a' : Nat) (v : BitVec w) :
    (m.write a v).read a' = if a' = a then some v else m.read a' := by
  split
  · rename_i h; rw [h, Memory.read_write_same]
  · rename_i h; exact Memory.read_write_other m v h

/-- The addresses of a written memory: those it had, and the one written. -/
theorem Memory.mem_write_addr (m : Memory w) (a : Nat) (v : BitVec w) :
    ∀ e ∈ m.write a v, e.1 = a ∨ ∃ e' ∈ m, e'.1 = e.1 := by
  induction m with
  | nil => simp [Memory.write]
  | cons e rest ih =>
    obtain ⟨b, x⟩ := e
    intro e' he'
    unfold Memory.write at he'
    split at he'
    · rcases List.mem_cons.1 he' with h | h
      · exact .inl (by rw [h])
      · exact .inr ⟨e', h, rfl⟩
    · split at he'
      · rcases List.mem_cons.1 he' with h | h
        · exact .inl (by rw [h])
        · exact .inr ⟨e', List.mem_cons_of_mem _ h, rfl⟩
      · rcases List.mem_cons.1 he' with h | h
        · exact .inr ⟨(b, x), List.mem_cons_self, by rw [h]⟩
        · rcases ih e' h with h | ⟨e'', h1, h2⟩
          · exact .inl h
          · exact .inr ⟨e'', List.mem_cons_of_mem _ h1, h2⟩

/-- A write keeps the canonical form. -/
theorem Memory.wf_write (m : Memory w) (a : Nat) (v : BitVec w) (h : m.wf) : (m.write a v).wf := by
  induction m with
  | nil => simp [Memory.write]
  | cons e rest ih =>
    obtain ⟨b, x⟩ := e
    replace h := List.pairwise_cons.1 h
    unfold Memory.write
    split
    · rename_i hab
      refine List.pairwise_cons.2 ⟨?_, List.pairwise_cons.2 h⟩
      intro e' he'
      rcases List.mem_cons.1 he' with h' | h'
      · rw [h']; exact hab
      · exact hab.trans (h.1 e' h')
    · split
      · rename_i h1 h2
        subst h2
        exact List.pairwise_cons.2 h
      · rename_i h1 h2
        refine List.pairwise_cons.2 ⟨?_, ih h.2⟩
        intro e' he'
        rcases Memory.mem_write_addr rest a v e' he' with h' | ⟨e'', h3, h4⟩
        · simp only [h']; omega
        · rw [← h4]; exact h.1 e'' h3

/-- A write inside the space keeps the memory inside its space and canonical. -/
theorem memoryOk_write {m : Memory w} {n a : Nat} (v : BitVec w) (h : memoryOk m n) (ha : a < n) :
    memoryOk (m.write a v) n := by
  refine ⟨Memory.wf_write m a v h.1, fun e he => ?_⟩
  rcases Memory.mem_write_addr m a v e he with h' | ⟨e', h1, h2⟩
  · rw [h']; exact ha
  · rw [← h2]; exact h.2 e' h1

/-- A listed address is an address of the list. -/
theorem Memory.exists_of_read {m : Memory w} {a : Nat} (h : (m.read a).isSome) : ∃ e ∈ m, e.1 = a := by
  induction m with
  | nil => simp [Memory.read] at h
  | cons e rest ih =>
    obtain ⟨b, x⟩ := e
    unfold Memory.read at h
    split at h
    · rename_i hab
      exact ⟨(b, x), List.mem_cons_self, hab.symm⟩
    · obtain ⟨e', h1, h2⟩ := ih h
      exact ⟨e', List.mem_cons_of_mem _ h1, h2⟩

/-- What is stored below a length lies inside the space. -/
theorem storedBelow_le {m : Memory w} {n k : Nat} (h : memoryOk m n) (hs : storedBelow m k) : k ≤ n := by
  by_contra hk
  obtain ⟨e, he, heq⟩ := Memory.exists_of_read (hs n (by omega))
  have := h.2 e he
  omega

/-- Appending at a length keeps everything below the next length stored. -/
theorem storedBelow_append {m : Memory w} {n : Nat} (v : BitVec w) (h : storedBelow m n) :
    storedBelow (m.write n v) (n + 1) := by
  intro a ha
  rw [Memory.read_write]
  split
  · rfl
  · exact h a (by omega)

/-- An address below every listed one is not listed. -/
theorem Memory.read_none_of_lt {m : Memory w} {a : Nat} (h : ∀ e ∈ m, a < e.1) : m.read a = none := by
  induction m with
  | nil => rfl
  | cons e rest ih =>
    have h1 := h e (by simp)
    unfold Memory.read
    rw [if_neg (by omega)]
    exact ih fun x hx => h x (by simp [hx])

/-- Two memories in canonical form with the same reads are the same list. -/
theorem Memory.ext_of_read {m m' : Memory w} (h : m.wf) (h' : m'.wf) (heq : ∀ a, m.read a = m'.read a) : m = m' := by
  induction m generalizing m' with
  | nil =>
    cases m' with
    | nil => rfl
    | cons e rest => have := heq e.1; simp [Memory.read] at this
  | cons e rest ih =>
    cases m' with
    | nil => have := heq e.1; simp [Memory.read] at this
    | cons e' rest' =>
      obtain ⟨p1, p2⟩ := List.pairwise_cons.1 h
      obtain ⟨q1, q2⟩ := List.pairwise_cons.1 h'
      have he : e.1 = e'.1 := by
        rcases Nat.lt_trichotomy e.1 e'.1 with hlt | he | hlt
        · have h1 := heq e.1
          rw [Memory.read_none_of_lt (m := e' :: rest') (by
            intro x hx
            rcases List.mem_cons.1 hx with rfl | hx
            · exact hlt
            · exact lt_trans hlt (q1 x hx))] at h1
          simp [Memory.read] at h1
        · exact he
        · have h1 := heq e'.1
          rw [Memory.read_none_of_lt (m := e :: rest) (by
            intro x hx
            rcases List.mem_cons.1 hx with rfl | hx
            · exact hlt
            · exact lt_trans hlt (p1 x hx))] at h1
          simp [Memory.read] at h1
      have hv : e.2 = e'.2 := by
        have h1 := heq e.1
        simpa [Memory.read, he] using h1
      have hee : e = e' := Prod.ext he hv
      subst hee
      congr 1
      refine ih p2 q2 fun a => ?_
      by_cases ha : a = e.1
      · rw [Memory.read_none_of_lt (fun x hx => by rw [ha]; exact p1 x hx),
          Memory.read_none_of_lt (fun x hx => by rw [ha]; exact q1 x hx)]
      · have h1 := heq a
        simpa [Memory.read, ha] using h1

end Sys2Proof.Machine
end

