-- ==== Sys2Proof/Laws/State.lean ====
section
/-!
SUPPORT. One lemma per field of State per named update: what each update of spec/00_scope.md R13 leaves in each field.
-/
namespace Sys2Proof.Machine

@[simp] theorem State.setRce_cfg (s : State) (u : Rce) : (s.setRce u).cfg = s.cfg := rfl
@[simp] theorem State.setRce_rce (s : State) (u : Rce) : (s.setRce u).rce = u := rfl
@[simp] theorem State.setRce_rcd (s : State) (u : Rce) : (s.setRce u).rcd = s.rcd := rfl
@[simp] theorem State.setRce_bpw (s : State) (u : Rce) : (s.setRce u).bpw = s.bpw := rfl
@[simp] theorem State.setRce_bpr (s : State) (u : Rce) : (s.setRce u).bpr = s.bpr := rfl
@[simp] theorem State.setRce_mult (s : State) (u : Rce) : (s.setRce u).mult = s.mult := rfl
@[simp] theorem State.setRce_pmem (s : State) (u : Rce) : (s.setRce u).pmem = s.pmem := rfl
@[simp] theorem State.setRce_cc (s : State) (u : Rce) : (s.setRce u).cc = s.cc := rfl
@[simp] theorem State.setRce_ports (s : State) (u : Rce) : (s.setRce u).ports = s.ports := rfl

@[simp] theorem State.setRcd_cfg (s : State) (u : Rcd) : (s.setRcd u).cfg = s.cfg := rfl
@[simp] theorem State.setRcd_rce (s : State) (u : Rcd) : (s.setRcd u).rce = s.rce := rfl
@[simp] theorem State.setRcd_rcd (s : State) (u : Rcd) : (s.setRcd u).rcd = u := rfl
@[simp] theorem State.setRcd_bpw (s : State) (u : Rcd) : (s.setRcd u).bpw = s.bpw := rfl
@[simp] theorem State.setRcd_bpr (s : State) (u : Rcd) : (s.setRcd u).bpr = s.bpr := rfl
@[simp] theorem State.setRcd_mult (s : State) (u : Rcd) : (s.setRcd u).mult = s.mult := rfl
@[simp] theorem State.setRcd_pmem (s : State) (u : Rcd) : (s.setRcd u).pmem = s.pmem := rfl
@[simp] theorem State.setRcd_cc (s : State) (u : Rcd) : (s.setRcd u).cc = s.cc := rfl
@[simp] theorem State.setRcd_ports (s : State) (u : Rcd) : (s.setRcd u).ports = s.ports := rfl

@[simp] theorem State.setBpw_cfg (s : State) (u : Bpw) : (s.setBpw u).cfg = s.cfg := rfl
@[simp] theorem State.setBpw_rce (s : State) (u : Bpw) : (s.setBpw u).rce = s.rce := rfl
@[simp] theorem State.setBpw_rcd (s : State) (u : Bpw) : (s.setBpw u).rcd = s.rcd := rfl
@[simp] theorem State.setBpw_bpw (s : State) (u : Bpw) : (s.setBpw u).bpw = u := rfl
@[simp] theorem State.setBpw_bpr (s : State) (u : Bpw) : (s.setBpw u).bpr = s.bpr := rfl
@[simp] theorem State.setBpw_mult (s : State) (u : Bpw) : (s.setBpw u).mult = s.mult := rfl
@[simp] theorem State.setBpw_pmem (s : State) (u : Bpw) : (s.setBpw u).pmem = s.pmem := rfl
@[simp] theorem State.setBpw_cc (s : State) (u : Bpw) : (s.setBpw u).cc = s.cc := rfl
@[simp] theorem State.setBpw_ports (s : State) (u : Bpw) : (s.setBpw u).ports = s.ports := rfl

@[simp] theorem State.setBpr_cfg (s : State) (u : Bpr) : (s.setBpr u).cfg = s.cfg := rfl
@[simp] theorem State.setBpr_rce (s : State) (u : Bpr) : (s.setBpr u).rce = s.rce := rfl
@[simp] theorem State.setBpr_rcd (s : State) (u : Bpr) : (s.setBpr u).rcd = s.rcd := rfl
@[simp] theorem State.setBpr_bpw (s : State) (u : Bpr) : (s.setBpr u).bpw = s.bpw := rfl
@[simp] theorem State.setBpr_bpr (s : State) (u : Bpr) : (s.setBpr u).bpr = u := rfl
@[simp] theorem State.setBpr_mult (s : State) (u : Bpr) : (s.setBpr u).mult = s.mult := rfl
@[simp] theorem State.setBpr_pmem (s : State) (u : Bpr) : (s.setBpr u).pmem = s.pmem := rfl
@[simp] theorem State.setBpr_cc (s : State) (u : Bpr) : (s.setBpr u).cc = s.cc := rfl
@[simp] theorem State.setBpr_ports (s : State) (u : Bpr) : (s.setBpr u).ports = s.ports := rfl

@[simp] theorem State.setMult_cfg (s : State) (m : BitVec 24) : (s.setMult m).cfg = s.cfg := rfl
@[simp] theorem State.setMult_rce (s : State) (m : BitVec 24) : (s.setMult m).rce = s.rce := rfl
@[simp] theorem State.setMult_rcd (s : State) (m : BitVec 24) : (s.setMult m).rcd = s.rcd := rfl
@[simp] theorem State.setMult_bpw (s : State) (m : BitVec 24) : (s.setMult m).bpw = s.bpw := rfl
@[simp] theorem State.setMult_bpr (s : State) (m : BitVec 24) : (s.setMult m).bpr = s.bpr := rfl
@[simp] theorem State.setMult_mult (s : State) (m : BitVec 24) : (s.setMult m).mult = m := rfl
@[simp] theorem State.setMult_pmem (s : State) (m : BitVec 24) : (s.setMult m).pmem = s.pmem := rfl
@[simp] theorem State.setMult_cc (s : State) (m : BitVec 24) : (s.setMult m).cc = s.cc := rfl
@[simp] theorem State.setMult_ports (s : State) (m : BitVec 24) : (s.setMult m).ports = s.ports := rfl

@[simp] theorem State.setPmem_cfg (s : State) (m : Memory 32) : (s.setPmem m).cfg = s.cfg := rfl
@[simp] theorem State.setPmem_rce (s : State) (m : Memory 32) : (s.setPmem m).rce = s.rce := rfl
@[simp] theorem State.setPmem_rcd (s : State) (m : Memory 32) : (s.setPmem m).rcd = s.rcd := rfl
@[simp] theorem State.setPmem_bpw (s : State) (m : Memory 32) : (s.setPmem m).bpw = s.bpw := rfl
@[simp] theorem State.setPmem_bpr (s : State) (m : Memory 32) : (s.setPmem m).bpr = s.bpr := rfl
@[simp] theorem State.setPmem_mult (s : State) (m : Memory 32) : (s.setPmem m).mult = s.mult := rfl
@[simp] theorem State.setPmem_pmem (s : State) (m : Memory 32) : (s.setPmem m).pmem = m := rfl
@[simp] theorem State.setPmem_cc (s : State) (m : Memory 32) : (s.setPmem m).cc = s.cc := rfl
@[simp] theorem State.setPmem_ports (s : State) (m : Memory 32) : (s.setPmem m).ports = s.ports := rfl

@[simp] theorem State.answer_cfg (s : State) (e : Status) (v : Reg32) : (s.answer e v).cfg = s.cfg := rfl
@[simp] theorem State.answer_rce (s : State) (e : Status) (v : Reg32) : (s.answer e v).rce = s.rce := rfl
@[simp] theorem State.answer_rcd (s : State) (e : Status) (v : Reg32) : (s.answer e v).rcd = s.rcd := rfl
@[simp] theorem State.answer_bpw (s : State) (e : Status) (v : Reg32) : (s.answer e v).bpw = s.bpw := rfl
@[simp] theorem State.answer_bpr (s : State) (e : Status) (v : Reg32) : (s.answer e v).bpr = s.bpr := rfl
@[simp] theorem State.answer_mult (s : State) (e : Status) (v : Reg32) : (s.answer e v).mult = s.mult := rfl
@[simp] theorem State.answer_pmem (s : State) (e : Status) (v : Reg32) : (s.answer e v).pmem = s.pmem := rfl
@[simp] theorem State.answer_cc (s : State) (e : Status) (v : Reg32) : (s.answer e v).cc = s.cc + 1 := rfl
@[simp] theorem State.answer_ports (s : State) (e : Status) (v : Reg32) : (s.answer e v).ports = .response (responseWord e v) := rfl

@[simp] theorem presented_present (s : State) (w : Word64) : presented (present s w) = some w := rfl

/-- Presenting a command changes the command port only. -/
theorem present_eq (s : State) (w : Word64) : present s w = { s with ports := .command w } := rfl

end Sys2Proof.Machine
end

