-- ==== Sys2Proof/Laws/Ops.lean ====
section
/-!
SUPPORT. Once for each shared operation of Machine/Ops.lean: everything it can do.
-/
namespace Sys2Proof.Machine

variable {w : Nat}

/-- `memRead` answers exactly the stored unit of an address inside the space. -/
theorem memRead_ok_iff {c : Config} {sp : Space} {m : Memory w} {a : Nat} {v : BitVec w} :
    memRead c sp m a = .ok v ↔ a < c.sizeOf sp ∧ m.read a = some v := by
  unfold memRead
  split
  · rename_i h
    cases hr : m.read a <;> simp [h]
  · rename_i h
    simp [h]

/-- Inside the space `memRead` stops only at an address nothing has written. -/
theorem memRead_error {c : Config} {sp : Space} {m : Memory w} {a : Nat} {f : Fault} (ha : a < c.sizeOf sp)
    (h : memRead c sp m a = .error f) : f = .unwrittenRead sp a ∧ m.read a = none := by
  unfold memRead at h
  rw [if_pos ha] at h
  cases hr : m.read a with
  | none => rw [hr] at h; simp only [Except.error.injEq] at h; exact ⟨h.symm, rfl⟩
  | some v => rw [hr] at h; exact absurd h (by simp)

/-- `memWrite` inside the space writes. -/
theorem memWrite_ok {c : Config} {sp : Space} {m : Memory w} {a : Nat} (v : BitVec w) (ha : a < c.sizeOf sp) :
    memWrite c sp m a v = .ok (m.write a v) := by
  unfold memWrite
  rw [if_pos ha]

theorem memWrite_ok_iff {c : Config} {sp : Space} {m m' : Memory w} {a : Nat} {v : BitVec w} :
    memWrite c sp m a v = .ok m' ↔ a < c.sizeOf sp ∧ m' = m.write a v := by
  unfold memWrite
  split
  · rename_i h
    simp [h, eq_comm]
  · rename_i h
    simp [h]

/-- `fit` answers the register image of a value that fits. -/
theorem fit_ok {n : Nat} (h : n < 2 ^ w) : fit w n = .ok (BitVec.ofNat w n) := by
  unfold fit
  rw [if_pos h]

/-- What `fit` answers has exactly the value. -/
theorem fit_ok_iff {n : Nat} {x : BitVec w} : fit w n = .ok x ↔ n < 2 ^ w ∧ x.toNat = n := by
  unfold fit
  split
  · rename_i h
    simp only [Except.ok.injEq, h, true_and]
    constructor
    · rintro rfl
      rw [BitVec.toNat_ofNat, Nat.mod_eq_of_lt h]
    · intro hx
      apply BitVec.eq_of_toNat_eq
      rw [BitVec.toNat_ofNat, Nat.mod_eq_of_lt h, hx]
  · rename_i h
    simp [h]

/-- `append` at a length inside the buffer stores the byte there and moves the length on by one. -/
theorem append_ok {c : Config} {sp : Space} {m : Memory 8} {olen : BitVec 32} (byte : Byte)
    (h : olen.toNat < c.sizeOf sp) (hn : olen.toNat + 1 < 2 ^ 32) :
    append c sp m olen byte = .ok (m.write olen.toNat byte, BitVec.ofNat 32 (olen.toNat + 1)) := by
  unfold append
  rw [memWrite_ok byte h, fit_ok hn]
  rfl

/-- Everything `append` can do: if it answers, it stored one byte at the old length, inside the space. -/
theorem append_ok_iff {c : Config} {sp : Space} {m m' : Memory 8} {olen olen' : BitVec 32} {byte : Byte} :
    append c sp m olen byte = .ok (m', olen') ↔
      olen.toNat < c.sizeOf sp ∧ m' = m.write olen.toNat byte ∧ olen.toNat + 1 < 2 ^ 32 ∧
        olen'.toNat = olen.toNat + 1 := by
  unfold append
  constructor
  · intro h
    cases h1 : memWrite c sp m olen.toNat byte with
    | error f => rw [h1] at h; exact absurd h (by simp [bind, Except.bind])
    | ok m1 =>
      rw [h1] at h
      cases h2 : fit 32 (olen.toNat + 1) with
      | error f => rw [h2] at h; exact absurd h (by simp [bind, Except.bind])
      | ok x =>
        rw [h2] at h
        simp only [bind, Except.bind, Except.ok.injEq, Prod.mk.injEq] at h
        obtain ⟨hm, hx⟩ := memWrite_ok_iff.1 h1
        obtain ⟨hf, hv⟩ := fit_ok_iff.1 h2
        exact ⟨hm, by rw [← h.1, hx], hf, by rw [← h.2, hv]⟩
  · rintro ⟨h1, rfl, h2, h3⟩
    rw [memWrite_ok byte h1, fit_ok_iff.2 ⟨h2, h3⟩]
    rfl

/-- `orFault` answers a next state only through the operation's value. -/
theorem orFault_next {α : Type} {r : Except Fault α} {k : α → Result} {t : State} (h : orFault r k = .next t) :
    ∃ a, r = .ok a ∧ k a = .next t := by
  cases r with
  | ok a => exact ⟨a, rfl, h⟩
  | error f => exact absurd h (by simp [orFault])

@[simp] theorem orFault_ok {α : Type} (a : α) (k : α → Result) : orFault (.ok a) k = k a := rfl

@[simp] theorem orFault_error {α : Type} (f : Fault) (k : α → Result) : orFault (.error f) k = .fault f := rfl

/-- A chain of operations answers only when each of them does. -/
theorem bind_ok_iff {α β : Type} {x : Except Fault α} {f : α → Except Fault β} {b : β} :
    (x >>= f) = .ok b ↔ ∃ a, x = .ok a ∧ f a = .ok b := by
  cases x with
  | ok a => simp [bind, Except.bind]
  | error e => simp [bind, Except.bind]

@[simp] theorem bind_ok {α β : Type} (a : α) (f : α → Except Fault β) : ((Except.ok a : Except Fault α) >>= f) = f a := rfl

/-- Every status code is 0 to 7. -/
theorem Status.code_le (e : Status) : e.code.toNat ≤ 7 := by cases e <;> decide

@[simp] theorem Status.code_eq_zero_iff (e : Status) : e.code = 0#8 ↔ e = .ok := by cases e <;> decide

@[simp] theorem statusField_responseWord (e : Status) (v : Reg32) : statusField (responseWord e v) = e.code := by
  apply BitVec.eq_of_getLsbD_eq
  intro i hi
  simp only [statusField, responseWord, BitVec.getLsbD_extractLsb', BitVec.getLsbD_append]
  have h1 : ¬ 32 + i < 32 := by omega
  have h2 : 32 + i - 32 = i := by omega
  simp [hi, h2]

@[simp] theorem valueField_responseWord (e : Status) (v : Reg32) : valueField (responseWord e v) = v := by
  apply BitVec.eq_of_getLsbD_eq
  intro i hi
  simp only [valueField, responseWord, BitVec.getLsbD_extractLsb', BitVec.getLsbD_append]
  simp [hi]

/-- Every answer has the form of R91. -/
theorem responseOk_responseWord (e : Status) (v : Reg32) (h : e ≠ .ok → v = 0) : responseOk (responseWord e v) := by
  refine ⟨?_, ?_, ?_⟩
  · apply BitVec.eq_of_getLsbD_eq
    intro i hi
    simp only [responseWord, BitVec.getLsbD_extractLsb', BitVec.getLsbD_append]
    have h1 : ¬ 40 + i < 32 := by omega
    have h2 : ¬ 40 + i - 32 < 8 := by omega
    simp [h1, h2]
  · rw [statusField_responseWord]; exact e.code_le
  · rw [statusField_responseWord, valueField_responseWord]
    intro hne
    exact h fun he => hne (by rw [he]; rfl)

@[simp] theorem okValue_answer (s : State) (e : Status) (v : Reg32) :
    okValue (s.answer e v) = if e = .ok then some v else none := by
  simp [okValue]

end Sys2Proof.Machine
end

