-- ==== Sys2Proof/Laws/BitPacker.lean ====
section
/-!
SUPPORT. What the bit packer's operations do (spec/41_bit_packer.md R163, R165, R171), as changes of the number the stream
spells.
-/
namespace Sys2Proof.Machine

/-! ### Spelled numbers -/

theorem byteAt_lt (m : Memory 8) (a : Nat) : byteAt m a < 256 := by unfold byteAt; omega

/-- The number spelled by `n + 1` bytes, by its last byte. -/
theorem spelledLsb_snoc (m : Memory 8) (a n : Nat) :
    spelledLsb m a (n + 1) = spelledLsb m a n + byteAt m (a + n) * 256 ^ n := by
  induction n generalizing a with
  | zero => simp [spelledLsb]
  | succ n ih =>
    rw [spelledLsb, ih (a + 1), spelledLsb, pow_succ]
    have : a + 1 + n = a + (n + 1) := by omega
    rw [this]
    ring

theorem spelledLsb_congr {m m' : Memory 8} {a n : Nat} (h : ∀ b, a ≤ b → b < a + n → m'.read b = m.read b) :
    spelledLsb m' a n = spelledLsb m a n := by
  induction n generalizing a with
  | zero => rfl
  | succ n ih =>
    have h0 : m'.read a = m.read a := h a le_rfl (by omega)
    have h1 : spelledLsb m' (a + 1) n = spelledLsb m (a + 1) n := ih fun b hb1 hb2 => h b (by omega) (by omega)
    simp only [spelledLsb, byteAt, h0, h1]

/-- A byte appended at the length is the next digit to base 256, the least significant first. -/
theorem spelledLsb_append (m : Memory 8) (n : Nat) (b : Byte) :
    spelledLsb (m.write n b) 0 (n + 1) = spelledLsb m 0 n + b.toNat * 256 ^ n := by
  have h : spelledLsb (m.write n b) 0 n = spelledLsb m 0 n :=
    spelledLsb_congr fun a _ ha => Memory.read_write_other m b (by omega)
  rw [spelledLsb_snoc, h]
  simp [byteAt]

theorem spelledLsb_lt (m : Memory 8) (a n : Nat) : spelledLsb m a n < 256 ^ n := by
  induction n generalizing a with
  | zero => simp [spelledLsb]
  | succ n ih =>
    have h1 := byteAt_lt m a
    have h2 := ih (a + 1)
    rw [spelledLsb, pow_succ]
    omega

/-! ### The writer -/

/-- The writer's invariant without its bound on the pending count (R37, R61). -/
structure PackOk (c : Config) (u : Bpw) : Prop where
  mem : memoryOk u.obuf c.bufBytes
  stored : storedBelow u.obuf u.olen.toNat
  pending : u.acc.toNat < 2 ^ u.pend.toNat

/-- `u'` is `u` after whole bytes were moved from the accumulator to the buffer. -/
structure Flushed (c : Config) (u u' : Bpw) : Prop where
  ok : PackOk c u'
  st : u'.st = u.st
  err : u'.err = u.err
  ocap : u'.ocap = u.ocap
  bits : 8 * u'.olen.toNat + u'.pend.toNat = 8 * u.olen.toNat + u.pend.toNat
  value : packedValue u' = packedValue u
  le : u.olen.toNat ≤ u'.olen.toNat
  bytes : ∀ a, ¬ (u.olen.toNat ≤ a ∧ a < u'.olen.toNat) → u'.obuf.read a = u.obuf.read a

theorem Flushed.refl {c : Config} {u : Bpw} (h : PackOk c u) : Flushed c u u :=
  ⟨h, rfl, rfl, rfl, rfl, rfl, le_rfl, fun _ _ => rfl⟩

theorem Flushed.trans {c : Config} {u v w : Bpw} (h : Flushed c u v) (h' : Flushed c v w) : Flushed c u w :=
  ⟨h'.ok, h'.st.trans h.st, h'.err.trans h.err, h'.ocap.trans h.ocap, h'.bits.trans h.bits, h'.value.trans h.value,
    h.le.trans h'.le, fun a ha => by
      have h1 := h.le
      have h2 := h'.le
      rw [h'.bytes a (by omega), h.bytes a (by omega)]⟩

/-- The loop of R163 with room: whole bytes out, fewer than 8 bits left, the stream the same. -/
theorem flushBytes_ok {c : Config} (hc : c.bufBytes ≤ 2 ^ 28) {n : Nat} {u : Bpw} (h : PackOk c u)
    (hn : u.pend.toNat < 8 * (n + 1)) (room : 8 * u.olen.toNat + u.pend.toNat ≤ 8 * c.bufBytes) :
    ∃ u', flushBytes c n u = .ok u' ∧ Flushed c u u' ∧ u'.pend.toNat ≤ 7 := by
  induction n generalizing u with
  | zero => exact ⟨u, rfl, Flushed.refl h, by omega⟩
  | succ n ih =>
    by_cases h8 : 8 ≤ u.pend.toNat
    · have hlen : u.olen.toNat < c.sizeOf .bpwObuf := by simp only [Config.sizeOf]; omega
      have hlen' : u.olen.toNat < c.bufBytes := hlen
      have hnat : (BitVec.ofNat 32 (u.olen.toNat + 1)).toNat = u.olen.toNat + 1 := by
        rw [BitVec.toNat_ofNat, Nat.mod_eq_of_lt (by omega)]
      have hpend : (u.pend - 8).toNat = u.pend.toNat - 8 := by
        have := u.pend.isLt
        rw [BitVec.toNat_sub]
        simp
        omega
      have hbyte : (u.acc.setWidth 8).toNat = u.acc.toNat % 256 := by simp
      have hacc : (u.acc >>> 8).toNat = u.acc.toNat / 256 := by
        rw [BitVec.toNat_ushiftRight, Nat.shiftRight_eq_div_pow]
      let v : Bpw := { u with
        obuf := u.obuf.write u.olen.toNat (u.acc.setWidth 8)
        olen := BitVec.ofNat 32 (u.olen.toNat + 1)
        acc := u.acc >>> 8
        pend := u.pend - 8 }
      have hv : Flushed c u v := by
        refine ⟨⟨memoryOk_write _ h.mem hlen', ?_, ?_⟩, rfl, rfl, rfl, ?_, ?_, ?_, ?_⟩
        · show storedBelow (u.obuf.write _ _) (BitVec.ofNat 32 _).toNat
          rw [hnat]
          exact storedBelow_append _ h.stored
        · show (u.acc >>> 8).toNat < 2 ^ (u.pend - 8).toNat
          rw [hacc, hpend]
          have hp := h.pending
          have : (2 : Nat) ^ u.pend.toNat = 2 ^ (u.pend.toNat - 8) * 256 := by
            rw [show (256 : Nat) = 2 ^ 8 from rfl, ← pow_add]
            congr 1
            omega
          rw [Nat.div_lt_iff_lt_mul (by norm_num)]
          omega
        · show 8 * (BitVec.ofNat 32 _).toNat + (u.pend - 8).toNat = _
          rw [hnat, hpend]
          omega
        · show spelledLsb (u.obuf.write _ _) 0 (BitVec.ofNat 32 _).toNat + (u.acc >>> 8).toNat * 256 ^ (BitVec.ofNat 32 _).toNat = _
          rw [hnat, spelledLsb_append, hbyte, hacc, packedValue, pow_succ]
          have := Nat.div_add_mod u.acc.toNat 256
          calc _ = spelledLsb u.obuf 0 u.olen.toNat + (256 * (u.acc.toNat / 256) + u.acc.toNat % 256) * 256 ^ u.olen.toNat := by ring
            _ = _ := by rw [this]
        · show u.olen.toNat ≤ (BitVec.ofNat 32 _).toNat
          rw [hnat]
          omega
        · intro a ha
          replace ha : ¬ (u.olen.toNat ≤ a ∧ a < (BitVec.ofNat 32 (u.olen.toNat + 1)).toNat) := ha
          rw [hnat] at ha
          exact Memory.read_write_other _ _ (by omega)
      obtain ⟨u', h1, h2, h3⟩ := ih (u := v) hv.ok (by show (u.pend - 8).toNat < _; rw [hpend]; omega)
        (by rw [hv.bits]; exact room)
      refine ⟨u', ?_, hv.trans h2, h3⟩
      rw [flushBytes, if_pos h8, append_ok _ hlen (by omega), bind_ok]
      exact h1
    · exact ⟨u, by rw [flushBytes, if_neg h8], Flushed.refl h, by omega⟩

/-- Everything an accepted PUTBITS does (R163): it answers; the low `nbits` bits of the value follow the bits written so far. -/
theorem packBits_ok {c : Config} (hc : c.bufBytes ≤ 2 ^ 28) {value : BitVec 32} {nbits : Nat} {u : Bpw}
    (h : bpwInv c u) (hn : nbits ≤ 24)
    (room : 8 * u.olen.toNat + u.pend.toNat + nbits ≤ 8 * u.ocap.toNat) :
    ∃ u', packBits c value nbits u = .ok u' ∧ PackOk c u' ∧ u'.st = u.st ∧ u'.err = u.err ∧ u'.ocap = u.ocap ∧
      u'.pend.toNat ≤ 7 ∧
      8 * u'.olen.toNat + u'.pend.toNat = 8 * u.olen.toNat + u.pend.toNat + nbits ∧
      packedValue u' = packedValue u + value.toNat % 2 ^ nbits * 2 ^ (8 * u.olen.toNat + u.pend.toNat) ∧
      u.olen.toNat ≤ u'.olen.toNat ∧
      ∀ a, ¬ (u.olen.toNat ≤ a ∧ a < u'.olen.toNat) → u'.obuf.read a = u.obuf.read a := by
  obtain ⟨hmem, hst, _, hp7, hacc, hbits, hcap⟩ := h
  have hmod : value.toNat % 2 ^ nbits < 2 ^ nbits := Nat.mod_lt _ (by positivity)
  have hor : u.acc.toNat ||| value.toNat % 2 ^ nbits * 2 ^ u.pend.toNat =
      u.acc.toNat + value.toNat % 2 ^ nbits * 2 ^ u.pend.toNat := by
    rw [Nat.lor_comm, ← Nat.shiftLeft_eq, ← Nat.shiftLeft_add_eq_or_of_lt hacc, Nat.add_comm]
  have hsum : u.acc.toNat + value.toNat % 2 ^ nbits * 2 ^ u.pend.toNat < 2 ^ (u.pend.toNat + nbits) := by
    have h1 : (value.toNat % 2 ^ nbits + 1) * 2 ^ u.pend.toNat ≤ 2 ^ nbits * 2 ^ u.pend.toNat :=
      Nat.mul_le_mul_right _ hmod
    rw [pow_add, Nat.mul_comm (2 ^ u.pend.toNat)]
    nlinarith
  have h32 : u.acc.toNat + value.toNat % 2 ^ nbits * 2 ^ u.pend.toNat < 2 ^ 32 :=
    lt_of_lt_of_le hsum (Nat.pow_le_pow_right (by norm_num) (by omega))
  have hfit1 : fit 32 (u.acc.toNat ||| value.toNat % 2 ^ nbits * 2 ^ u.pend.toNat) =
      .ok (BitVec.ofNat 32 (u.acc.toNat + value.toNat % 2 ^ nbits * 2 ^ u.pend.toNat)) := by
    rw [hor, fit_ok h32]
  have hfit2 : fit 5 (u.pend.toNat + nbits) = .ok (BitVec.ofNat 5 (u.pend.toNat + nbits)) := fit_ok (by omega)
  have hn1 : (BitVec.ofNat 32 (u.acc.toNat + value.toNat % 2 ^ nbits * 2 ^ u.pend.toNat)).toNat =
      u.acc.toNat + value.toNat % 2 ^ nbits * 2 ^ u.pend.toNat := by rw [BitVec.toNat_ofNat, Nat.mod_eq_of_lt h32]
  have hn2 : (BitVec.ofNat 5 (u.pend.toNat + nbits)).toNat = u.pend.toNat + nbits := by
    rw [BitVec.toNat_ofNat, Nat.mod_eq_of_lt (by omega)]
  let v : Bpw := { u with
    acc := BitVec.ofNat 32 (u.acc.toNat + value.toNat % 2 ^ nbits * 2 ^ u.pend.toNat)
    pend := BitVec.ofNat 5 (u.pend.toNat + nbits) }
  have hv : PackOk c v := by
    refine ⟨hmem, hst, ?_⟩
    show (BitVec.ofNat 32 _).toNat < 2 ^ (BitVec.ofNat 5 _).toNat
    rw [hn1, hn2]
    exact hsum
  obtain ⟨u', h1, h2, h3⟩ := flushBytes_ok hc (n := 3) (u := v) hv
    (by show (BitVec.ofNat 5 _).toNat < _; rw [hn2]; omega)
    (by show 8 * u.olen.toNat + (BitVec.ofNat 5 _).toNat ≤ _; rw [hn2]; omega)
  refine ⟨u', ?_, h2.ok, h2.st, h2.err, h2.ocap, h3, ?_, ?_, h2.le, h2.bytes⟩
  · rw [packBits, hfit1, bind_ok, hfit2, bind_ok]
    exact h1
  · rw [h2.bits]
    show 8 * u.olen.toNat + (BitVec.ofNat 5 _).toNat = _
    rw [hn2]
    omega
  · rw [h2.value]
    show spelledLsb u.obuf 0 u.olen.toNat + (BitVec.ofNat 32 _).toNat * 256 ^ u.olen.toNat = _
    rw [hn1, packedValue, pow_add, show (256 : Nat) = 2 ^ 8 from rfl, ← pow_mul]
    ring

/-- Everything a successful FINISH of the writer does (R165): the stream's number does not change, only zero bits are added. -/
theorem finishPack_ok {c : Config} (hc : c.bufBytes ≤ 2 ^ 28) {u : Bpw} (h : bpwInv c u) :
    ∃ u', finishPack c u = .ok u' ∧ memoryOk u'.obuf c.bufBytes ∧ storedBelow u'.obuf u'.olen.toNat ∧
      u'.st = .idle ∧ u'.err = u.err ∧ u'.ocap = u.ocap ∧ u'.acc = 0 ∧ u'.pend = 0 ∧
      u'.olen.toNat = (8 * u.olen.toNat + u.pend.toNat + 7) / 8 ∧
      spelledLsb u'.obuf 0 u'.olen.toNat = packedValue u ∧ u.olen.toNat ≤ u'.olen.toNat ∧
      ∀ a, ¬ (u.olen.toNat ≤ a ∧ a < u'.olen.toNat) → u'.obuf.read a = u.obuf.read a := by
  obtain ⟨hmem, hst, _, hp7, hacc, hbits, hcap⟩ := h
  by_cases hp : 0 < u.pend.toNat
  · have hlen : u.olen.toNat < c.sizeOf .bpwObuf := by simp only [Config.sizeOf]; omega
    have hlen' : u.olen.toNat < c.bufBytes := hlen
    have hnat : (BitVec.ofNat 32 (u.olen.toNat + 1)).toNat = u.olen.toNat + 1 := by
      rw [BitVec.toNat_ofNat, Nat.mod_eq_of_lt (by omega)]
    have h256 : u.acc.toNat < 256 :=
      lt_of_lt_of_le hacc (le_trans (Nat.pow_le_pow_right (by norm_num) hp7) (by norm_num))
    have hbyte : (u.acc.setWidth 8).toNat = u.acc.toNat := by simp; omega
    refine ⟨{ u with
      obuf := u.obuf.write u.olen.toNat (u.acc.setWidth 8)
      olen := BitVec.ofNat 32 (u.olen.toNat + 1)
      acc := 0
      pend := 0
      st := .idle }, by rw [finishPack, if_pos hp, append_ok _ hlen (by omega), bind_ok], memoryOk_write _ hmem hlen', ?_,
      rfl, rfl, rfl, rfl, rfl, ?_, ?_, ?_, ?_⟩
    · simp only [hnat]; exact storedBelow_append _ hst
    · simp only [hnat]; omega
    · simp only [hnat, spelledLsb_append, hbyte, packedValue]
    · simp only [hnat]; omega
    · intro a ha
      simp only [hnat] at ha
      exact Memory.read_write_other _ _ (by omega)
  · have hp0 : u.pend.toNat = 0 := by omega
    have ha0 : u.acc.toNat = 0 := by rw [hp0] at hacc; simpa using hacc
    refine ⟨{ u with st := .idle }, by rw [finishPack, if_neg hp], hmem, hst, rfl, rfl, rfl, BitVec.eq_of_toNat_eq (by simpa using ha0),
      BitVec.eq_of_toNat_eq (by simpa using hp0), ?_, ?_, le_rfl, fun _ _ => rfl⟩
    · show u.olen.toNat = _
      omega
    · show spelledLsb u.obuf 0 u.olen.toNat = _
      simp [packedValue, ha0]

/-! ### The reader -/

/-- How many bytes READBITS takes from the buffer (R171). -/
def refillCount (nbits cnt : Nat) : Nat := (nbits - cnt + 7) / 8

/-- The refill of R171 with its bytes stored: the next bytes stand above the bits held. -/
theorem refill_ok {c : Config} {nbits n : Nat} {u : Bpr} (hn : nbits ≤ 24)
    (hacc : u.acc.toNat < 2 ^ u.cnt.toNat) (hfuel : nbits ≤ u.cnt.toNat + 8 * n)
    (hs : ∀ a, u.pos.toNat ≤ a → a < u.pos.toNat + refillCount nbits u.cnt.toNat →
      a < c.bufBytes ∧ (u.ibuf.read a).isSome)
    (hfit : u.pos.toNat + refillCount nbits u.cnt.toNat < 2 ^ 32) :
    ∃ u', refill c nbits n u = .ok u' ∧ u'.st = u.st ∧ u'.err = u.err ∧ u'.ilen = u.ilen ∧ u'.ibuf = u.ibuf ∧
      u'.pos.toNat = u.pos.toNat + refillCount nbits u.cnt.toNat ∧
      u'.cnt.toNat = u.cnt.toNat + 8 * refillCount nbits u.cnt.toNat ∧ nbits ≤ u'.cnt.toNat ∧
      u'.acc.toNat < 2 ^ u'.cnt.toNat ∧
      u'.acc.toNat = u.acc.toNat +
        2 ^ u.cnt.toNat * spelledLsb u.ibuf u.pos.toNat (refillCount nbits u.cnt.toNat) := by
  induction n generalizing u with
  | zero =>
    have h0 : refillCount nbits u.cnt.toNat = 0 := by unfold refillCount; omega
    exact ⟨u, rfl, rfl, rfl, rfl, rfl, by rw [h0]; rfl, by rw [h0]; rfl, by omega, hacc, by rw [h0]; simp [spelledLsb]⟩
  | succ n ih =>
    by_cases hlt : u.cnt.toNat < nbits
    · have hk : refillCount nbits u.cnt.toNat = refillCount nbits (u.cnt.toNat + 8) + 1 := by
        unfold refillCount; omega
      obtain ⟨hb, hsome⟩ := hs u.pos.toNat le_rfl (by omega)
      obtain ⟨b, hread⟩ := Option.isSome_iff_exists.1 hsome
      have hpos : (BitVec.ofNat 32 (u.pos.toNat + 1)).toNat = u.pos.toNat + 1 := by
        rw [BitVec.toNat_ofNat, Nat.mod_eq_of_lt (by omega)]
      have hcnt : (u.cnt + 8).toNat = u.cnt.toNat + 8 := by
        rw [BitVec.toNat_add]
        simp
        omega
      have hb256 := b.isLt
      have hpow : (2 : Nat) ^ (u.cnt.toNat + 8) ≤ 2 ^ 31 := Nat.pow_le_pow_right (by norm_num) (by omega)
      have hshift : (b.setWidth 32 <<< u.cnt.toNat).toNat = b.toNat * 2 ^ u.cnt.toNat := by
        rw [BitVec.toNat_shiftLeft, Nat.shiftLeft_eq, BitVec.toNat_setWidth, Nat.mod_eq_of_lt (by omega : b.toNat < 2 ^ 32),
          Nat.mod_eq_of_lt]
        rw [pow_add] at hpow
        nlinarith [Nat.one_le_two_pow (n := u.cnt.toNat)]
      have hor : (u.acc ||| (b.setWidth 32 <<< u.cnt.toNat)).toNat = u.acc.toNat + 2 ^ u.cnt.toNat * b.toNat := by
        rw [BitVec.toNat_or, hshift, Nat.lor_comm, ← Nat.shiftLeft_eq, ← Nat.shiftLeft_add_eq_or_of_lt hacc,
          Nat.shiftLeft_eq]
        ring
      let v : Bpr := { u with
        acc := u.acc ||| (b.setWidth 32 <<< u.cnt.toNat)
        cnt := u.cnt + 8
        pos := BitVec.ofNat 32 (u.pos.toNat + 1) }
      have hvacc : v.acc.toNat < 2 ^ v.cnt.toNat := by
        show (u.acc ||| _).toNat < 2 ^ (u.cnt + 8).toNat
        rw [hor, hcnt, pow_add]
        nlinarith [Nat.one_le_two_pow (n := u.cnt.toNat)]
      have hvc : v.cnt.toNat = u.cnt.toNat + 8 := hcnt
      have hvp : v.pos.toNat = u.pos.toNat + 1 := hpos
      obtain ⟨u', h1, h2, h3, h4, h5, h6, h7, h8, h9, h10⟩ := ih (u := v) hvacc (by rw [hvc]; omega)
        (by intro a ha1 ha2; rw [hvp] at ha1; rw [hvp, hvc] at ha2; exact hs a (by omega) (by omega))
        (by rw [hvp, hvc]; omega)
      refine ⟨u', ?_, h2, h3, h4, h5, by rw [h6, hvp, hvc]; omega, by rw [h7, hvc]; omega, h8, h9, ?_⟩
      · rw [refill, if_pos hlt, memRead_ok_iff.2 ⟨hb, hread⟩, bind_ok, fit_ok (by omega), bind_ok]
        exact h1
      · have hva : v.acc.toNat = u.acc.toNat + 2 ^ u.cnt.toNat * b.toNat := hor
        have hbyte : byteAt u.ibuf u.pos.toNat = b.toNat := by simp [byteAt, hread]
        rw [h10, hva, hvc, hvp, hk, spelledLsb, hbyte, pow_add]
        show _ + _ * 2 ^ 8 * spelledLsb u.ibuf _ _ = _
        ring
    · have h0 : refillCount nbits u.cnt.toNat = 0 := by unfold refillCount; omega
      exact ⟨u, by rw [refill, if_neg hlt], rfl, rfl, rfl, rfl, by rw [h0]; rfl, by rw [h0]; rfl, by omega, hacc,
        by rw [h0]; simp [spelledLsb]⟩

/-- The bits READBITS returns, as a number (R171). -/
theorem takeBits_toNat (acc : BitVec 32) {nbits : Nat} (h : nbits ≤ 24) :
    (takeBits acc nbits).toNat = acc.toNat % 2 ^ nbits := by
  have h1 : (2 : Nat) ^ nbits ≤ 2 ^ 24 := Nat.pow_le_pow_right (by norm_num) h
  have h2 : 2 ^ nbits - 1 < 2 ^ 32 := by omega
  rw [takeBits, BitVec.toNat_and, BitVec.toNat_ofNat, Nat.mod_eq_of_lt h2, Nat.and_two_pow_sub_one_eq_mod]

end Sys2Proof.Machine
end

