-- ==== Sys2Proof/Laws/Encoding.lean ====
section
/-!
SUPPORT. The fields and the fixed bits of every command format (spec/30_encoding.md R92 to R103), and the opcode map's rows
kept apart by their fixed bits (R105).
-/
namespace Sys2Proof

/-- Two rows no word fits both of: a bit both masks fix, to different values. -/
def Row.apart (r r' : Row) : Bool := !(r.pattern &&& r'.mask == r'.pattern &&& r.mask)

/-- The rows of the opcode map are pairwise disjoint (R105). -/
theorem rows_pairwise_apart : rows.Pairwise fun r r' => r.apart r' = true := by decide

/-- A word fits at most one of two rows kept apart. -/
theorem Row.not_fits_of_apart {r r' : Row} {w : Word64} (h : r.apart r' = true) (hw : r'.fits w = true) :
    r.fits w = false := by
  by_contra hc
  have hr : r.fits w = true := by simpa using hc
  have h1 : w &&& r.mask = r.pattern := by simpa [Row.fits] using hr
  have h2 : w &&& r'.mask = r'.pattern := by simpa [Row.fits] using hw
  have h3 : r.pattern &&& r'.mask = r'.pattern &&& r.mask := by
    rw [← h1, ← h2, BitVec.and_assoc, BitVec.and_assoc, BitVec.and_comm r.mask]
  simp [Row.apart, h3] at h

/-- In a list of rows kept apart, the first row a word fits is the only one. -/
theorem find_fits_of_mem {l : List Row} (hl : l.Pairwise fun r r' => r.apart r' = true) {r : Row} (hr : r ∈ l)
    {w : Word64} (hw : r.fits w = true) : l.find? (fun r => r.fits w) = some r := by
  induction l with
  | nil => cases hr
  | cons a rest ih =>
    replace hl := List.pairwise_cons.1 hl
    rcases List.mem_cons.1 hr with rfl | h
    · simp [hw]
    · have := Row.not_fits_of_apart (hl.1 r h) hw
      simp [this, ih hl.2 h]

/-- A word that fits a row of the opcode map decodes through that row (R111). -/
theorem decode_of_fits {r : Row} (hr : r ∈ rows) {w : Word64} (hw : r.fits w = true) :
    decode w = some (r.make w) := by
  rw [decode, find_fits_of_mem rows_pairwise_apart hr hw]
  rfl

/-- What the decoder answers comes from a row the word fits (R111). -/
theorem exists_row_of_decode {w : Word64} {i : Instr} (h : decode w = some i) :
    ∃ r ∈ rows, r.fits w = true ∧ r.make w = i := by
  rw [decode, Option.map_eq_some_iff] at h
  obtain ⟨r, h1, h2⟩ := h
  exact ⟨r, List.mem_of_find?_eq_some h1, by simpa using List.find?_some h1, h2⟩

/-- The decoder answers nothing exactly for a word that fits no row (R106, R111). -/
theorem decode_eq_none_iff {w : Word64} : decode w = none ↔ ∀ r ∈ rows, r.fits w = false := by
  simp [decode]

/-! ### Fields -/

@[simp] theorem formatL_imm (op : BitVec 8) (imm : BitVec 32) : (formatL op imm).extractLsb' 0 32 = imm := by
  rw [formatL, BitVec.extractLsb'_append_eq_of_add_le (by omega)]
  exact BitVec.extractLsb'_eq_self

@[simp] theorem formatP_b (op b : BitVec 8) : (formatP op b).extractLsb' 0 8 = b := by
  rw [formatP, BitVec.extractLsb'_append_eq_of_add_le (by omega)]
  exact BitVec.extractLsb'_eq_self

@[simp] theorem formatV_nbits (op nbits : BitVec 8) (value : BitVec 32) : (formatV op nbits value).extractLsb' 32 8 = nbits := by
  rw [formatV, BitVec.extractLsb'_append_eq_of_le (by omega), BitVec.extractLsb'_append_eq_of_add_le (by omega)]
  exact BitVec.extractLsb'_eq_self

@[simp] theorem formatV_value (op nbits : BitVec 8) (value : BitVec 32) : (formatV op nbits value).extractLsb' 0 32 = value := by
  rw [formatV, BitVec.extractLsb'_append_eq_of_add_le (by omega)]
  exact BitVec.extractLsb'_eq_self

@[simp] theorem formatN_nbits (op nbits : BitVec 8) : (formatN op nbits).extractLsb' 32 8 = nbits := by
  rw [formatN, BitVec.extractLsb'_append_eq_of_le (by omega), BitVec.extractLsb'_append_eq_of_add_le (by omega)]
  exact BitVec.extractLsb'_eq_self

@[simp] theorem formatPR_top (mode : BitVec 4) (top : BitVec 16) (left : BitVec 32) : (formatPR mode top left).extractLsb' 32 16 = top := by
  rw [formatPR, BitVec.extractLsb'_append_eq_of_le (by omega), BitVec.extractLsb'_append_eq_of_add_le (by omega)]
  exact BitVec.extractLsb'_eq_self

@[simp] theorem formatPR_left (mode : BitVec 4) (top : BitVec 16) (left : BitVec 32) : (formatPR mode top left).extractLsb' 0 32 = left := by
  rw [formatPR, BitVec.extractLsb'_append_eq_of_add_le (by omega)]
  exact BitVec.extractLsb'_eq_self

@[simp] theorem formatA_count (op : BitVec 8) (addr count : BitVec 16) : (formatA op addr count).extractLsb' 16 16 = count := by
  rw [formatA, BitVec.extractLsb'_append_eq_of_le (by omega), BitVec.extractLsb'_append_eq_of_add_le (by omega)]
  exact BitVec.extractLsb'_eq_self

@[simp] theorem formatA_addr (op : BitVec 8) (addr count : BitVec 16) : (formatA op addr count).extractLsb' 0 16 = addr := by
  rw [formatA, BitVec.extractLsb'_append_eq_of_add_le (by omega)]
  exact BitVec.extractLsb'_eq_self

@[simp] theorem formatA3_count (op : BitVec 8) (src dst count : BitVec 16) : (formatA3 op src dst count).extractLsb' 32 16 = count := by
  rw [formatA3, BitVec.extractLsb'_append_eq_of_le (by omega), BitVec.extractLsb'_append_eq_of_le (by omega), BitVec.extractLsb'_append_eq_of_add_le (by omega)]
  exact BitVec.extractLsb'_eq_self

@[simp] theorem formatA3_dst (op : BitVec 8) (src dst count : BitVec 16) : (formatA3 op src dst count).extractLsb' 16 16 = dst := by
  rw [formatA3, BitVec.extractLsb'_append_eq_of_le (by omega), BitVec.extractLsb'_append_eq_of_add_le (by omega)]
  exact BitVec.extractLsb'_eq_self

@[simp] theorem formatA3_src (op : BitVec 8) (src dst count : BitVec 16) : (formatA3 op src dst count).extractLsb' 0 16 = src := by
  rw [formatA3, BitVec.extractLsb'_append_eq_of_add_le (by omega)]
  exact BitVec.extractLsb'_eq_self

@[simp] theorem formatM_g2r (op g2r g2b r2b : BitVec 8) : (formatM op g2r g2b r2b).extractLsb' 16 8 = g2r := by
  rw [formatM, BitVec.extractLsb'_append_eq_of_le (by omega), BitVec.extractLsb'_append_eq_of_le (by omega), BitVec.extractLsb'_append_eq_of_add_le (by omega)]
  exact BitVec.extractLsb'_eq_self

@[simp] theorem formatM_g2b (op g2r g2b r2b : BitVec 8) : (formatM op g2r g2b r2b).extractLsb' 8 8 = g2b := by
  rw [formatM, BitVec.extractLsb'_append_eq_of_le (by omega), BitVec.extractLsb'_append_eq_of_add_le (by omega)]
  exact BitVec.extractLsb'_eq_self

@[simp] theorem formatM_r2b (op g2r g2b r2b : BitVec 8) : (formatM op g2r g2b r2b).extractLsb' 0 8 = r2b := by
  rw [formatM, BitVec.extractLsb'_append_eq_of_add_le (by omega)]
  exact BitVec.extractLsb'_eq_self

@[simp] theorem formatB_bit (op : BitVec 8) (bit : Bool) (prob : BitVec 8) : (formatB op bit prob).getLsbD 8 = bit := by
  rw [formatB, BitVec.getLsbD_append, if_neg (by omega), BitVec.getLsbD_append, if_pos (by omega)]
  cases bit <;> rfl

@[simp] theorem formatB_prob (op : BitVec 8) (bit : Bool) (prob : BitVec 8) : (formatB op bit prob).extractLsb' 0 8 = prob := by
  rw [formatB, BitVec.extractLsb'_append_eq_of_add_le (by omega)]
  exact BitVec.extractLsb'_eq_self

/-! ### Fixed bits -/

/-- The bits a row of this format fixes (R105). -/
theorem formatZ_fixed (op : BitVec 8) : formatZ op &&& 0xFFFFFFFFFFFFFFFF =
    (op : BitVec 8) ++ (0 : BitVec 56) := by
  have h : (0xFFFFFFFFFFFFFFFF : Word64) = (0xFF : BitVec 8) ++ (0xFFFFFFFFFFFFFF : BitVec 56) := by decide
  rw [formatZ, h, BitVec.and_append]
  congr
  all_goals exact BitVec.and_allOnes

/-- The bits a row of this format fixes (R105). -/
theorem formatL_fixed (op : BitVec 8) (imm : BitVec 32) : formatL op imm &&& 0xFFFFFFFF00000000 =
    (op : BitVec 8) ++ (0 : BitVec 24) ++ (0 : BitVec 32) := by
  have h : (0xFFFFFFFF00000000 : Word64) = (0xFF : BitVec 8) ++ (0xFFFFFF : BitVec 24) ++ (0x0 : BitVec 32) := by decide
  rw [formatL, h, BitVec.and_append, BitVec.and_append]
  congr
  all_goals first | exact BitVec.and_allOnes | exact BitVec.and_zero

/-- The bits a row of this format fixes (R105). -/
theorem formatP_fixed (op b : BitVec 8) : formatP op b &&& 0xFFFFFFFFFFFFFF00 =
    (op : BitVec 8) ++ (0 : BitVec 48) ++ (0 : BitVec 8) := by
  have h : (0xFFFFFFFFFFFFFF00 : Word64) = (0xFF : BitVec 8) ++ (0xFFFFFFFFFFFF : BitVec 48) ++ (0x0 : BitVec 8) := by decide
  rw [formatP, h, BitVec.and_append, BitVec.and_append]
  congr
  all_goals first | exact BitVec.and_allOnes | exact BitVec.and_zero

/-- The bits a row of this format fixes (R105). -/
theorem formatV_fixed (op nbits : BitVec 8) (value : BitVec 32) : formatV op nbits value &&& 0xFFFFFF0000000000 =
    (op : BitVec 8) ++ (0 : BitVec 16) ++ (0 : BitVec 8) ++ (0 : BitVec 32) := by
  have h : (0xFFFFFF0000000000 : Word64) = (0xFF : BitVec 8) ++ (0xFFFF : BitVec 16) ++ (0x0 : BitVec 8) ++ (0x0 : BitVec 32) := by decide
  rw [formatV, h, BitVec.and_append, BitVec.and_append, BitVec.and_append]
  congr
  all_goals first | exact BitVec.and_allOnes | exact BitVec.and_zero

/-- The bits a row of this format fixes (R105). -/
theorem formatN_fixed (op nbits : BitVec 8) : formatN op nbits &&& 0xFFFFFF00FFFFFFFF =
    (op : BitVec 8) ++ (0 : BitVec 16) ++ (0 : BitVec 8) ++ (0 : BitVec 32) := by
  have h : (0xFFFFFF00FFFFFFFF : Word64) = (0xFF : BitVec 8) ++ (0xFFFF : BitVec 16) ++ (0x0 : BitVec 8) ++ (0xFFFFFFFF : BitVec 32) := by decide
  rw [formatN, h, BitVec.and_append, BitVec.and_append, BitVec.and_append]
  congr
  all_goals first | exact BitVec.and_allOnes | exact BitVec.and_zero

/-- The bits a row of this format fixes (R105). -/
theorem formatPR_fixed (mode : BitVec 4) (top : BitVec 16) (left : BitVec 32) : formatPR mode top left &&& 0xFFFF000000000000 =
    (0x30 : BitVec 8) ++ (mode : BitVec 4) ++ (0 : BitVec 4) ++ (0 : BitVec 16) ++ (0 : BitVec 32) := by
  have h : (0xFFFF000000000000 : Word64) = (0xFF : BitVec 8) ++ (0xF : BitVec 4) ++ (0xF : BitVec 4) ++ (0x0 : BitVec 16) ++ (0x0 : BitVec 32) := by decide
  rw [formatPR, h, BitVec.and_append, BitVec.and_append, BitVec.and_append, BitVec.and_append]
  congr
  all_goals first | exact BitVec.and_allOnes | exact BitVec.and_zero

/-- The bits a row of this format fixes (R105). -/
theorem formatA_fixed (op : BitVec 8) (addr count : BitVec 16) : formatA op addr count &&& 0xFFFFFFFF00000000 =
    (op : BitVec 8) ++ (0 : BitVec 24) ++ (0 : BitVec 16) ++ (0 : BitVec 16) := by
  have h : (0xFFFFFFFF00000000 : Word64) = (0xFF : BitVec 8) ++ (0xFFFFFF : BitVec 24) ++ (0x0 : BitVec 16) ++ (0x0 : BitVec 16) := by decide
  rw [formatA, h, BitVec.and_append, BitVec.and_append, BitVec.and_append]
  congr
  all_goals first | exact BitVec.and_allOnes | exact BitVec.and_zero

/-- The bits a row of this format fixes (R105). -/
theorem formatA3_fixed (op : BitVec 8) (src dst count : BitVec 16) : formatA3 op src dst count &&& 0xFFFF000000000000 =
    (op : BitVec 8) ++ (0 : BitVec 8) ++ (0 : BitVec 16) ++ (0 : BitVec 16) ++ (0 : BitVec 16) := by
  have h : (0xFFFF000000000000 : Word64) = (0xFF : BitVec 8) ++ (0xFF : BitVec 8) ++ (0x0 : BitVec 16) ++ (0x0 : BitVec 16) ++ (0x0 : BitVec 16) := by decide
  rw [formatA3, h, BitVec.and_append, BitVec.and_append, BitVec.and_append, BitVec.and_append]
  congr
  all_goals first | exact BitVec.and_allOnes | exact BitVec.and_zero

/-- The bits a row of this format fixes (R105). -/
theorem formatM_fixed (op g2r g2b r2b : BitVec 8) : formatM op g2r g2b r2b &&& 0xFFFFFFFFFF000000 =
    (op : BitVec 8) ++ (0 : BitVec 32) ++ (0 : BitVec 8) ++ (0 : BitVec 8) ++ (0 : BitVec 8) := by
  have h : (0xFFFFFFFFFF000000 : Word64) = (0xFF : BitVec 8) ++ (0xFFFFFFFF : BitVec 32) ++ (0x0 : BitVec 8) ++ (0x0 : BitVec 8) ++ (0x0 : BitVec 8) := by decide
  rw [formatM, h, BitVec.and_append, BitVec.and_append, BitVec.and_append, BitVec.and_append]
  congr
  all_goals first | exact BitVec.and_allOnes | exact BitVec.and_zero

/-- The bits a row of this format fixes (R105). -/
theorem formatB_fixed (op : BitVec 8) (bit : Bool) (prob : BitVec 8) : formatB op bit prob &&& 0xFFFFFFFFFFFFFE00 =
    (op : BitVec 8) ++ (0 : BitVec 47) ++ (0 : BitVec 1) ++ (0 : BitVec 8) := by
  have h : (0xFFFFFFFFFFFFFE00 : Word64) = (0xFF : BitVec 8) ++ (0x7FFFFFFFFFFF : BitVec 47) ++ (0x0 : BitVec 1) ++ (0x0 : BitVec 8) := by decide
  rw [formatB, h, BitVec.and_append, BitVec.and_append, BitVec.and_append]
  congr
  all_goals first | exact BitVec.and_allOnes | exact BitVec.and_zero

end Sys2Proof
end

