-- ==== Sys2Proof/Laws/Pixels.lean ====
section
/-!
SUPPORT. Lanes (spec/00_scope.md R12), the integer operators (R11), the clamp and the averages (spec/42_predictors.md R191, R193),
and what a command over a range of pixels does (spec/43_color_transform.md R232, R237).
-/
namespace Sys2Proof.Machine

/-! ### Lanes -/

theorem lane_toNat (p : Pixel) (k : Nat) : (lane p k).toNat = p.toNat / 2 ^ (8 * k) % 256 := by
  rw [lane, BitVec.extractLsb'_toNat, Nat.shiftRight_eq_div_pow]

@[simp] theorem lane_pack_three (a r g b : Byte) : lane (pack a r g b) 3 = a := by
  rw [lane, pack, BitVec.extractLsb'_append_eq_of_le (by omega), BitVec.extractLsb'_append_eq_of_le (by omega),
    BitVec.extractLsb'_append_eq_of_le (by omega)]
  exact BitVec.extractLsb'_eq_self

@[simp] theorem lane_pack_two (a r g b : Byte) : lane (pack a r g b) 2 = r := by
  rw [lane, pack, BitVec.extractLsb'_append_eq_of_le (by omega), BitVec.extractLsb'_append_eq_of_le (by omega),
    BitVec.extractLsb'_append_eq_of_add_le (by omega)]
  exact BitVec.extractLsb'_eq_self

@[simp] theorem lane_pack_one (a r g b : Byte) : lane (pack a r g b) 1 = g := by
  rw [lane, pack, BitVec.extractLsb'_append_eq_of_le (by omega), BitVec.extractLsb'_append_eq_of_add_le (by omega)]
  exact BitVec.extractLsb'_eq_self

@[simp] theorem lane_pack_zero (a r g b : Byte) : lane (pack a r g b) 0 = b := by
  rw [lane, pack, BitVec.extractLsb'_append_eq_of_add_le (by omega)]
  exact BitVec.extractLsb'_eq_self

/-- A pixel is its four lanes. -/
theorem pack_lanes (p : Pixel) : pack (lane p 3) (lane p 2) (lane p 1) (lane p 0) = p := by
  apply BitVec.eq_of_toNat_eq
  have h := p.isLt
  simp only [pack, BitVec.toNat_append, lane_toNat, Nat.shiftLeft_eq]
  have hor : ∀ a b k : Nat, b < 2 ^ k → a * 2 ^ k ||| b = a * 2 ^ k + b := by
    intro a b k hb
    rw [← Nat.shiftLeft_eq, Nat.shiftLeft_add_eq_or_of_lt hb]
  rw [hor _ _ 8 (by omega), hor _ _ 8 (by omega), hor _ _ 8 (by omega)]
  omega

/-- Two pixels with the same four lanes are the same. -/
theorem pixel_ext {p q : Pixel} (h : ∀ k, k < 4 → lane p k = lane q k) : p = q := by
  rw [← pack_lanes p, ← pack_lanes q, h 3 (by omega), h 2 (by omega), h 1 (by omega), h 0 (by omega)]

theorem lane_packLanes (f : Nat → Byte) {k : Nat} (hk : k < 4) : lane (packLanes f) k = f k := by
  have : k = 0 ∨ k = 1 ∨ k = 2 ∨ k = 3 := by omega
  rcases this with rfl | rfl | rfl | rfl <;> simp [packLanes]

/-! ### Byte arithmetic -/

/-- `u8(x)` is x mod 256. -/
theorem u8_toNat (x : Int) : ((u8 x).toNat : Int) = x % 256 := by
  rw [u8, BitVec.toNat_ofInt]
  have h : 0 ≤ x % 256 := Int.emod_nonneg _ (by norm_num)
  exact Int.toNat_of_nonneg h

/-- Adding back what was subtracted mod 256 gives the byte again (R234, R239). -/
theorem u8_sub_add (x : Byte) (d : Int) : u8 (chan (u8 (chan x - d)) + d) = x := by
  apply BitVec.eq_of_toNat_eq
  have h1 := u8_toNat (chan (u8 (chan x - d)) + d)
  have h2 := u8_toNat (chan x - d)
  have h3 := x.isLt
  unfold chan at *
  omega

/-- Subtracting what was added mod 256 gives the byte again. -/
theorem u8_add_sub (x : Byte) (d : Int) : u8 (chan (u8 (chan x + d)) - d) = x := by
  have := u8_sub_add x (-d)
  rwa [sub_neg_eq_add, ← sub_eq_add_neg] at this

/-- The clamp saturates to 0..255 every value in −2^24 ≤ x < 2^24 (R193). -/
theorem clip255_toNat {x : Int} (h1 : -(2 ^ 24) ≤ x) (h2 : x < 2 ^ 24) :
    ((clip255 x).toNat : Int) = min 255 (max 0 x) := by
  have hu : ((u32 x).toNat : Int) = x % 2 ^ 32 := by
    rw [u32, BitVec.toNat_ofInt]
    exact Int.toNat_of_nonneg (Int.emod_nonneg _ (by norm_num))
  have hlt : (u32 x < 256) ↔ (u32 x).toNat < 256 := BitVec.lt_def
  show (((if u32 x < 256 then u32 x else ~~~(u32 x) >>> 24).setWidth 8 : Byte).toNat : Int) = _
  by_cases hc : (u32 x).toNat < 256
  · rw [if_pos (hlt.2 hc), BitVec.toNat_setWidth, Nat.mod_eq_of_lt (by omega)]
    rw [hu]
    omega
  · rw [if_neg (fun h => hc (hlt.1 h)), BitVec.toNat_setWidth, BitVec.toNat_ushiftRight, Nat.shiftRight_eq_div_pow,
      BitVec.toNat_not]
    have := (u32 x).isLt
    omega

/-! ### Averages -/

/-- The bit trick of R191 on one pair of numbers whose lanes do not carry. -/
theorem add_eq_xor_add_two_mul_and (a b : Nat) : a + b = (a ^^^ b) + 2 * (a &&& b) := by
  have h : (a ^^^ b) + 2 * (a &&& b) = a + b := by
    induction a using Nat.binaryRec generalizing b with
    | zero => simp
    | bit x n ih =>
      cases b using Nat.binaryRec with
      | zero => simp
      | bit y m ihm =>
        rw [Nat.xor_bit, Nat.land_bit]
        have := ih m
        cases x <;> cases y <;> simp [Nat.bit_val] <;> omega
  exact h.symm

/-! ### A range of pixels -/

/-- Everything a range command does inside PMEM, once the words it reads before it wrote them are written (R232, R237): the words
outside `dst .. dst + n − 1` stay, and word `dst + i` is the function of what stood at `src + i` when pixel i was read: an
earlier result where the range `dst ..` had already reached that word, the old word otherwise. -/
theorem mapPixels_ok {c : Config} (f : Pixel → Pixel) {n src dst : Nat} {m : Memory 32}
    (hm : memoryOk m c.pmemWords) (hs : src + n ≤ c.pmemWords) (hd : dst + n ≤ c.pmemWords)
    (hw : ∀ i, i < n → (src < dst ∧ dst ≤ src + i) ∨ (m.read (src + i)).isSome) :
    ∃ m', mapPixels c f n src dst m = .ok m' ∧ memoryOk m' c.pmemWords ∧
      (∀ a, ¬ (dst ≤ a ∧ a < dst + n) → m'.read a = m.read a) ∧
      ∀ i, i < n → m'.read (dst + i) =
        (if src < dst ∧ dst ≤ src + i then m'.read (src + i) else m.read (src + i)).map f := by
  induction n generalizing src dst m with
  | zero => exact ⟨m, rfl, hm, fun _ _ => rfl, fun i hi => absurd hi (by omega)⟩
  | succ n ih =>
    have h0 : (m.read src).isSome := by
      rcases hw 0 (by omega) with h | h
      · omega
      · simpa using h
    obtain ⟨p, hp⟩ := Option.isSome_iff_exists.1 h0
    have hread : memRead c .pmem m src = .ok p := memRead_ok_iff.2 ⟨by simp only [Config.sizeOf]; omega, hp⟩
    have hwrite : memWrite c .pmem m dst (f p) = .ok (m.write dst (f p)) :=
      memWrite_ok _ (by simp only [Config.sizeOf]; omega)
    obtain ⟨m', h1, h2, h3, h4⟩ := ih (src := src + 1) (dst := dst + 1) (m := m.write dst (f p))
      (memoryOk_write _ hm (by omega)) (by omega) (by omega) (by
        intro i hi
        rcases hw (i + 1) (by omega) with h | h
        · by_cases he : dst = src + (i + 1)
          · right
            rw [Memory.read_write, if_pos (by omega)]
            rfl
          · left; omega
        · right
          rw [Memory.read_write]
          split
          · rfl
          · rw [show src + 1 + i = src + (i + 1) by omega]; exact h)
    refine ⟨m', by rw [mapPixels, hread, bind_ok, hwrite, bind_ok, h1], h2, ?_, ?_⟩
    · intro a ha
      rw [h3 a (by omega), Memory.read_write_other _ _ (by omega)]
    · intro i hi
      cases i with
      | zero =>
        rw [if_neg (by omega), Nat.add_zero, Nat.add_zero, h3 dst (by omega), Memory.read_write_same, hp]
        rfl
      | succ i =>
        have := h4 i (by omega)
        rw [show dst + 1 + i = dst + (i + 1) by omega, show src + 1 + i = src + (i + 1) by omega] at this
        rw [this]
        congr 1
        by_cases hc : src < dst ∧ dst ≤ src + (i + 1)
        · rw [if_pos hc]
          by_cases he : dst = src + (i + 1)
          · rw [if_neg (by omega), ← he, h3 dst (by omega)]
          · rw [if_pos (by omega)]
        · rw [if_neg hc, if_neg (by omega), Memory.read_write_other _ _ (by omega)]

/-- Inside PMEM a range command stops only at a word nothing has written (R63). -/
theorem mapPixels_error {c : Config} {f : Pixel → Pixel} {n src dst : Nat} {m : Memory 32} {e : Fault}
    (hs : src + n ≤ c.pmemWords) (hd : dst + n ≤ c.pmemWords) (h : mapPixels c f n src dst m = .error e) :
    ∃ a, src ≤ a ∧ a < src + n ∧ e = .unwrittenRead .pmem a ∧ m.read a = none := by
  induction n generalizing src dst m with
  | zero => exact absurd h (by simp [mapPixels])
  | succ n ih =>
    have hlt : src < c.sizeOf .pmem := by simp only [Config.sizeOf]; omega
    rw [mapPixels] at h
    cases hr : memRead c .pmem m src with
    | error e' =>
      rw [hr] at h
      obtain ⟨h1, h2⟩ := memRead_error hlt hr
      have : e = e' := by simpa [bind, Except.bind] using h.symm
      exact ⟨src, le_rfl, by omega, by rw [this, h1], h2⟩
    | ok p =>
      rw [hr, bind_ok, memWrite_ok _ (by simp only [Config.sizeOf]; omega), bind_ok] at h
      obtain ⟨a, h1, h2, h3, h4⟩ := ih (by omega) (by omega) h
      refine ⟨a, by omega, by omega, h3, ?_⟩
      by_contra hne
      rw [Memory.read_write] at h4
      split at h4
      · exact absurd h4 (by simp)
      · exact hne h4

end Sys2Proof.Machine
end

