-- ==== Sys2Proof/Laws/RangeCoder.lean ====
section
/-!
SUPPORT. What the range coder's procedures do (spec/40_range_coder.md R122 to R141): the byte assembler, the held and
outstanding bits, the shifts, as changes of the number the stream spells.
-/
namespace Sys2Proof.Machine

/-! ### Split and shift count -/

/-- Both sub-intervals are non-empty (R122). -/
theorem split_bounds {range prob : Nat} (hr : 128 ≤ range) (hp : prob < 256) :
    1 ≤ split range prob ∧ split range prob < range := by
  unfold split
  refine ⟨by omega, ?_⟩
  have h1 : (range - 1) * prob ≤ (range - 1) * 255 := Nat.mul_le_mul_left _ (by omega)
  have h2 : (range - 1) * prob / 2 ^ 8 ≤ (range - 1) * 255 / 256 := Nat.div_le_div_right h1
  omega

theorem nshift_le (r : Nat) : nshift r ≤ 7 := by
  unfold nshift
  split_ifs <;> omega

/-- After the shifts the width is back in 128..255 (R128). -/
theorem nshift_band {r : Nat} (h1 : 1 ≤ r) (h2 : r < 256) :
    128 ≤ r * 2 ^ nshift r ∧ r * 2 ^ nshift r < 256 := by
  unfold nshift
  split_ifs <;> constructor <;> norm_num <;> omega

/-- The shift count is the least one (R128). -/
theorem nshift_least {r n : Nat} (h2 : r < 256) (hn : n < nshift r) : r * 2 ^ n < 128 := by
  have h7 := nshift_le r
  have : n = 0 ∨ n = 1 ∨ n = 2 ∨ n = 3 ∨ n = 4 ∨ n = 5 ∨ n = 6 := by omega
  unfold nshift at hn
  rcases this with rfl | rfl | rfl | rfl | rfl | rfl | rfl <;> split_ifs at hn <;> omega

/-! ### Spelled numbers -/

/-- Bytes at and above the length do not count. -/
theorem spelledMsb_congr {m m' : Memory 8} {n : Nat} (h : ∀ a, a < n → m'.read a = m.read a) :
    spelledMsb m' n = spelledMsb m n := by
  induction n with
  | zero => rfl
  | succ n ih =>
    have hn : m'.read n = m.read n := h n (by omega)
    simp only [spelledMsb, byteAt, hn, ih fun a ha => h a (by omega)]

/-- A byte appended at the length is the next digit to base 256. -/
theorem spelledMsb_append (m : Memory 8) (n : Nat) (b : Byte) :
    spelledMsb (m.write n b) (n + 1) = spelledMsb m n * 256 + b.toNat := by
  have h : spelledMsb (m.write n b) n = spelledMsb m n :=
    spelledMsb_congr fun a ha => Memory.read_write_other m b (by omega)
  simp [spelledMsb, h, byteAt]

theorem spelledMsb_lt (m : Memory 8) (n : Nat) : spelledMsb m n < 256 ^ n := by
  induction n with
  | zero => simp [spelledMsb]
  | succ n ih =>
    have hb : byteAt m n < 256 := by unfold byteAt; omega
    rw [spelledMsb, pow_succ]
    omega

/-! ### The byte assembler -/

/-- The bits the assembler has been given: in the buffer or pending. -/
def finalBits (u : Rce) : Nat := 8 * u.olen.toNat + u.pcnt.toNat

/-- Those bits as a number. -/
def finalValue (u : Rce) : Nat := spelledMsb u.obuf u.olen.toNat * 2 ^ u.pcnt.toNat + u.pbyte.toNat

/-- The assembler's own invariant: buffer canonical, bytes stored below the length, pending bits only (R27, R31 b). -/
structure AsmOk (c : Config) (u : Rce) : Prop where
  mem : memoryOk u.obuf c.bufBytes
  stored : storedBelow u.obuf u.olen.toNat
  pending : u.pbyte.toNat < 2 ^ u.pcnt.toNat

/-- Nothing outside the assembler changed. -/
structure SameRegs (u u' : Rce) : Prop where
  st : u'.st = u.st
  err : u'.err = u.err
  range : u'.range = u.range
  low : u'.low = u.low
  held : u'.held = u.held
  outst : u'.outst = u.outst
  bitpos : u'.bitpos = u.bitpos
  ocap : u'.ocap = u.ocap

/-- Only bytes between the two lengths were stored (R61). -/
structure Appended (u u' : Rce) : Prop where
  le : u.olen.toNat ≤ u'.olen.toNat
  bytes : ∀ a, ¬ (u.olen.toNat ≤ a ∧ a < u'.olen.toNat) → u'.obuf.read a = u.obuf.read a

theorem SameRegs.refl (u : Rce) : SameRegs u u := ⟨rfl, rfl, rfl, rfl, rfl, rfl, rfl, rfl⟩

theorem SameRegs.trans {u v w : Rce} (h : SameRegs u v) (h' : SameRegs v w) : SameRegs u w :=
  ⟨h'.st.trans h.st, h'.err.trans h.err, h'.range.trans h.range, h'.low.trans h.low, h'.held.trans h.held,
    h'.outst.trans h.outst, h'.bitpos.trans h.bitpos, h'.ocap.trans h.ocap⟩

theorem Appended.refl (u : Rce) : Appended u u := ⟨le_rfl, fun _ _ => rfl⟩

theorem Appended.trans {u v w : Rce} (h : Appended u v) (h' : Appended v w) : Appended u w :=
  ⟨h.le.trans h'.le, fun a ha => by
    have h1 := h.le
    have h2 := h'.le
    rw [h'.bytes a (by omega), h.bytes a (by omega)]⟩

/-- The pending byte with one more bit. -/
theorem pendingByte_toNat (p : Byte) (b : Bool) (h : p.toNat < 128) :
    ((p <<< 1) ||| (BitVec.ofBool b).setWidth 8 : Byte).toNat = 2 * p.toNat + b.toNat := by
  have hs : (p <<< 1 : Byte).toNat = p.toNat <<< 1 := by
    rw [BitVec.toNat_shiftLeft, Nat.mod_eq_of_lt]
    rw [Nat.shiftLeft_eq]
    omega
  have hb : ((BitVec.ofBool b).setWidth 8 : Byte).toNat = b.toNat := by cases b <;> rfl
  rw [BitVec.toNat_or, hs, hb, ← Nat.shiftLeft_add_eq_or_of_lt (by cases b <;> decide), Nat.shiftLeft_eq]
  omega

/-- `u'` is `u` after the assembler was given `k` bits that spell `v` (R126). -/
structure Emitted (c : Config) (u u' : Rce) (k v : Nat) : Prop where
  asm : AsmOk c u'
  same : SameRegs u u'
  appended : Appended u u'
  bits : finalBits u' = finalBits u + k
  value : finalValue u' = finalValue u * 2 ^ k + v

theorem Emitted.refl {c : Config} {u : Rce} (h : AsmOk c u) : Emitted c u u 0 0 :=
  ⟨h, SameRegs.refl u, Appended.refl u, rfl, by simp⟩

theorem Emitted.trans {c : Config} {u v w : Rce} {k l x y : Nat} (h : Emitted c u v k x) (h' : Emitted c v w l y) :
    Emitted c u w (k + l) (x * 2 ^ l + y) :=
  ⟨h'.asm, h.same.trans h'.same, h.appended.trans h'.appended, by rw [h'.bits, h.bits]; omega,
    by rw [h'.value, h.value]; ring⟩

/-- `emit_bit` with room in the buffer appends one bit to the final bits (R126). -/
theorem emitBit_ok {c : Config} (hc : c.bufBytes ≤ 2 ^ 28) (b : Bool) {u : Rce} (h : AsmOk c u)
    (room : finalBits u < 8 * c.bufBytes) : ∃ u', emitBit c b u = .ok u' ∧ Emitted c u u' 1 b.toNat := by
  have hp : u.pbyte.toNat < 2 ^ u.pcnt.toNat := h.pending
  have hp7 : u.pcnt.toNat ≤ 7 := by omega
  have hpb : u.pbyte.toNat < 128 := lt_of_lt_of_le hp (Nat.pow_le_pow_right (by norm_num) hp7)
  have hb : b.toNat ≤ 1 := by cases b <;> decide
  by_cases h7 : u.pcnt = 7
  · have h7n : u.pcnt.toNat = 7 := by rw [h7]; rfl
    have hlen : u.olen.toNat < c.sizeOf .rceObuf := by
      unfold finalBits at room; simp only [Config.sizeOf]; omega
    have hlen' : u.olen.toNat < c.bufBytes := hlen
    have hnat : (BitVec.ofNat 32 (u.olen.toNat + 1)).toNat = u.olen.toNat + 1 := by
      rw [BitVec.toNat_ofNat, Nat.mod_eq_of_lt (by omega)]
    refine ⟨_, by rw [emitBit, if_pos h7, append_ok _ hlen (by omega)]; rfl, ?_, ?_, ?_, ?_, ?_⟩
    · exact ⟨memoryOk_write _ h.mem hlen', by simp only [hnat]; exact storedBelow_append _ h.stored, by simp⟩
    · exact ⟨rfl, rfl, rfl, rfl, rfl, rfl, rfl, rfl⟩
    · refine ⟨by simp only [hnat]; omega, fun a ha => ?_⟩
      simp only [hnat] at ha
      exact Memory.read_write_other _ _ (by omega)
    · simp only [finalBits, hnat, h7n]
      simp
      omega
    · simp only [finalValue, hnat, spelledMsb_append, pendingByte_toNat _ b hpb, h7n]
      simp
      ring
  · have hlt : u.pcnt.toNat < 7 := by
      have : u.pcnt.toNat ≠ 7 := fun he => h7 (BitVec.eq_of_toNat_eq (by rw [he]; rfl))
      omega
    have hcnt : (u.pcnt + 1).toNat = u.pcnt.toNat + 1 := by
      rw [BitVec.toNat_add]
      simp
      omega
    refine ⟨_, by rw [emitBit, if_neg h7], ?_, ?_, ?_, ?_, ?_⟩
    · refine ⟨h.mem, h.stored, ?_⟩
      simp only [pendingByte_toNat _ b hpb, hcnt, pow_succ]
      omega
    · exact ⟨rfl, rfl, rfl, rfl, rfl, rfl, rfl, rfl⟩
    · exact ⟨le_rfl, fun _ _ => rfl⟩
    · simp only [finalBits, hcnt]; omega
    · simp only [finalValue, hcnt, pendingByte_toNat _ b hpb, pow_succ]; ring

/-- The number `n` equal bits spell. -/
def runValue (b : Bool) (n : Nat) : Nat := b.toNat * (2 ^ n - 1)

/-- `repeat n times: emit_bit(b)` with room (R125, R127). -/
theorem emitBits_ok {c : Config} (hc : c.bufBytes ≤ 2 ^ 28) (b : Bool) {n : Nat} {u : Rce} (h : AsmOk c u)
    (room : finalBits u + n ≤ 8 * c.bufBytes) :
    ∃ u', emitBits c b n u = .ok u' ∧ Emitted c u u' n (runValue b n) := by
  induction n generalizing u with
  | zero => exact ⟨u, rfl, by simpa [runValue] using Emitted.refl h⟩
  | succ n ih =>
    obtain ⟨u1, h1, e1⟩ := emitBit_ok hc b h (by omega)
    obtain ⟨u2, h2, e2⟩ := ih e1.asm (by rw [e1.bits]; omega)
    refine ⟨u2, by rw [emitBits, h1, bind_ok, h2], ?_⟩
    have := e1.trans e2
    have hpos : 1 ≤ 2 ^ n := Nat.one_le_two_pow
    have hv : b.toNat * 2 ^ n + runValue b n = runValue b (n + 1) := by
      unfold runValue
      rw [← Nat.mul_add, pow_succ]
      congr 1
      omega
    rw [hv, Nat.add_comm 1 n] at this
    exact this

/-- The held bit given to the assembler, when there is one (R125, R134). -/
theorem emitHeld_ok {c : Config} (hc : c.bufBytes ≤ 2 ^ 28) (b : Bool) {u : Rce} (h : AsmOk c u)
    (room : finalBits u + u.held.toNat ≤ 8 * c.bufBytes) :
    ∃ u', emitHeld c b u = .ok u' ∧ Emitted c u u' u.held.toNat (u.held.toNat * b.toNat) := by
  unfold emitHeld
  cases hh : u.held with
  | false => exact ⟨u, by simp, by simpa using Emitted.refl h⟩
  | true =>
    rw [hh] at room
    obtain ⟨u1, h1, e1⟩ := emitBit_ok hc b h (by simp at room; omega)
    exact ⟨u1, by simpa using h1, by simpa using e1⟩

/-! ### Bits kept back -/

/-- The bits that have left the window, held back or not (R28, R31 c). -/
def gone (u : Rce) : Nat := finalBits u + u.held.toNat + u.outst.toNat

theorem leftBits_eq (u : Rce) :
    leftBits u = finalValue u * 2 ^ u.held.toNat * 2 ^ u.outst.toNat + (2 ^ u.outst.toNat - 1) := rfl

/-- What the shifts, the carry and the flush leave alone: all but the assembler, the held bit and the outstanding count. -/
structure SameWindow (u u' : Rce) : Prop where
  st : u'.st = u.st
  err : u'.err = u.err
  range : u'.range = u.range
  low : u'.low = u.low
  bitpos : u'.bitpos = u.bitpos
  ocap : u'.ocap = u.ocap

theorem SameRegs.sameWindow {u u' : Rce} (h : SameRegs u u') : SameWindow u u' :=
  ⟨h.st, h.err, h.range, h.low, h.bitpos, h.ocap⟩

/-- `shift_out(b)` with room sends one more bit out: the bits gone are one more and spell `2·before + b` (R125). -/
theorem shiftOut_ok {c : Config} (hc : c.bufBytes ≤ 2 ^ 28) (b : Bool) {u : Rce} (h : AsmOk c u)
    (room : gone u < 8 * c.bufBytes) :
    ∃ u', shiftOut c b u = .ok u' ∧ AsmOk c u' ∧ SameWindow u u' ∧ Appended u u' ∧
      gone u' = gone u + 1 ∧ leftBits u' = 2 * leftBits u + b.toNat ∧ u'.held = (!b || u.held) := by
  have hpos : 1 ≤ 2 ^ u.outst.toNat := Nat.one_le_two_pow
  unfold gone at room
  cases b with
  | true =>
    have hfit : u.outst.toNat + 1 < 2 ^ 32 := by omega
    have hnat : (BitVec.ofNat 32 (u.outst.toNat + 1)).toNat = u.outst.toNat + 1 := by
      rw [BitVec.toNat_ofNat, Nat.mod_eq_of_lt hfit]
    refine ⟨_, by rw [shiftOut, if_pos rfl, fit_ok hfit, bind_ok], ?_, ?_, ?_, ?_, ?_, ?_⟩
    · exact ⟨h.mem, h.stored, h.pending⟩
    · exact ⟨rfl, rfl, rfl, rfl, rfl, rfl⟩
    · exact ⟨le_rfl, fun _ _ => rfl⟩
    · simp only [gone, finalBits, hnat]; omega
    · simp only [leftBits_eq, finalValue, hnat, pow_succ, Bool.toNat_true]
      have h2 : 2 ^ u.outst.toNat * 2 - 1 = 2 * (2 ^ u.outst.toNat - 1) + 1 := by omega
      rw [h2]
      ring
    · simp
  | false =>
    obtain ⟨u1, h1, e1⟩ := emitHeld_ok hc false h (by omega)
    obtain ⟨u2, h2, e2⟩ := emitBits_ok hc true (n := u.outst.toNat) e1.asm (by rw [e1.bits]; omega)
    have e := e1.trans e2
    refine ⟨{ u2 with held := true, outst := 0 }, ?_, ?_, ?_, ?_, ?_, ?_, ?_⟩
    · rw [shiftOut, if_neg (by simp), h1, bind_ok, h2, bind_ok]
    · exact ⟨e.asm.mem, e.asm.stored, e.asm.pending⟩
    · exact ⟨e.same.st, e.same.err, e.same.range, e.same.low, e.same.bitpos, e.same.ocap⟩
    · exact ⟨e.appended.le, e.appended.bytes⟩
    · have := e.bits
      simp only [gone, finalBits] at this ⊢
      simp
      omega
    · have hv := e.value
      have hf : finalValue { u2 with held := true, outst := 0 } = finalValue u2 := rfl
      simp only [leftBits_eq, hf, hv, runValue]
      simp
      rw [pow_add]
      ring
    · simp

/-- `carry()` with a held bit adds one to what the bits gone spell, and holds nothing (R127). -/
theorem carry_ok {c : Config} (hc : c.bufBytes ≤ 2 ^ 28) {u : Rce} (h : AsmOk c u) (hh : u.held = true)
    (room : gone u ≤ 8 * c.bufBytes) :
    ∃ u', carry c u = .ok u' ∧ AsmOk c u' ∧ SameWindow u u' ∧ Appended u u' ∧
      gone u' = gone u ∧ leftBits u' = leftBits u + 1 ∧ u'.held = false := by
  have hpos : 1 ≤ 2 ^ u.outst.toNat := Nat.one_le_two_pow
  unfold gone at room
  rw [hh] at room
  simp only [Bool.toNat_true] at room
  obtain ⟨u1, h1, e1⟩ := emitBit_ok hc true h (by omega)
  obtain ⟨u2, h2, e2⟩ := emitBits_ok hc false (n := u.outst.toNat) e1.asm (by rw [e1.bits]; omega)
  have e := e1.trans e2
  refine ⟨{ u2 with held := false, outst := 0 }, ?_, ?_, ?_, ?_, ?_, ?_, rfl⟩
  · rw [carry, if_pos hh, h1, bind_ok, h2, bind_ok]
  · exact ⟨e.asm.mem, e.asm.stored, e.asm.pending⟩
  · exact ⟨e.same.st, e.same.err, e.same.range, e.same.low, e.same.bitpos, e.same.ocap⟩
  · exact ⟨e.appended.le, e.appended.bytes⟩
  · have := e.bits
    simp only [gone, finalBits, hh] at this ⊢
    simp
    omega
  · have hv := e.value
    have hf : finalValue { u2 with held := false, outst := 0 } = finalValue u2 := rfl
    simp only [leftBits_eq, hf, hv, runValue, hh]
    simp
    rw [pow_add, pow_one]
    have h2 : finalValue u * 2 * 2 ^ u.outst.toNat + (2 ^ u.outst.toNat - 1) + 1 =
        finalValue u * 2 * 2 ^ u.outst.toNat + 2 ^ u.outst.toNat := by omega
    rw [h2]
    ring

/-! ### The shifts of PUTBIT and FINISH -/

/-- What the shifts leave alone. -/
structure SameSession (u u' : Rce) : Prop where
  st : u'.st = u.st
  err : u'.err = u.err
  bitpos : u'.bitpos = u.bitpos
  ocap : u'.ocap = u.ocap

theorem SameWindow.sameSession {u u' : Rce} (h : SameWindow u u') : SameSession u u' :=
  ⟨h.st, h.err, h.bitpos, h.ocap⟩

theorem SameSession.trans {u v w : Rce} (h : SameSession u v) (h' : SameSession v w) : SameSession u w :=
  ⟨h'.st.trans h.st, h'.err.trans h.err, h'.bitpos.trans h.bitpos, h'.ocap.trans h.ocap⟩

/-- No carry can come while nothing is held (R31 e). -/
def noCarryDue (u : Rce) : Prop := u.held = false → u.low.toNat + u.range.toNat ≤ 256

theorem getLsbD_seven (x : BitVec 8) : (x.getLsbD 7).toNat = x.toNat / 128 := by
  have h : x.getLsbD 7 = decide (128 ≤ x.toNat) := by
    have := BitVec.msb_eq_decide x
    rw [BitVec.msb_eq_getLsbD_last] at this
    simpa using this
  have hx := x.isLt
  rw [h]
  by_cases h1 : 128 ≤ x.toNat
  · simp only [h1, decide_true, Bool.toNat_true]; omega
  · simp only [h1, decide_false, Bool.toNat_false]; omega

theorem shl_toNat (x : BitVec 8) : (x <<< 1).toNat = 2 * x.toNat % 256 := by
  rw [BitVec.toNat_shiftLeft, Nat.shiftLeft_eq]
  omega

/-- `n` shifts with room: the code value and the width are multiplied by 2^n (R128, R131). -/
theorem renormalize_ok {c : Config} (hc : c.bufBytes ≤ 2 ^ 28) {n : Nat} {u : Rce} (h : AsmOk c u)
    (hr : u.range.toNat * 2 ^ n < 256) (he : noCarryDue u) (room : gone u + n ≤ 8 * c.bufBytes) :
    ∃ u', renormalize c n u = .ok u' ∧ AsmOk c u' ∧ SameSession u u' ∧ Appended u u' ∧ noCarryDue u' ∧
      gone u' = gone u + n ∧ codeValue u' = codeValue u * 2 ^ n ∧ u'.range.toNat = u.range.toNat * 2 ^ n := by
  induction n generalizing u with
  | zero => exact ⟨u, rfl, h, ⟨rfl, rfl, rfl, rfl⟩, Appended.refl u, he, rfl, by simp, by simp⟩
  | succ n ih =>
    obtain ⟨u1, h1, a1, w1, p1, g1, l1, hh1⟩ := shiftOut_ok hc (u.low.getLsbD 7) h (by omega)
    have hlow := u.low.isLt
    have hpow : 2 ^ (n + 1) = 2 * 2 ^ n := by rw [pow_succ]; ring
    have hpos : 1 ≤ 2 ^ n := Nat.one_le_two_pow
    have hr2 : 2 * u.range.toNat < 256 := by
      rw [hpow] at hr
      nlinarith
    have hlow1 : (u1.low <<< 1).toNat = 2 * u.low.toNat % 256 := by rw [w1.low, shl_toNat]
    have hran1 : (u1.range <<< 1).toNat = 2 * u.range.toNat := by rw [w1.range, shl_toNat]; omega
    let v : Rce := { u1 with low := u1.low <<< 1, range := u1.range <<< 1 }
    have hv : noCarryDue v := by
      intro hheld
      have hheld' : (!u.low.getLsbD 7 || u.held) = false := by rw [← hh1]; exact hheld
      simp only [Bool.or_eq_false_iff, Bool.not_eq_false'] at hheld'
      have htop := getLsbD_seven u.low
      rw [hheld'.1] at htop
      simp only [Bool.toNat_true] at htop
      have := he hheld'.2
      show (u1.low <<< 1).toNat + (u1.range <<< 1).toNat ≤ 256
      rw [hlow1, hran1]
      omega
    have hcode : codeValue v = 2 * codeValue u := by
      have hl : leftBits v = leftBits u1 := rfl
      show leftBits v * 256 + (u1.low <<< 1).toNat = _
      rw [hl, l1, hlow1, codeValue, getLsbD_seven]
      omega
    obtain ⟨u2, h2, a2, s2, p2, e2, g2, c2, r2⟩ := ih (u := v) ⟨a1.mem, a1.stored, a1.pending⟩
      (by show (u1.range <<< 1).toNat * 2 ^ n < 256
          rw [hran1]; rw [hpow] at hr; linarith) hv
      (by show gone u1 + n ≤ _; omega)
    refine ⟨u2, by rw [renormalize, h1, bind_ok]; exact h2, a2, ?_, ?_, e2, ?_, ?_, ?_⟩
    · exact w1.sameSession.trans ⟨s2.st, s2.err, s2.bitpos, s2.ocap⟩
    · exact p1.trans ⟨p2.le, p2.bytes⟩
    · rw [g2]; show gone u1 + n = _; omega
    · rw [c2, hcode, hpow]; ring
    · rw [r2]; show (u1.range <<< 1).toNat * 2 ^ n = _; rw [hran1, hpow]; ring

/-- The value of the low `n` bits of a byte, one bit more. -/
theorem mod_two_pow_succ (x : BitVec 8) (n : Nat) :
    x.toNat % 2 ^ (n + 1) = (x.getLsbD n).toNat * 2 ^ n + x.toNat % 2 ^ n := by
  rw [BitVec.getLsbD, Nat.mod_pow_succ, Nat.toNat_testBit]
  ring

/-- The low `n` bits of `low` sent out with room: they follow the bits gone (R134). -/
theorem flushWindow_ok {c : Config} (hc : c.bufBytes ≤ 2 ^ 28) (low : BitVec 8) {n : Nat} {u : Rce} (h : AsmOk c u)
    (room : gone u + n ≤ 8 * c.bufBytes) :
    ∃ u', flushWindow c low n u = .ok u' ∧ AsmOk c u' ∧ SameWindow u u' ∧ Appended u u' ∧
      gone u' = gone u + n ∧ leftBits u' = leftBits u * 2 ^ n + low.toNat % 2 ^ n := by
  induction n generalizing u with
  | zero => exact ⟨u, rfl, h, ⟨rfl, rfl, rfl, rfl, rfl, rfl⟩, Appended.refl u, rfl, by simp [Nat.mod_one]⟩
  | succ n ih =>
    obtain ⟨u1, h1, a1, w1, p1, g1, l1, _⟩ := shiftOut_ok hc (low.getLsbD n) h (by omega)
    obtain ⟨u2, h2, a2, w2, p2, g2, l2⟩ := ih (u := u1) a1 (by omega)
    refine ⟨u2, by rw [flushWindow, h1, bind_ok, h2], a2, ?_, p1.trans p2, by omega, ?_⟩
    · exact ⟨w2.st.trans w1.st, w2.err.trans w1.err, w2.range.trans w1.range, w2.low.trans w1.low,
        w2.bitpos.trans w1.bitpos, w2.ocap.trans w1.ocap⟩
    · rw [l2, l1, mod_two_pow_succ, pow_succ]
      ring

/-- The zero padding with room: it stops at a byte boundary and appends 0 bits only (R134). -/
theorem padByte_ok {c : Config} (hc : c.bufBytes ≤ 2 ^ 28) {n : Nat} {u : Rce} (h : AsmOk c u)
    (hn : u.pcnt = 0 ∨ 8 ≤ u.pcnt.toNat + n) (room : finalBits u ≤ 8 * c.bufBytes) :
    ∃ u' k, padByte c n u = .ok u' ∧ Emitted c u u' k 0 ∧ u'.pcnt = 0 ∧ k < 8 := by
  induction n generalizing u with
  | zero =>
    have hp := u.pcnt.isLt
    have h0 : u.pcnt = 0 := by rcases hn with h | h <;> [exact h; omega]
    exact ⟨u, 0, rfl, Emitted.refl h, h0, by omega⟩
  | succ n ih =>
    by_cases h0 : u.pcnt = 0
    · exact ⟨u, 0, by rw [padByte, if_pos h0], Emitted.refl h, h0, by omega⟩
    · have hp := u.pcnt.isLt
      have hpos : u.pcnt.toNat ≠ 0 := fun he => h0 (BitVec.eq_of_toNat_eq (by rw [he]; rfl))
      unfold finalBits at room
      obtain ⟨u1, h1, e1⟩ := emitBit_ok hc false h (by unfold finalBits; omega)
      have hb := e1.bits
      unfold finalBits at hb
      have hp1 := u1.pcnt.isLt
      have hn1 : u1.pcnt = 0 ∨ 8 ≤ u1.pcnt.toNat + n := by
        by_cases hz : u1.pcnt.toNat = 0
        · exact .inl (BitVec.eq_of_toNat_eq (by rw [hz]; rfl))
        · right
          rcases hn with hn | hn
          · exact absurd hn h0
          · omega
      obtain ⟨u2, k, h2, e2, z2, hk⟩ := ih (u := u1) e1.asm hn1 (by unfold finalBits; omega)
      have e := e1.trans e2
      have hb2 := e.bits
      have hz2 : u2.pcnt.toNat = 0 := by rw [z2]; rfl
      unfold finalBits at hb2
      have hk2 := e2.bits
      unfold finalBits at hk2
      refine ⟨u2, 1 + k, by rw [padByte, if_neg h0, h1, bind_ok, h2], by simpa using e, z2, ?_⟩
      by_contra hk8
      have : k = 7 := by omega
      have hb1 : u1.pcnt.toNat ≠ 0 := by
        intro hz
        omega
      omega

/-! ### An accepted PUTBIT and a successful FINISH -/

/-- The assembler's invariant is part of the encoder's. -/
theorem rceInv.asmOk {c : Config} {u : Rce} (h : rceInv c u) (ho : rceOpenInv c u) : AsmOk c u :=
  ⟨h.1, h.2.1, ho.2.1⟩

theorem rceOpenInv.gone_eq {c : Config} {u : Rce} (h : rceOpenInv c u) : gone u = u.bitpos.toNat := h.2.2.1

/-- The amount a coded bit adds at the window (R123). -/
def lowerEndStep (range : BitVec 8) (bit : Bool) (prob : BitVec 8) : Nat :=
  if bit then split range.toNat prob.toNat else 0

/-- The new width is not 0 (R122). -/
theorem chooseInterval_range {range low : BitVec 8} {bit : Bool} {prob : BitVec 8} (hr : 128 ≤ range.toNat) :
    1 ≤ (chooseInterval range low bit prob).range ∧ (chooseInterval range low bit prob).range < 256 ∧
      (chooseInterval range low bit prob).range + lowerEndStep range bit prob ≤ range.toNat := by
  obtain ⟨h1, h2⟩ := split_bounds (prob := prob.toNat) hr prob.isLt
  have := range.isLt
  unfold chooseInterval lowerEndStep
  cases bit <;> simp <;> omega

/-- Everything an accepted PUTBIT does (R131): it answers; the code value grows by the lower end's step and is shifted; the width
is the chosen one, shifted; the invariant R31 holds again. -/
theorem codeBit_ok {c : Config} (hc : c.bufBytes ≤ 2 ^ 28) {u : Rce} {bit : Bool} {prob : BitVec 8}
    (h : AsmOk c u) (ho : rceOpenInv c u)
    (room : u.bitpos.toNat + nshift (chooseInterval u.range u.low bit prob).range + 8 ≤ 8 * u.ocap.toNat) :
    ∃ u', codeBit c (chooseInterval u.range u.low bit prob) u = .ok u' ∧ AsmOk c u' ∧ rceOpenInv c u' ∧
      Appended u u' ∧ u'.st = u.st ∧ u'.err = u.err ∧ u'.ocap = u.ocap ∧
      u'.bitpos.toNat = u.bitpos.toNat + nshift (chooseInterval u.range u.low bit prob).range ∧
      u'.range.toNat = (chooseInterval u.range u.low bit prob).range *
        2 ^ nshift (chooseInterval u.range u.low bit prob).range ∧
      codeValue u' = (codeValue u + lowerEndStep u.range bit prob) *
        2 ^ nshift (chooseInterval u.range u.low bit prob).range := by
  obtain ⟨hr1, hr2, hr3⟩ := chooseInterval_range (low := u.low) (bit := bit) (prob := prob) ho.1
  obtain ⟨hs1, hs2⟩ := split_bounds (prob := prob.toNat) ho.1 prob.isLt
  have hg : gone u = u.bitpos.toNat := ho.gone_eq
  have hcap := ho.2.2.2.2.1
  have hband := nshift_band hr1 hr2
  have hlow := u.low.isLt
  have hran := u.range.isLt
  have hoc := u.ocap.isLt
  -- the carry
  obtain ⟨u1, h1, a1, w1, p1, g1, l1, e1⟩ : ∃ u1,
      carryIfDue c (chooseInterval u.range u.low bit prob).carries u = .ok u1 ∧ AsmOk c u1 ∧
      SameWindow u u1 ∧ Appended u u1 ∧ gone u1 = gone u ∧
      leftBits u1 * 256 + (chooseInterval u.range u.low bit prob).low.toNat =
        codeValue u + lowerEndStep u.range bit prob ∧
      (u1.held = false → (chooseInterval u.range u.low bit prob).low.toNat +
        (chooseInterval u.range u.low bit prob).range ≤ 256) := by
    cases bit with
    | false =>
      refine ⟨u, by simp [carryIfDue, chooseInterval], h, ⟨rfl, rfl, rfl, rfl, rfl, rfl⟩, Appended.refl u, rfl, ?_, ?_⟩
      · simp [chooseInterval, lowerEndStep, codeValue]
      · intro hheld
        have := ho.2.2.2.2.2 hheld
        simp only [chooseInterval]
        simp
        omega
    | true =>
      by_cases hcar : 256 ≤ u.low.toNat + split u.range.toNat prob.toNat
      · have hheld : u.held = true := by
          by_contra hne
          have := ho.2.2.2.2.2 (by simpa using hne)
          omega
        obtain ⟨u1, h1, a1, w1, p1, g1, l1, e1⟩ := carry_ok hc h hheld (by omega)
        refine ⟨u1, by simp [carryIfDue, chooseInterval, hcar, h1], a1, w1, p1, g1, ?_, ?_⟩
        · simp only [chooseInterval, lowerEndStep, codeValue, l1]
          simp
          omega
        · intro _
          simp only [chooseInterval]
          simp
          omega
      · refine ⟨u, by simp [carryIfDue, chooseInterval, hcar], h, ⟨rfl, rfl, rfl, rfl, rfl, rfl⟩, Appended.refl u, rfl, ?_, ?_⟩
        · simp only [chooseInterval, lowerEndStep, codeValue]
          simp
          omega
        · intro hheld
          have := ho.2.2.2.2.2 hheld
          simp only [chooseInterval]
          simp
          omega
  -- the shifts
  generalize hch : chooseInterval u.range u.low bit prob = ch at *
  have hrn : (BitVec.ofNat 8 ch.range).toNat = ch.range := by
    rw [BitVec.toNat_ofNat, Nat.mod_eq_of_lt hr2]
  obtain ⟨u2, h2, a2, s2, p2, e2, g2, c2, r2⟩ := renormalize_ok hc (n := nshift ch.range)
    (u := { u1 with low := ch.low, range := BitVec.ofNat 8 ch.range }) ⟨a1.mem, a1.stored, a1.pending⟩
    (by simp only [hrn]; exact hband.2) (by intro hheld; simp only [hrn]; exact e1 hheld)
    (by show gone u1 + _ ≤ _; omega)
  have hg2 : gone u2 = u.bitpos.toNat + nshift ch.range := by
    rw [g2]; show gone u1 + _ = _; omega
  have hbp : u2.bitpos = u.bitpos := s2.bitpos.trans w1.bitpos
  have hfit : u2.bitpos.toNat + nshift ch.range < 2 ^ 32 := by rw [hbp]; omega
  have hnat : (BitVec.ofNat 32 (u2.bitpos.toNat + nshift ch.range)).toNat = u.bitpos.toNat + nshift ch.range := by
    rw [BitVec.toNat_ofNat, Nat.mod_eq_of_lt hfit, hbp]
  have hr2' : u2.range.toNat = ch.range * 2 ^ nshift ch.range := by rw [r2]; simp only [hrn]
  refine ⟨{ u2 with bitpos := BitVec.ofNat 32 (u2.bitpos.toNat + nshift ch.range) }, ?_, ?_, ?_, ?_, ?_, ?_, ?_, hnat,
    hr2', ?_⟩
  · rw [codeBit, h1, bind_ok, h2, bind_ok, fit_ok hfit, bind_ok]
  · exact ⟨a2.mem, a2.stored, a2.pending⟩
  · refine ⟨by rw [hr2']; exact hband.1, a2.pending, ?_, ?_, ?_, e2⟩
    · simp only [hnat]; exact hg2
    · simp only [hnat]; rw [s2.ocap, w1.ocap]; omega
    · rw [s2.ocap, w1.ocap]; exact hcap
  · have := p1.trans (v := u1) ⟨p2.le, p2.bytes⟩
    exact ⟨this.le, this.bytes⟩
  · rw [s2.st, w1.st]
  · rw [s2.err, w1.err]
  · rw [s2.ocap, w1.ocap]
  · show codeValue u2 = _
    rw [c2, ← l1]
    rfl

/-- Everything a successful FINISH does (R134): the stream is the code value with zero padding to a byte boundary. -/
theorem finishStream_ok {c : Config} (hc : c.bufBytes ≤ 2 ^ 28) {u : Rce} (h : AsmOk c u) (ho : rceOpenInv c u) :
    ∃ u', finishStream c u = .ok u' ∧ memoryOk u'.obuf c.bufBytes ∧ storedBelow u'.obuf u'.olen.toNat ∧
      Appended u u' ∧ u'.st = .idle ∧ u'.err = u.err ∧ u'.range = u.range ∧ u'.low = u.low ∧ u'.bitpos = u.bitpos ∧
      u'.ocap = u.ocap ∧ u'.held = false ∧ u'.outst = 0 ∧ u'.pbyte = 0 ∧ u'.pcnt = 0 ∧
      u'.olen.toNat = (u.bitpos.toNat + 15) / 8 ∧
      spelledMsb u'.obuf u'.olen.toNat = codeValue u * 2 ^ (8 * u'.olen.toNat - (u.bitpos.toNat + 8)) := by
  have hg : gone u = u.bitpos.toNat := ho.gone_eq
  have hroom := ho.2.2.2.1
  have hcap := ho.2.2.2.2.1
  have hlow := u.low.isLt
  obtain ⟨u1, h1, a1, w1, p1, g1, l1⟩ := flushWindow_ok hc u.low (n := 8) h (by omega)
  have hg1 : finalBits u1 + u1.held.toNat + u1.outst.toNat = u.bitpos.toNat + 8 := by
    have : gone u1 = u.bitpos.toNat + 8 := by omega
    exact this
  obtain ⟨u2, h2, e2⟩ := emitHeld_ok hc false a1 (by omega)
  have ho2 : u2.outst = u1.outst := e2.same.outst
  obtain ⟨u3, h3, e3⟩ := emitBits_ok hc true (n := u2.outst.toNat) e2.asm (by rw [e2.bits, ho2]; omega)
  have e23 := e2.trans e3
  let v : Rce := { u3 with held := false, outst := 0 }
  have hpv := v.pcnt.isLt
  have hfb : finalBits u3 = u.bitpos.toNat + 8 := by rw [e23.bits, ho2]; omega
  obtain ⟨u4, k, h4, e4, z4, hk⟩ := padByte_ok hc (n := 8) (u := v) ⟨e3.asm.mem, e3.asm.stored, e3.asm.pending⟩
    (.inr (by omega)) (by show finalBits u3 ≤ _; omega)
  have hb4 : finalBits u4 = u.bitpos.toNat + 8 + k := by rw [e4.bits]; show finalBits u3 + k = _; omega
  have hz4 : u4.pcnt.toNat = 0 := by rw [z4]; rfl
  have hlen : u4.olen.toNat = (u.bitpos.toNat + 15) / 8 := by
    unfold finalBits at hb4
    omega
  have hpb4 : u4.pbyte = 0 := by
    have := e4.asm.pending
    rw [hz4] at this
    exact BitVec.eq_of_toNat_eq (by simp; omega)
  have hval3 : finalValue u3 = codeValue u := by
    have hl : leftBits u1 = finalValue u3 := by
      rw [leftBits_eq, e23.value, ho2]
      simp [runValue, pow_add]
      ring
    rw [← hl, l1, codeValue]
    omega
  have hval4 : finalValue u4 = codeValue u * 2 ^ k := by
    rw [e4.value, Nat.add_zero]
    show finalValue u3 * 2 ^ k = _
    rw [hval3]
  refine ⟨{ u4 with st := .idle }, ?_, e4.asm.mem, e4.asm.stored, ?_, rfl, ?_, ?_, ?_, ?_, ?_, ?_, ?_, hpb4, z4, hlen, ?_⟩
  · rw [finishStream, h1, bind_ok, h2, bind_ok, h3, bind_ok]
    show (padByte c 8 v >>= _) = _
    rw [h4, bind_ok]
  · have := (p1.trans e23.appended).trans (w := u4) ⟨e4.appended.le, e4.appended.bytes⟩
    exact ⟨this.le, this.bytes⟩
  · show u4.err = _; rw [e4.same.err]; show u3.err = _; rw [e23.same.err, w1.err]
  · show u4.range = _; rw [e4.same.range]; show u3.range = _; rw [e23.same.range, w1.range]
  · show u4.low = _; rw [e4.same.low]; show u3.low = _; rw [e23.same.low, w1.low]
  · show u4.bitpos = _; rw [e4.same.bitpos]; show u3.bitpos = _; rw [e23.same.bitpos, w1.bitpos]
  · show u4.ocap = _; rw [e4.same.ocap]; show u3.ocap = _; rw [e23.same.ocap, w1.ocap]
  · show u4.held = _; rw [e4.same.held]
  · show u4.outst = _; rw [e4.same.outst]
  · have hkk : 8 * u4.olen.toNat - (u.bitpos.toNat + 8) = k := by
      unfold finalBits at hb4
      omega
    show spelledMsb u4.obuf u4.olen.toNat = codeValue u * 2 ^ (8 * u4.olen.toNat - (u.bitpos.toNat + 8))
    rw [hkk, ← hval4]
    simp [finalValue, hz4, hpb4]

/-! ### The decoder -/

/-- Stream bit `i` read from a stored byte. -/
theorem streamBit_of_read {m : Memory 8} {i : Nat} {b : Byte} (h : m.read (i / 8) = some b) :
    streamBit m i = b.getLsbD (7 - i % 8) := by
  simp [streamBit, byteAt, h, BitVec.getLsbD]

/-- `n` calls of `next_bit()` with their bytes stored: the next `n` stream bits (R141, R142). -/
theorem pullBits_ok {c : Config} {n v : Nat} {u : Rcd}
    (hs : ∀ a, 8 * a < u.bitpos.toNat + n → u.bitpos.toNat ≤ 8 * a + 7 →
      a < c.bufBytes ∧ (u.ibuf.read a).isSome)
    (hfit : u.bitpos.toNat + n < 2 ^ 32) :
    pullBits c n v u = .ok (v * 2 ^ n + streamBits u.ibuf u.bitpos.toNat n,
      { u with bitpos := BitVec.ofNat 32 (u.bitpos.toNat + n) }) := by
  induction n generalizing v u with
  | zero => simp [pullBits, streamBits]
  | succ n ih =>
    obtain ⟨hlt, hsome⟩ := hs (u.bitpos.toNat / 8) (by omega) (by omega)
    obtain ⟨b, hb⟩ := Option.isSome_iff_exists.1 hsome
    have hnat : (BitVec.ofNat 32 (u.bitpos.toNat + 1)).toNat = u.bitpos.toNat + 1 := by
      rw [BitVec.toNat_ofNat, Nat.mod_eq_of_lt (by omega)]
    have hnext : nextBit c u = .ok (streamBit u.ibuf u.bitpos.toNat,
        { u with bitpos := BitVec.ofNat 32 (u.bitpos.toNat + 1) }) := by
      rw [nextBit, memRead_ok_iff.2 ⟨hlt, hb⟩, bind_ok, fit_ok (by omega), bind_ok, streamBit_of_read hb]
    have hrest := ih (v := 2 * v + (streamBit u.ibuf u.bitpos.toNat).toNat)
      (u := { u with bitpos := BitVec.ofNat 32 (u.bitpos.toNat + 1) })
      (by intro a h1 h2; simp only [hnat] at h1 h2; exact hs a (by omega) (by omega)) (by simp only [hnat]; omega)
    rw [pullBits, hnext, bind_ok]
    simp only [hrest, hnat]
    have hbits : ∀ (m : Memory 8) (i n : Nat),
        streamBits m i (n + 1) = (streamBit m i).toNat * 2 ^ n + streamBits m (i + 1) n := by
      intro m i n
      induction n with
      | zero => simp [streamBits]
      | succ n ihn =>
        rw [streamBits, ihn, streamBits, pow_succ]
        have : i + (n + 1) = i + 1 + n := by omega
        rw [this]
        ring
    rw [hbits, pow_succ, Nat.add_right_comm u.bitpos.toNat 1 n, Nat.add_assoc u.bitpos.toNat n 1]
    congr 2
    ring

end Sys2Proof.Machine
end

