-- ==== Sys2Proof/Laws/Frames.lean ====
section
/-!
SUPPORT. What each shared operation leaves alone whenever it answers, in every state, reachable or not (spec/20_memory.md R61,
R74, spec/40_range_coder.md R125 to R142, spec/41_bit_packer.md R163 to R171, spec/43_color_transform.md R232, R237).
-/
namespace Sys2Proof.Machine

/-! ### The encoder -/

theorem emitBit_frame {c : Config} {b : Bool} {u u' : Rce} (h : emitBit c b u = .ok u') :
    SameRegs u u' ∧ Appended u u' := by
  unfold emitBit at h
  simp only at h
  split at h
  · obtain ⟨⟨m, l⟩, h1, h2⟩ := bind_ok_iff.1 h
    obtain ⟨_, rfl, _, hl⟩ := append_ok_iff.1 h1
    cases h2
    exact ⟨⟨rfl, rfl, rfl, rfl, rfl, rfl, rfl, rfl⟩, by simp only; omega, fun a ha => Memory.read_write_other _ _ (by simp only at ha; omega)⟩
  · cases h
    exact ⟨⟨rfl, rfl, rfl, rfl, rfl, rfl, rfl, rfl⟩, le_rfl, fun _ _ => rfl⟩

theorem emitBits_frame {c : Config} {b : Bool} {n : Nat} {u u' : Rce} (h : emitBits c b n u = .ok u') :
    SameRegs u u' ∧ Appended u u' := by
  induction n generalizing u with
  | zero => cases h; exact ⟨SameRegs.refl _, Appended.refl _⟩
  | succ n ih =>
    obtain ⟨v, h1, h2⟩ := bind_ok_iff.1 h
    exact ⟨(emitBit_frame h1).1.trans (ih h2).1, (emitBit_frame h1).2.trans (ih h2).2⟩

theorem emitHeld_frame {c : Config} {b : Bool} {u u' : Rce} (h : emitHeld c b u = .ok u') :
    SameRegs u u' ∧ Appended u u' := by
  unfold emitHeld at h
  split at h
  · exact emitBit_frame h
  · cases h; exact ⟨SameRegs.refl _, Appended.refl _⟩

theorem SameWindow.trans {u v w : Rce} (h : SameWindow u v) (h' : SameWindow v w) : SameWindow u w :=
  ⟨h'.st.trans h.st, h'.err.trans h.err, h'.range.trans h.range, h'.low.trans h.low, h'.bitpos.trans h.bitpos,
    h'.ocap.trans h.ocap⟩

theorem shiftOut_frame {c : Config} {b : Bool} {u u' : Rce} (h : shiftOut c b u = .ok u') :
    SameWindow u u' ∧ Appended u u' := by
  unfold shiftOut at h
  split at h
  · obtain ⟨v, _, h2⟩ := bind_ok_iff.1 h
    cases h2
    exact ⟨⟨rfl, rfl, rfl, rfl, rfl, rfl⟩, le_rfl, fun _ _ => rfl⟩
  · obtain ⟨v, h1, h2⟩ := bind_ok_iff.1 h
    obtain ⟨w, h3, h4⟩ := bind_ok_iff.1 h2
    cases h4
    have f := (emitHeld_frame h1).1.trans (emitBits_frame h3).1
    have p := (emitHeld_frame h1).2.trans (emitBits_frame h3).2
    exact ⟨⟨f.st, f.err, f.range, f.low, f.bitpos, f.ocap⟩, p.le, p.bytes⟩

theorem carry_frame {c : Config} {u u' : Rce} (h : carry c u = .ok u') : SameWindow u u' ∧ Appended u u' := by
  unfold carry at h
  split at h
  · obtain ⟨v, h1, h2⟩ := bind_ok_iff.1 h
    obtain ⟨w, h3, h4⟩ := bind_ok_iff.1 h2
    cases h4
    have f := (emitBit_frame h1).1.trans (emitBits_frame h3).1
    have p := (emitBit_frame h1).2.trans (emitBits_frame h3).2
    exact ⟨⟨f.st, f.err, f.range, f.low, f.bitpos, f.ocap⟩, p.le, p.bytes⟩
  · cases h

theorem carryIfDue_frame {c : Config} {due : Bool} {u u' : Rce} (h : carryIfDue c due u = .ok u') :
    SameWindow u u' ∧ Appended u u' := by
  unfold carryIfDue at h
  split at h
  · exact carry_frame h
  · cases h; exact ⟨(SameRegs.refl _).sameWindow, Appended.refl _⟩

theorem renormalize_frame {c : Config} {n : Nat} {u u' : Rce} (h : renormalize c n u = .ok u') :
    SameSession u u' ∧ Appended u u' := by
  induction n generalizing u with
  | zero => cases h; exact ⟨⟨rfl, rfl, rfl, rfl⟩, Appended.refl _⟩
  | succ n ih =>
    obtain ⟨v, h1, h2⟩ := bind_ok_iff.1 h
    obtain ⟨f, p⟩ := shiftOut_frame h1
    obtain ⟨f', p'⟩ := ih h2
    exact ⟨f.sameSession.trans ⟨f'.st, f'.err, f'.bitpos, f'.ocap⟩, p.trans ⟨p'.le, p'.bytes⟩⟩

theorem flushWindow_frame {c : Config} {low : BitVec 8} {n : Nat} {u u' : Rce} (h : flushWindow c low n u = .ok u') :
    SameWindow u u' ∧ Appended u u' := by
  induction n generalizing u with
  | zero => cases h; exact ⟨(SameRegs.refl _).sameWindow, Appended.refl _⟩
  | succ n ih =>
    obtain ⟨v, h1, h2⟩ := bind_ok_iff.1 h
    exact ⟨(shiftOut_frame h1).1.trans (ih h2).1, (shiftOut_frame h1).2.trans (ih h2).2⟩

theorem padByte_frame {c : Config} {n : Nat} {u u' : Rce} (h : padByte c n u = .ok u') : SameRegs u u' ∧ Appended u u' := by
  induction n generalizing u with
  | zero => cases h; exact ⟨SameRegs.refl _, Appended.refl _⟩
  | succ n ih =>
    unfold padByte at h
    split at h
    · cases h; exact ⟨SameRegs.refl _, Appended.refl _⟩
    · obtain ⟨v, h1, h2⟩ := bind_ok_iff.1 h
      exact ⟨(emitBit_frame h1).1.trans (ih h2).1, (emitBit_frame h1).2.trans (ih h2).2⟩

/-- Everything an answered PUTBIT leaves alone (R131). -/
theorem codeBit_frame {c : Config} {ch : Choice} {u u' : Rce} (h : codeBit c ch u = .ok u') :
    u'.st = u.st ∧ u'.err = u.err ∧ u'.ocap = u.ocap ∧ u'.bitpos.toNat = u.bitpos.toNat + nshift ch.range ∧
      Appended u u' := by
  obtain ⟨v, h1, h2⟩ := bind_ok_iff.1 h
  obtain ⟨w, h3, h4⟩ := bind_ok_iff.1 h2
  obtain ⟨b, h5, h6⟩ := bind_ok_iff.1 h4
  cases h6
  obtain ⟨f, p⟩ := carryIfDue_frame h1
  obtain ⟨f', p'⟩ := renormalize_frame h3
  have q := p.trans (w := w) ⟨p'.le, p'.bytes⟩
  refine ⟨f'.st.trans f.st, f'.err.trans f.err, f'.ocap.trans f.ocap, ?_, q.le, q.bytes⟩
  rw [(fit_ok_iff.1 h5).2, f'.bitpos]
  simp only [f.bitpos]

/-- Everything a successful FINISH leaves alone (R134). -/
theorem finishStream_frame {c : Config} {u u' : Rce} (h : finishStream c u = .ok u') :
    u'.st = .idle ∧ u'.err = u.err ∧ u'.range = u.range ∧ u'.low = u.low ∧ u'.bitpos = u.bitpos ∧ u'.ocap = u.ocap ∧
      Appended u u' := by
  obtain ⟨v, h1, h2⟩ := bind_ok_iff.1 h
  obtain ⟨w, h3, h4⟩ := bind_ok_iff.1 h2
  obtain ⟨x, h5, h6⟩ := bind_ok_iff.1 h4
  obtain ⟨y, h7, h8⟩ := bind_ok_iff.1 h6
  cases h8
  obtain ⟨f1, p1⟩ := flushWindow_frame h1
  obtain ⟨f2, p2⟩ := emitHeld_frame h3
  obtain ⟨f3, p3⟩ := emitBits_frame h5
  obtain ⟨f4, p4⟩ := padByte_frame h7
  have f := (f1.trans f2.sameWindow).trans f3.sameWindow
  have p := ((p1.trans p2).trans p3).trans (w := y) ⟨p4.le, p4.bytes⟩
  exact ⟨rfl, f4.err.trans f.err, f4.range.trans f.range, f4.low.trans f.low, f4.bitpos.trans f.bitpos,
    f4.ocap.trans f.ocap, p.le, p.bytes⟩

/-! ### The decoder -/

theorem pullBits_frame {c : Config} {n v v' : Nat} {u u' : Rcd} (h : pullBits c n v u = .ok (v', u')) :
    u' = { u with bitpos := u'.bitpos } ∧ u'.bitpos.toNat = u.bitpos.toNat + n := by
  induction n generalizing v u with
  | zero => cases h; exact ⟨rfl, rfl⟩
  | succ n ih =>
    obtain ⟨⟨b, w⟩, h1, h2⟩ := bind_ok_iff.1 h
    obtain ⟨x, _, h3⟩ := bind_ok_iff.1 h1
    obtain ⟨y, h4, h5⟩ := bind_ok_iff.1 h3
    cases h5
    obtain ⟨h6, h7⟩ := ih h2
    refine ⟨h6, ?_⟩
    rw [h7, (fit_ok_iff.1 h4).2]
    omega

/-- Everything an answered GETBIT leaves alone (R142). -/
theorem decodeBit_frame {c : Config} {v r : Nat} {u u' : Rcd} (h : decodeBit c v r u = .ok u') :
    u'.st = u.st ∧ u'.err = u.err ∧ u'.ilen = u.ilen ∧ u'.ibuf = u.ibuf ∧
      u'.bitpos.toNat = u.bitpos.toNat + nshift r ∧ u'.range.toNat = r * 2 ^ nshift r := by
  obtain ⟨⟨x, w⟩, h1, h2⟩ := bind_ok_iff.1 h
  obtain ⟨y, _, h4⟩ := bind_ok_iff.1 h2
  obtain ⟨z, h5, h6⟩ := bind_ok_iff.1 h4
  obtain ⟨hw, hb⟩ := pullBits_frame h1
  cases h6
  refine ⟨?_, ?_, ?_, ?_, hb, (fit_ok_iff.1 h5).2⟩
  all_goals rw [hw]

/-! ### The bit packer -/

/-- What the writer's loops leave alone. -/
structure SameBpw (u u' : Bpw) : Prop where
  st : u'.st = u.st
  err : u'.err = u.err
  ocap : u'.ocap = u.ocap
  le : u.olen.toNat ≤ u'.olen.toNat
  bytes : ∀ a, ¬ (u.olen.toNat ≤ a ∧ a < u'.olen.toNat) → u'.obuf.read a = u.obuf.read a

theorem flushBytes_frame {c : Config} {n : Nat} {u u' : Bpw} (h : flushBytes c n u = .ok u') : SameBpw u u' := by
  induction n generalizing u with
  | zero => cases h; exact ⟨rfl, rfl, rfl, le_rfl, fun _ _ => rfl⟩
  | succ n ih =>
    unfold flushBytes at h
    split at h
    · obtain ⟨⟨m, l⟩, h1, h2⟩ := bind_ok_iff.1 h
      obtain ⟨_, rfl, _, hl⟩ := append_ok_iff.1 h1
      have f := ih h2
      have hle : l.toNat ≤ u'.olen.toNat := f.le
      refine ⟨f.st, f.err, f.ocap, by omega, fun a ha => ?_⟩
      rw [f.bytes a (by simp only; omega)]
      exact Memory.read_write_other _ _ (by omega)
    · cases h; exact ⟨rfl, rfl, rfl, le_rfl, fun _ _ => rfl⟩

/-- Everything an answered PUTBITS leaves alone (R163). -/
theorem packBits_frame {c : Config} {value : BitVec 32} {nbits : Nat} {u u' : Bpw} (h : packBits c value nbits u = .ok u') :
    SameBpw u u' := by
  obtain ⟨x, _, h2⟩ := bind_ok_iff.1 h
  obtain ⟨y, _, h4⟩ := bind_ok_iff.1 h2
  have f := flushBytes_frame h4
  exact ⟨f.st, f.err, f.ocap, f.le, f.bytes⟩

/-- Everything a successful FINISH of the writer leaves alone (R165). -/
theorem finishPack_frame {c : Config} {u u' : Bpw} (h : finishPack c u = .ok u') :
    u'.st = .idle ∧ u'.err = u.err ∧ u'.ocap = u.ocap ∧ u.olen.toNat ≤ u'.olen.toNat ∧
      ∀ a, ¬ (u.olen.toNat ≤ a ∧ a < u'.olen.toNat) → u'.obuf.read a = u.obuf.read a := by
  unfold finishPack at h
  split at h
  · obtain ⟨⟨m, l⟩, h1, h2⟩ := bind_ok_iff.1 h
    obtain ⟨_, rfl, _, hl⟩ := append_ok_iff.1 h1
    cases h2
    exact ⟨rfl, rfl, rfl, by simp only; omega, fun a ha => Memory.read_write_other _ _ (by simp only at ha; omega)⟩
  · cases h; exact ⟨rfl, rfl, rfl, le_rfl, fun _ _ => rfl⟩

/-- Everything the refill of READBITS leaves alone (R171). -/
theorem refill_frame {c : Config} {nbits n : Nat} {u u' : Bpr} (h : refill c nbits n u = .ok u') :
    u'.st = u.st ∧ u'.err = u.err ∧ u'.ilen = u.ilen ∧ u'.ibuf = u.ibuf := by
  induction n generalizing u with
  | zero => cases h; exact ⟨rfl, rfl, rfl, rfl⟩
  | succ n ih =>
    unfold refill at h
    split at h
    · obtain ⟨x, _, h2⟩ := bind_ok_iff.1 h
      obtain ⟨y, _, h4⟩ := bind_ok_iff.1 h2
      have f := ih h4
      exact f
    · cases h; exact ⟨rfl, rfl, rfl, rfl⟩

/-! ### PMEM -/

/-- Everything a range command leaves alone in PMEM (R232, R237). -/
theorem mapPixels_frame {c : Config} {f : Pixel → Pixel} {n src dst : Nat} {m m' : Memory 32}
    (h : mapPixels c f n src dst m = .ok m') : ∀ a, ¬ (dst ≤ a ∧ a < dst + n) → m'.read a = m.read a := by
  induction n generalizing src dst m with
  | zero => cases h; exact fun _ _ => rfl
  | succ n ih =>
    obtain ⟨p, _, h2⟩ := bind_ok_iff.1 h
    obtain ⟨x, h3, h4⟩ := bind_ok_iff.1 h2
    obtain ⟨_, rfl⟩ := memWrite_ok_iff.1 h3
    intro a ha
    rw [ih h4 a (by omega), Memory.read_write_other _ _ (by omega)]

end Sys2Proof.Machine
end

