-- ==== Sys2Proof/Laws/Outcomes.lean ====
section
/-!
SUPPORT. What each meaning can answer, once: if it answers a next state, then by one of these ways, each with its guards
(spec/40_range_coder.md, 41_bit_packer.md, 42_predictors.md, 43_color_transform.md, 44_system.md).
-/
namespace Sys2Proof.Machine

theorem respond_next {s t : State} {v : Reg32} (h : s.respond v = .next t) : t = s.answer .ok v := by
  cases h; rfl

theorem raise_next {s t : State} {e : Status} (h : s.raise e = .next t) : t = s.answer e 0 := by
  cases h; rfl

theorem Lifecycle.active_of_ne {x : Lifecycle} (h : x ≠ .idle) : x = .active := by
  cases x
  · exact absurd rfl h
  · rfl

theorem Lifecycle.idle_of_ne {x : Lifecycle} (h : x ≠ .active) : x = .idle := by
  cases x
  · rfl
  · exact absurd rfl h

/-- The gate of a data command lets through only an open session without error. -/
theorem dataGate_none {st : Lifecycle} {err : Status} (h : dataGate st err = none) : st = .active ∧ err = .ok := by
  unfold dataGate at h
  split at h
  · cases h
  · rename_i hs
    split at h
    · rename_i he; exact ⟨Lifecycle.active_of_ne hs, he⟩
    · cases h

/-- What the gate of a data command stops. -/
theorem dataGate_some {st : Lifecycle} {err e : Status} (h : dataGate st err = some e) :
    (st = .idle ∧ e = .state) ∨ (st = .active ∧ err ≠ .ok ∧ e = err) := by
  unfold dataGate at h
  split at h
  · rename_i hs; cases h; exact .inl ⟨hs, rfl⟩
  · rename_i hs
    split at h
    · cases h
    · rename_i he; cases h; exact .inr ⟨Lifecycle.active_of_ne hs, he, rfl⟩

@[simp] theorem dataGate_ok : dataGate .active .ok = none := rfl

theorem execRceInit_next {cap : BitVec 32} {s t : State} (h : execRceInit cap s = .next t) :
    (s.rce.st = .active ∧ t = s.answer .state 0) ∨
    (s.rce.st = .idle ∧ 1 ≤ cap.toNat ∧ cap.toNat ≤ s.cfg.bufBytes ∧ t = (s.setRce (openRce s.rce cap)).answer .ok 0) ∨
    (s.rce.st = .idle ∧ t = (s.setRce { s.rce with err := .operand }).answer .operand 0) := by
  unfold execRceInit at h
  split at h
  · rename_i hs; exact .inl ⟨hs, raise_next h⟩
  · rename_i hs
    have hi := Lifecycle.idle_of_ne hs
    split at h
    · rename_i hc; exact .inr (.inl ⟨hi, hc.1, hc.2, respond_next h⟩)
    · exact .inr (.inr ⟨hi, raise_next h⟩)

theorem execRcePutbit_next {bit : Bool} {prob : BitVec 8} {s t : State} (h : execRcePutbit bit prob s = .next t) :
    (∃ e, dataGate s.rce.st s.rce.err = some e ∧ t = s.answer e 0) ∨
    (s.rce.st = .active ∧ s.rce.err = .ok ∧ prob = 0 ∧
      t = (s.setRce { s.rce with err := .operand }).answer .operand 0) ∨
    (s.rce.st = .active ∧ s.rce.err = .ok ∧ t = (s.setRce { s.rce with err := .capacity }).answer .capacity 0) ∨
    (s.rce.st = .active ∧ s.rce.err = .ok ∧ prob ≠ 0 ∧ 128 ≤ s.rce.range.toNat ∧
      s.rce.bitpos.toNat + nshift (chooseInterval s.rce.range s.rce.low bit prob).range + 8 ≤ 8 * s.rce.ocap.toNat ∧
      ∃ u, codeBit s.cfg (chooseInterval s.rce.range s.rce.low bit prob) s.rce = .ok u ∧
        t = (s.setRce u).answer .ok 0) := by
  unfold execRcePutbit at h
  cases hg : dataGate s.rce.st s.rce.err with
  | some e => rw [hg] at h; exact .inl ⟨e, rfl, raise_next h⟩
  | none =>
    obtain ⟨h1, h2⟩ := dataGate_none hg
    rw [hg] at h
    simp only at h
    split at h
    · rename_i hp; exact .inr (.inl ⟨h1, h2, hp, raise_next h⟩)
    · rename_i hp
      split at h
      · cases h
      · rename_i hr
        split at h
        · rename_i hroom
          obtain ⟨u, hu, ht⟩ := orFault_next h
          exact .inr (.inr (.inr ⟨h1, h2, hp, by omega, hroom, u, hu, respond_next ht⟩))
        · exact .inr (.inr (.inl ⟨h1, h2, raise_next h⟩))

theorem execRceFinish_next {s t : State} (h : execRceFinish s = .next t) :
    (s.rce.st = .idle ∧ t = s.answer .state 0) ∨
    (s.rce.st = .active ∧ s.rce.err = .ok ∧ ∃ u, finishStream s.cfg s.rce = .ok u ∧ t = (s.setRce u).answer .ok u.olen) ∨
    (s.rce.st = .active ∧ s.rce.err ≠ .ok ∧ t = (s.setRce { s.rce with st := .idle, olen := 0 }).answer s.rce.err 0) := by
  unfold execRceFinish at h
  split at h
  · rename_i hs; exact .inl ⟨hs, raise_next h⟩
  · rename_i hs
    have ha := Lifecycle.active_of_ne hs
    split at h
    · rename_i he
      obtain ⟨u, hu, ht⟩ := orFault_next h
      exact .inr (.inl ⟨ha, he, u, hu, respond_next ht⟩)
    · rename_i he; exact .inr (.inr ⟨ha, he, raise_next h⟩)

theorem execRceAbort_next {s t : State} (h : execRceAbort s = .next t) :
    (s.rce.st = .idle ∧ t = s.answer .state 0) ∨
    (s.rce.st = .active ∧ t = (s.setRce { s.rce with st := .idle, err := .ok, olen := 0 }).answer .ok 0) := by
  unfold execRceAbort at h
  split at h
  · rename_i hs; exact .inl ⟨hs, raise_next h⟩
  · rename_i hs; exact .inr ⟨Lifecycle.active_of_ne hs, respond_next h⟩

theorem execRcdInit_next {len : BitVec 32} {s t : State} (h : execRcdInit len s = .next t) :
    (∃ e, (e = .operand ∨ e = .eos ∨ e = .corrupt) ∧ t = (s.setRcd { s.rcd with st := .idle, err := e }).answer e 0) ∨
    (∃ v, len ≠ 0 ∧ len.toNat ≤ s.cfg.bufBytes ∧ s.rcd.ibuf.read 0 = some v ∧ v ≠ 0xFF ∧
      t = (s.setRcd (openRcd s.rcd len v)).answer .ok 0) := by
  unfold execRcdInit at h
  split at h
  · exact .inl ⟨_, .inl rfl, raise_next h⟩
  · rename_i h1
    split at h
    · exact .inl ⟨_, .inr (.inl rfl), raise_next h⟩
    · rename_i h2
      obtain ⟨v, hv, ht⟩ := orFault_next h
      split at ht
      · exact .inl ⟨_, .inr (.inr rfl), raise_next ht⟩
      · rename_i h3
        exact .inr ⟨v, h2, by omega, (memRead_ok_iff.1 hv).2, h3, respond_next ht⟩

theorem execRcdGetbit_next {prob : BitVec 8} {s t : State} (h : execRcdGetbit prob s = .next t) :
    (∃ e, dataGate s.rcd.st s.rcd.err = some e ∧ t = s.answer e 0) ∨
    (s.rcd.st = .active ∧ s.rcd.err = .ok ∧ (∃ e, (e = .operand ∨ e = .eos) ∧
      t = (s.setRcd { s.rcd with err := e }).answer e 0)) ∨
    (s.rcd.st = .active ∧ s.rcd.err = .ok ∧ prob ≠ 0 ∧ 128 ≤ s.rcd.range.toNat ∧
      ∃ b v r u, decideBit s.rcd.range s.rcd.value prob = (b, v, r) ∧
        s.rcd.bitpos.toNat + nshift r ≤ 8 * s.rcd.ilen.toNat ∧ decodeBit s.cfg v r s.rcd = .ok u ∧
        t = (s.setRcd u).answer .ok ((BitVec.ofBool b).setWidth 32)) := by
  unfold execRcdGetbit at h
  cases hg : dataGate s.rcd.st s.rcd.err with
  | some e => rw [hg] at h; exact .inl ⟨e, rfl, raise_next h⟩
  | none =>
    obtain ⟨h1, h2⟩ := dataGate_none hg
    rw [hg] at h
    simp only at h
    split at h
    · exact .inr (.inl ⟨h1, h2, _, .inl rfl, raise_next h⟩)
    · rename_i hp
      split at h
      · cases h
      · rename_i hr
        rcases hd : decideBit s.rcd.range s.rcd.value prob with ⟨b, v, r⟩
        rw [hd] at h
        simp only at h
        split at h
        · rename_i hroom
          obtain ⟨u, hu, ht⟩ := orFault_next h
          exact .inr (.inr ⟨h1, h2, hp, by omega, b, v, r, u, rfl, hroom, hu, respond_next ht⟩)
        · exact .inr (.inl ⟨h1, h2, _, .inr rfl, raise_next h⟩)

theorem execBpwInit_next {cap : BitVec 32} {s t : State} (h : execBpwInit cap s = .next t) :
    (s.bpw.st = .active ∧ t = s.answer .state 0) ∨
    (s.bpw.st = .idle ∧ cap.toNat ≤ s.cfg.bufBytes ∧ t = (s.setBpw (openBpw s.bpw cap)).answer .ok 0) ∨
    (s.bpw.st = .idle ∧ t = (s.setBpw { s.bpw with err := .operand }).answer .operand 0) := by
  unfold execBpwInit at h
  split at h
  · rename_i hs; exact .inl ⟨hs, raise_next h⟩
  · rename_i hs
    have hi := Lifecycle.idle_of_ne hs
    split at h
    · rename_i hc; exact .inr (.inl ⟨hi, hc, respond_next h⟩)
    · exact .inr (.inr ⟨hi, raise_next h⟩)

theorem execBpwPutbits_next {value : BitVec 32} {nbits : BitVec 8} {s t : State}
    (h : execBpwPutbits value nbits s = .next t) :
    (∃ e, dataGate s.bpw.st s.bpw.err = some e ∧ t = s.answer e 0) ∨
    (s.bpw.st = .active ∧ s.bpw.err = .ok ∧ (∃ e, (e = .operand ∨ e = .capacity) ∧
      t = (s.setBpw { s.bpw with err := e }).answer e 0)) ∨
    (s.bpw.st = .active ∧ s.bpw.err = .ok ∧ nbits.toNat ≤ 24 ∧
      8 * s.bpw.olen.toNat + s.bpw.pend.toNat + nbits.toNat ≤ 8 * s.bpw.ocap.toNat ∧
      ∃ u, packBits s.cfg value nbits.toNat s.bpw = .ok u ∧ t = (s.setBpw u).answer .ok 0) := by
  unfold execBpwPutbits at h
  cases hg : dataGate s.bpw.st s.bpw.err with
  | some e => rw [hg] at h; exact .inl ⟨e, rfl, raise_next h⟩
  | none =>
    obtain ⟨h1, h2⟩ := dataGate_none hg
    rw [hg] at h
    simp only at h
    split at h
    · exact .inr (.inl ⟨h1, h2, _, .inl rfl, raise_next h⟩)
    · rename_i hn
      unfold maxNbits at hn
      split at h
      · rename_i hroom
        obtain ⟨u, hu, ht⟩ := orFault_next h
        exact .inr (.inr ⟨h1, h2, by omega, hroom, u, hu, respond_next ht⟩)
      · exact .inr (.inl ⟨h1, h2, _, .inr rfl, raise_next h⟩)

theorem execBpwFinish_next {s t : State} (h : execBpwFinish s = .next t) :
    (s.bpw.st = .idle ∧ t = s.answer .state 0) ∨
    (s.bpw.st = .active ∧ s.bpw.err = .ok ∧ ∃ u, finishPack s.cfg s.bpw = .ok u ∧ t = (s.setBpw u).answer .ok u.olen) ∨
    (s.bpw.st = .active ∧ s.bpw.err ≠ .ok ∧ t = (s.setBpw { s.bpw with st := .idle, olen := 0 }).answer s.bpw.err 0) := by
  unfold execBpwFinish at h
  split at h
  · rename_i hs; exact .inl ⟨hs, raise_next h⟩
  · rename_i hs
    have ha := Lifecycle.active_of_ne hs
    split at h
    · rename_i he
      obtain ⟨u, hu, ht⟩ := orFault_next h
      exact .inr (.inl ⟨ha, he, u, hu, respond_next ht⟩)
    · rename_i he; exact .inr (.inr ⟨ha, he, raise_next h⟩)

theorem execBpwAbort_next {s t : State} (h : execBpwAbort s = .next t) :
    (s.bpw.st = .idle ∧ t = s.answer .state 0) ∨
    (s.bpw.st = .active ∧ t = (s.setBpw { s.bpw with st := .idle, err := .ok, olen := 0 }).answer .ok 0) := by
  unfold execBpwAbort at h
  split at h
  · rename_i hs; exact .inl ⟨hs, raise_next h⟩
  · rename_i hs; exact .inr ⟨Lifecycle.active_of_ne hs, respond_next h⟩

theorem execBprInit_next {len : BitVec 32} {s t : State} (h : execBprInit len s = .next t) :
    (t = (s.setBpr { s.bpr with st := .idle, err := .operand }).answer .operand 0) ∨
    (len.toNat ≤ s.cfg.bufBytes ∧ t = (s.setBpr (openBpr s.bpr len)).answer .ok 0) := by
  unfold execBprInit at h
  split at h
  · rename_i hc; exact .inr ⟨hc, respond_next h⟩
  · exact .inl (raise_next h)

theorem execBprReadbits_next {nbits : BitVec 8} {s t : State} (h : execBprReadbits nbits s = .next t) :
    (∃ e, dataGate s.bpr.st s.bpr.err = some e ∧ t = s.answer e 0) ∨
    (s.bpr.st = .active ∧ s.bpr.err = .ok ∧ (∃ e, (e = .operand ∨ e = .eos) ∧
      t = (s.setBpr { s.bpr with err := e }).answer e 0)) ∨
    (s.bpr.st = .active ∧ s.bpr.err = .ok ∧ nbits.toNat ≤ 24 ∧ (nbits.toNat : Int) ≤ bitsLeft s.bpr ∧
      ∃ u, refill s.cfg nbits.toNat 3 s.bpr = .ok u ∧
        t = (s.setBpr (dropBits u nbits.toNat)).answer .ok (takeBits u.acc nbits.toNat)) := by
  unfold execBprReadbits at h
  cases hg : dataGate s.bpr.st s.bpr.err with
  | some e => rw [hg] at h; exact .inl ⟨e, rfl, raise_next h⟩
  | none =>
    obtain ⟨h1, h2⟩ := dataGate_none hg
    rw [hg] at h
    simp only at h
    split at h
    · exact .inr (.inl ⟨h1, h2, _, .inl rfl, raise_next h⟩)
    · rename_i hn
      unfold maxNbits at hn
      split at h
      · rename_i hroom
        obtain ⟨u, hu, ht⟩ := orFault_next h
        exact .inr (.inr ⟨h1, h2, by omega, hroom, u, hu, respond_next ht⟩)
      · exact .inr (.inl ⟨h1, h2, _, .inr rfl, raise_next h⟩)

/-- Every predictor, through its template (R194). -/
theorem predict_next {f : Pixel → Pixel → Pixel → Pixel → Pixel} {top : BitVec 16} {left : Pixel} {s t : State}
    (h : predict f top left s = .next t) :
    (topInPmem s.cfg top = false ∧ t = s.answer .addr 0) ∨
    ∃ tl tt tr, topInPmem s.cfg top = true ∧ s.pmem.read (top.toNat - 1) = some tl ∧ s.pmem.read top.toNat = some tt ∧
      s.pmem.read (top.toNat + 1) = some tr ∧ t = s.answer .ok (f left tl tt tr) := by
  unfold predict at h
  split at h
  · rename_i hc
    obtain ⟨tl, h1, h⟩ := orFault_next h
    obtain ⟨tt, h2, h⟩ := orFault_next h
    obtain ⟨tr, h3, h⟩ := orFault_next h
    exact .inr ⟨tl, tt, tr, hc, (memRead_ok_iff.1 h1).2, (memRead_ok_iff.1 h2).2, (memRead_ok_iff.1 h3).2, respond_next h⟩
  · rename_i hc; exact .inl ⟨by simpa using hc, raise_next h⟩

/-- SUBG, ADDG and CT.FWD, through their template (R232). -/
theorem mapRange_next {f : Pixel → Pixel} {addr count : BitVec 16} {s t : State} (h : mapRange f addr count s = .next t) :
    (rangeInPmem s.cfg addr count = false ∧ t = s.answer .addr 0) ∨
    ∃ m, rangeInPmem s.cfg addr count = true ∧
      mapPixels s.cfg f count.toNat addr.toNat addr.toNat s.pmem = .ok m ∧ t = (s.setPmem m).answer .ok 0 := by
  unfold mapRange at h
  split at h
  · rename_i hc
    obtain ⟨m, hm, ht⟩ := orFault_next h
    exact .inr ⟨m, hc, hm, respond_next ht⟩
  · rename_i hc; exact .inl ⟨by simpa using hc, raise_next h⟩

theorem execCtInv_next {src dst count : BitVec 16} {s t : State} (h : execCtInv src dst count s = .next t) :
    ((rangeInPmem s.cfg src count = false ∨ rangeInPmem s.cfg dst count = false) ∧ t = s.answer .addr 0) ∨
    ∃ m, rangeInPmem s.cfg src count = true ∧ rangeInPmem s.cfg dst count = true ∧
      mapPixels s.cfg (inversePixel s.mult) count.toNat src.toNat dst.toNat s.pmem = .ok m ∧
      t = (s.setPmem m).answer .ok 0 := by
  unfold execCtInv at h
  split at h
  · rename_i h1
    split at h
    · rename_i h2
      obtain ⟨m, hm, ht⟩ := orFault_next h
      exact .inr ⟨m, h1, h2, hm, respond_next ht⟩
    · rename_i h2; exact .inl ⟨.inr (by simpa using h2), raise_next h⟩
  · rename_i h1; exact .inl ⟨.inl (by simpa using h1), raise_next h⟩

theorem execRdsr_next {sr : BitVec 8} {s t : State} (h : execRdsr sr s = .next t) :
    (statusRegOf sr = none ∧ t = s.answer .operand 0) ∨
    ∃ r v, statusRegOf sr = some r ∧ readStatus s r = .ok v ∧ t = s.answer .ok v := by
  unfold execRdsr at h
  cases hr : statusRegOf sr with
  | none => rw [hr] at h; exact .inl ⟨rfl, raise_next h⟩
  | some r =>
    rw [hr] at h
    obtain ⟨v, hv, ht⟩ := orFault_next h
    exact .inr ⟨r, v, rfl, hv, respond_next ht⟩

/-- A status register is read from the registers alone (R51): byte buffers and PMEM play no part. -/
theorem readStatus_congr {s t : State} (h : agreesOn s t .system) (r : StatusReg) : readStatus s r = readStatus t r := by
  obtain ⟨⟨h1, h2, h3, h4⟩, h5, h6⟩ := h
  cases r <;> simp_all [readStatus]

end Sys2Proof.Machine
end

