-- ==== Sys2Proof/Laws/Outgoing.lean ====
section
/-!
SUPPORT. The encoder's procedures as changes of the outgoing bits: final, held, outstanding (spec/40_range_coder.md R124 to R127,
R131).
-/
namespace Sys2Proof.Machine

theorem outgoing_eq (u : Rce) : outgoing u = ⟨finalValue u, finalBits u, u.held, u.outst.toNat⟩ := rfl

/-- What the assembler was given, as outgoing bits. -/
theorem Emitted.outgoing_eq {c : Config} {u u' : Rce} {k v : Nat} (h : Emitted c u u' k v) :
    outgoing u' = { outgoing u with value := (outgoing u).value * 2 ^ k + v, count := (outgoing u).count + k } := by
  simp only [Machine.outgoing_eq, h.value, h.bits, h.same.held, h.same.outst]

theorem runValue_eq (b : Bool) (n : Nat) : runValue b n = if b then 2 ^ n - 1 else 0 := by
  cases b <;> simp [runValue]

/-- `shift_out(b)` on the outgoing bits (R125). -/
theorem shiftOut_outgoing {c : Config} (hc : c.bufBytes ≤ 2 ^ 28) {b : Bool} {u u' : Rce} (h : AsmOk c u)
    (room : gone u < 8 * c.bufBytes) (hr : shiftOut c b u = .ok u') : outgoing u' = leaves (outgoing u) b := by
  unfold gone at room
  cases b with
  | true =>
    rw [shiftOut, if_pos rfl] at hr
    obtain ⟨x, h1, h2⟩ := bind_ok_iff.1 hr
    cases h2
    simp only [leaves, if_true, Machine.outgoing_eq, finalValue, finalBits, (fit_ok_iff.1 h1).2]
  | false =>
    obtain ⟨u1, h1, e1⟩ := emitHeld_ok hc false h (by omega)
    obtain ⟨u2, h2, e2⟩ := emitBits_ok hc true (n := u.outst.toNat) e1.asm (by rw [e1.bits]; omega)
    rw [shiftOut, if_neg (by simp), h1, bind_ok, h2, bind_ok] at hr
    cases hr
    have o1 := e1.outgoing_eq
    have o2 := e2.outgoing_eq
    have : outgoing { u2 with held := true, outst := 0 } = { outgoing u2 with held := true, outst := 0 } := rfl
    rw [this, o2, o1]
    simp [leaves, emitted, runValue_eq, Machine.outgoing_eq]

/-- `carry()` on the outgoing bits (R127). -/
theorem carry_outgoing {c : Config} (hc : c.bufBytes ≤ 2 ^ 28) {u u' : Rce} (h : AsmOk c u) (hh : u.held = true)
    (room : gone u ≤ 8 * c.bufBytes) (hr : carry c u = .ok u') : outgoing u' = carried (outgoing u) := by
  unfold gone at room
  rw [hh] at room
  simp only [Bool.toNat_true] at room
  obtain ⟨u1, h1, e1⟩ := emitBit_ok hc true h (by omega)
  obtain ⟨u2, h2, e2⟩ := emitBits_ok hc false (n := u.outst.toNat) e1.asm (by rw [e1.bits]; omega)
  rw [carry, if_pos hh, h1, bind_ok, h2, bind_ok] at hr
  cases hr
  have : outgoing { u2 with held := false, outst := 0 } = { outgoing u2 with held := false, outst := 0 } := rfl
  rw [this, e2.outgoing_eq, e1.outgoing_eq]
  simp [carried, emitted, runValue_eq, Machine.outgoing_eq]

/-- The bits leaving a window one after the other. -/
theorem topBits_succ (w : BitVec 8) {n : Nat} (hn : n ≤ 7) : topBits w (n + 1) = w.getLsbD 7 :: topBits (w <<< 1) n := by
  unfold topBits
  rw [List.range_succ_eq_map]
  simp only [List.map_cons, List.map_map]
  congr 1
  apply List.map_congr_left
  intro k hk
  have hk := List.mem_range.1 hk
  have h1 : 7 - (k + 1) = 7 - k - 1 := by omega
  have h2 : 7 - k ≠ 0 := by omega
  simp only [Function.comp, BitVec.getLsbD_shiftLeft, Nat.succ_eq_add_one, h1]
  simp [h2]
  omega

/-- The shifts of PUTBIT on the outgoing bits and the window (R131). -/
theorem renormalize_outgoing {c : Config} (hc : c.bufBytes ≤ 2 ^ 28) {n : Nat} {u u' : Rce} (hn : n ≤ 7) (h : AsmOk c u)
    (room : gone u + n ≤ 8 * c.bufBytes) (hr : renormalize c n u = .ok u') :
    outgoing u' = (topBits u.low n).foldl leaves (outgoing u) ∧ u'.low.toNat = u.low.toNat * 2 ^ n % 256 := by
  induction n generalizing u with
  | zero =>
    cases hr
    have := u'.low.isLt
    exact ⟨rfl, by simp; omega⟩
  | succ n ih =>
    obtain ⟨u1, h1, a1, w1, p1, g1, l1, _⟩ := shiftOut_ok hc (u.low.getLsbD 7) h (by omega)
    rw [renormalize, h1, bind_ok] at hr
    obtain ⟨i1, i2⟩ := ih (u := { u1 with low := u1.low <<< 1, range := u1.range <<< 1 }) (by omega)
      ⟨a1.mem, a1.stored, a1.pending⟩ (by show gone u1 + n ≤ _; omega) hr
    refine ⟨?_, ?_⟩
    · rw [i1, topBits_succ _ (by omega), List.foldl_cons, ← shiftOut_outgoing hc h (by omega) h1]
      show List.foldl leaves (outgoing u1) (topBits (u1.low <<< 1) n) = _
      rw [w1.low]
    · rw [i2]
      show (u1.low <<< 1).toNat * 2 ^ n % 256 = _
      rw [w1.low, shl_toNat, pow_succ]
      conv_rhs => rw [show u.low.toNat * (2 ^ n * 2) = 2 * u.low.toNat * 2 ^ n by ring]
      rw [Nat.mod_mul_mod]

/-- The outgoing bits and the window after an accepted PUTBIT (R131). -/
theorem codeBit_outgoing {c : Config} (hc : c.bufBytes ≤ 2 ^ 28) {u u' : Rce} {bit : Bool} {prob : BitVec 8}
    (h : AsmOk c u) (ho : rceOpenInv c u)
    (room : u.bitpos.toNat + nshift (chooseInterval u.range u.low bit prob).range + 8 ≤ 8 * u.ocap.toNat)
    (hr : codeBit c (chooseInterval u.range u.low bit prob) u = .ok u') :
    outgoing u' = (topBits (chooseInterval u.range u.low bit prob).low
        (nshift (chooseInterval u.range u.low bit prob).range)).foldl leaves
      (if (chooseInterval u.range u.low bit prob).carries then carried (outgoing u) else outgoing u) ∧
    u'.low.toNat = (chooseInterval u.range u.low bit prob).low.toNat *
      2 ^ nshift (chooseInterval u.range u.low bit prob).range % 256 := by
  have hg := ho.gone_eq
  have hcap := ho.2.2.2.2.1
  obtain ⟨u1, h1, a1, g1, o1⟩ : ∃ u1,
      carryIfDue c (chooseInterval u.range u.low bit prob).carries u = .ok u1 ∧ AsmOk c u1 ∧ gone u1 = gone u ∧
      outgoing u1 = if (chooseInterval u.range u.low bit prob).carries then carried (outgoing u) else outgoing u := by
    by_cases hcar : (chooseInterval u.range u.low bit prob).carries = true
    · have hheld : u.held = true := by
        by_contra hne
        have h1 := ho.2.2.2.2.2 (by simpa using hne)
        obtain ⟨_, hs2⟩ := split_bounds (prob := prob.toNat) ho.1 prob.isLt
        cases bit with
        | false => simp [chooseInterval] at hcar
        | true => simp only [chooseInterval] at hcar; simp at hcar; omega
      obtain ⟨u1, h1, a1, w1, p1, g1, l1, e1⟩ := carry_ok hc h hheld (by omega)
      refine ⟨u1, by rw [hcar, carryIfDue, if_pos rfl, h1], a1, g1, ?_⟩
      rw [hcar, if_pos rfl, carry_outgoing hc h hheld (by omega) h1]
    · refine ⟨u, by rw [carryIfDue, if_neg hcar], h, rfl, by rw [if_neg hcar]⟩
  rw [codeBit, h1, bind_ok] at hr
  obtain ⟨u2, h2, h3⟩ := bind_ok_iff.1 hr
  obtain ⟨x, _, h5⟩ := bind_ok_iff.1 h3
  cases h5
  have := renormalize_outgoing hc (nshift_le _) (u := { u1 with low := (chooseInterval u.range u.low bit prob).low, range := BitVec.ofNat 8 (chooseInterval u.range u.low bit prob).range }) ⟨a1.mem, a1.stored, a1.pending⟩ (by show gone u1 + _ ≤ _; omega) h2
  rw [← o1]
  exact this

end Sys2Proof.Machine
end

