-- ==== Sys2Proof/Laws/PerInstr.lean ====
section
/-!
SUPPORT. One lemma per instruction: its word fits one row of the opcode map, and that row makes the instruction again
(spec/30_encoding.md R104, R105).
-/
namespace Sys2Proof.Laws.EncodeFitsRow

/-- The word of the instruction fits a row of R105 whose fields are the instruction's operands. -/
def Statement (i : Instr) : Prop := ∃ r ∈ rows, r.fits (encode i) = true ∧ r.make (encode i) = i

theorem rceInit (cap : BitVec 32) : Statement (.rceInit cap) := by
  refine ⟨rows[0], List.getElem_mem _, ?_, ?_⟩
  · exact beq_iff_eq.2 (formatL_fixed _ _)
  · exact congrArg Instr.rceInit (formatL_imm _ _)

theorem rcePutbit (bit : Bool) (prob : BitVec 8) : Statement (.rcePutbit bit prob) := by
  refine ⟨rows[1], List.getElem_mem _, ?_, ?_⟩
  · exact beq_iff_eq.2 (formatB_fixed _ _ _)
  · exact congrArg₂ Instr.rcePutbit (formatB_bit _ _ _) (formatB_prob _ _ _)

theorem rceFinish : Statement .rceFinish := by
  refine ⟨rows[2], List.getElem_mem _, ?_, ?_⟩
  · exact beq_iff_eq.2 (formatZ_fixed _)
  · rfl

theorem rceAbort : Statement .rceAbort := by
  refine ⟨rows[3], List.getElem_mem _, ?_, ?_⟩
  · exact beq_iff_eq.2 (formatZ_fixed _)
  · rfl

theorem rcdInit (len : BitVec 32) : Statement (.rcdInit len) := by
  refine ⟨rows[4], List.getElem_mem _, ?_, ?_⟩
  · exact beq_iff_eq.2 (formatL_fixed _ _)
  · exact congrArg Instr.rcdInit (formatL_imm _ _)

theorem rcdGetbit (prob : BitVec 8) : Statement (.rcdGetbit prob) := by
  refine ⟨rows[5], List.getElem_mem _, ?_, ?_⟩
  · exact beq_iff_eq.2 (formatP_fixed _ _)
  · exact congrArg Instr.rcdGetbit (formatP_b _ _)

theorem bpwInit (cap : BitVec 32) : Statement (.bpwInit cap) := by
  refine ⟨rows[6], List.getElem_mem _, ?_, ?_⟩
  · exact beq_iff_eq.2 (formatL_fixed _ _)
  · exact congrArg Instr.bpwInit (formatL_imm _ _)

theorem bpwPutbits (value : BitVec 32) (nbits : BitVec 8) : Statement (.bpwPutbits value nbits) := by
  refine ⟨rows[7], List.getElem_mem _, ?_, ?_⟩
  · exact beq_iff_eq.2 (formatV_fixed _ _ _)
  · exact congrArg₂ Instr.bpwPutbits (formatV_value _ _ _) (formatV_nbits _ _ _)

theorem bpwFinish : Statement .bpwFinish := by
  refine ⟨rows[8], List.getElem_mem _, ?_, ?_⟩
  · exact beq_iff_eq.2 (formatZ_fixed _)
  · rfl

theorem bpwAbort : Statement .bpwAbort := by
  refine ⟨rows[9], List.getElem_mem _, ?_, ?_⟩
  · exact beq_iff_eq.2 (formatZ_fixed _)
  · rfl

theorem bprInit (len : BitVec 32) : Statement (.bprInit len) := by
  refine ⟨rows[10], List.getElem_mem _, ?_, ?_⟩
  · exact beq_iff_eq.2 (formatL_fixed _ _)
  · exact congrArg Instr.bprInit (formatL_imm _ _)

theorem bprReadbits (nbits : BitVec 8) : Statement (.bprReadbits nbits) := by
  refine ⟨rows[11], List.getElem_mem _, ?_, ?_⟩
  · exact beq_iff_eq.2 (formatN_fixed _ _)
  · exact congrArg Instr.bprReadbits (formatN_nbits _ _)

theorem pred0 (top : BitVec 16) (left : Pixel) : Statement (.pred0 top left) := by
  refine ⟨rows[12], List.getElem_mem _, ?_, ?_⟩
  · exact beq_iff_eq.2 (formatPR_fixed _ _ _)
  · exact congrArg₂ Instr.pred0 (formatPR_top _ _ _) (formatPR_left _ _ _)

theorem pred1 (top : BitVec 16) (left : Pixel) : Statement (.pred1 top left) := by
  refine ⟨rows[13], List.getElem_mem _, ?_, ?_⟩
  · exact beq_iff_eq.2 (formatPR_fixed _ _ _)
  · exact congrArg₂ Instr.pred1 (formatPR_top _ _ _) (formatPR_left _ _ _)

theorem pred2 (top : BitVec 16) (left : Pixel) : Statement (.pred2 top left) := by
  refine ⟨rows[14], List.getElem_mem _, ?_, ?_⟩
  · exact beq_iff_eq.2 (formatPR_fixed _ _ _)
  · exact congrArg₂ Instr.pred2 (formatPR_top _ _ _) (formatPR_left _ _ _)

theorem pred3 (top : BitVec 16) (left : Pixel) : Statement (.pred3 top left) := by
  refine ⟨rows[15], List.getElem_mem _, ?_, ?_⟩
  · exact beq_iff_eq.2 (formatPR_fixed _ _ _)
  · exact congrArg₂ Instr.pred3 (formatPR_top _ _ _) (formatPR_left _ _ _)

theorem pred4 (top : BitVec 16) (left : Pixel) : Statement (.pred4 top left) := by
  refine ⟨rows[16], List.getElem_mem _, ?_, ?_⟩
  · exact beq_iff_eq.2 (formatPR_fixed _ _ _)
  · exact congrArg₂ Instr.pred4 (formatPR_top _ _ _) (formatPR_left _ _ _)

theorem pred5 (top : BitVec 16) (left : Pixel) : Statement (.pred5 top left) := by
  refine ⟨rows[17], List.getElem_mem _, ?_, ?_⟩
  · exact beq_iff_eq.2 (formatPR_fixed _ _ _)
  · exact congrArg₂ Instr.pred5 (formatPR_top _ _ _) (formatPR_left _ _ _)

theorem pred6 (top : BitVec 16) (left : Pixel) : Statement (.pred6 top left) := by
  refine ⟨rows[18], List.getElem_mem _, ?_, ?_⟩
  · exact beq_iff_eq.2 (formatPR_fixed _ _ _)
  · exact congrArg₂ Instr.pred6 (formatPR_top _ _ _) (formatPR_left _ _ _)

theorem pred7 (top : BitVec 16) (left : Pixel) : Statement (.pred7 top left) := by
  refine ⟨rows[19], List.getElem_mem _, ?_, ?_⟩
  · exact beq_iff_eq.2 (formatPR_fixed _ _ _)
  · exact congrArg₂ Instr.pred7 (formatPR_top _ _ _) (formatPR_left _ _ _)

theorem pred8 (top : BitVec 16) (left : Pixel) : Statement (.pred8 top left) := by
  refine ⟨rows[20], List.getElem_mem _, ?_, ?_⟩
  · exact beq_iff_eq.2 (formatPR_fixed _ _ _)
  · exact congrArg₂ Instr.pred8 (formatPR_top _ _ _) (formatPR_left _ _ _)

theorem pred9 (top : BitVec 16) (left : Pixel) : Statement (.pred9 top left) := by
  refine ⟨rows[21], List.getElem_mem _, ?_, ?_⟩
  · exact beq_iff_eq.2 (formatPR_fixed _ _ _)
  · exact congrArg₂ Instr.pred9 (formatPR_top _ _ _) (formatPR_left _ _ _)

theorem pred10 (top : BitVec 16) (left : Pixel) : Statement (.pred10 top left) := by
  refine ⟨rows[22], List.getElem_mem _, ?_, ?_⟩
  · exact beq_iff_eq.2 (formatPR_fixed _ _ _)
  · exact congrArg₂ Instr.pred10 (formatPR_top _ _ _) (formatPR_left _ _ _)

theorem pred11 (top : BitVec 16) (left : Pixel) : Statement (.pred11 top left) := by
  refine ⟨rows[23], List.getElem_mem _, ?_, ?_⟩
  · exact beq_iff_eq.2 (formatPR_fixed _ _ _)
  · exact congrArg₂ Instr.pred11 (formatPR_top _ _ _) (formatPR_left _ _ _)

theorem pred12 (top : BitVec 16) (left : Pixel) : Statement (.pred12 top left) := by
  refine ⟨rows[24], List.getElem_mem _, ?_, ?_⟩
  · exact beq_iff_eq.2 (formatPR_fixed _ _ _)
  · exact congrArg₂ Instr.pred12 (formatPR_top _ _ _) (formatPR_left _ _ _)

theorem pred13 (top : BitVec 16) (left : Pixel) : Statement (.pred13 top left) := by
  refine ⟨rows[25], List.getElem_mem _, ?_, ?_⟩
  · exact beq_iff_eq.2 (formatPR_fixed _ _ _)
  · exact congrArg₂ Instr.pred13 (formatPR_top _ _ _) (formatPR_left _ _ _)

theorem subg (addr : BitVec 16) (count : BitVec 16) : Statement (.subg addr count) := by
  refine ⟨rows[26], List.getElem_mem _, ?_, ?_⟩
  · exact beq_iff_eq.2 (formatA_fixed _ _ _)
  · exact congrArg₂ Instr.subg (formatA_addr _ _ _) (formatA_count _ _ _)

theorem addg (addr : BitVec 16) (count : BitVec 16) : Statement (.addg addr count) := by
  refine ⟨rows[27], List.getElem_mem _, ?_, ?_⟩
  · exact beq_iff_eq.2 (formatA_fixed _ _ _)
  · exact congrArg₂ Instr.addg (formatA_addr _ _ _) (formatA_count _ _ _)

theorem ctSetm (g2r : BitVec 8) (g2b : BitVec 8) (r2b : BitVec 8) : Statement (.ctSetm g2r g2b r2b) := by
  refine ⟨rows[28], List.getElem_mem _, ?_, ?_⟩
  · exact beq_iff_eq.2 (formatM_fixed _ _ _ _)
  · exact congr (congrArg₂ Instr.ctSetm (formatM_g2r _ _ _ _) (formatM_g2b _ _ _ _)) (formatM_r2b _ _ _ _)

theorem ctFwd (addr : BitVec 16) (count : BitVec 16) : Statement (.ctFwd addr count) := by
  refine ⟨rows[29], List.getElem_mem _, ?_, ?_⟩
  · exact beq_iff_eq.2 (formatA_fixed _ _ _)
  · exact congrArg₂ Instr.ctFwd (formatA_addr _ _ _) (formatA_count _ _ _)

theorem ctInv (src : BitVec 16) (dst : BitVec 16) (count : BitVec 16) : Statement (.ctInv src dst count) := by
  refine ⟨rows[30], List.getElem_mem _, ?_, ?_⟩
  · exact beq_iff_eq.2 (formatA3_fixed _ _ _ _)
  · exact congr (congrArg₂ Instr.ctInv (formatA3_src _ _ _ _) (formatA3_dst _ _ _ _)) (formatA3_count _ _ _ _)

theorem rdsr (sr : BitVec 8) : Statement (.rdsr sr) := by
  refine ⟨rows[31], List.getElem_mem _, ?_, ?_⟩
  · exact beq_iff_eq.2 (formatP_fixed _ _)
  · exact congrArg Instr.rdsr (formatP_b _ _)

end Sys2Proof.Laws.EncodeFitsRow
end

