-- ==== Sys2Proof/Tests/Slice0.lean ====
section
/-!
SUPPORT. The model's own tests: ill-formed words refused by each check of spec/30_encoding.md R106, words written out from the
encodings of R92 to R105, single steps with the responses spec/95_test_vectors.md and the rules' worked examples give, and for
each statement with hypotheses a witness that meets them.
-/
namespace Sys2Proof.Tests

open Sys2Proof.Machine

/-! ### Ill-formed words (spec/95_test_vectors.md 2.8) -/

/-- R106 (a): opcodes 0x00 and 0xFF are not assigned. -/
theorem test_unassigned_opcode : WellFormed.opcodeAssigned 0xFF00000000000000 = false ∧
    WellFormed.opcodeAssigned 0 = false ∧ decode 0xFF00000000000000 = none ∧ decode 0 = none := by decide

/-- R106 (b): a `zero` bit set in formats Z, B, L. -/
theorem test_zero_bit_set : WellFormed.zerosClear 0x1200000000000001 = false ∧
    WellFormed.zerosClear 0x1100000000000280 = false ∧ WellFormed.zerosClear 0x1000000100000000 = false ∧
    decode 0x1200000000000001 = none ∧ decode 0x1100000000000280 = none ∧ decode 0x1000000100000000 = none := by decide

/-- R106 (b): a `zero` bit set in formats PR, N, S, A3. -/
theorem test_zero_bit_set_more : WellFormed.zerosClear 0x3001000100000000 = false ∧
    WellFormed.zerosClear 0x2900000300000001 = false ∧ WellFormed.zerosClear 0x5000000000000100 = false ∧
    WellFormed.zerosClear 0x4401000000000000 = false ∧ decode 0x3001000100000000 = none ∧
    decode 0x2900000300000001 = none ∧ decode 0x5000000000000100 = none ∧ decode 0x4401000000000000 = none := by decide

/-- R106 (c): predictor modes 14 and 15. -/
theorem test_mode_illegal : WellFormed.modeLegal 0x30E0000100000000 = false ∧
    WellFormed.modeLegal 0x30F0000000000000 = false ∧ decode 0x30E0000100000000 = none ∧
    decode 0x30F0000000000000 = none := by decide

/-- The words of the table in 2.8 that decode are well formed. -/
theorem test_legal_words : WellFormed.wordLegal 0x1000000000000010 = true ∧
    WellFormed.wordLegal 0x1100000000000180 = true ∧ WellFormed.wordLegal 0x2100001800ABCDEF = true ∧
    WellFormed.wordLegal 0x30C00001FF102030 = true ∧ WellFormed.wordLegal 0x4400000300100008 = true := by decide

/-! ### Every constructor's decoding, by a word written out from R92 to R105 -/

theorem test_decode_rce : decode 0x1000000000000010 = some (.rceInit 16) ∧
    decode 0x1100000000000180 = some (.rcePutbit true 128) ∧ decode 0x11000000000000FF = some (.rcePutbit false 255) ∧
    decode 0x1200000000000000 = some .rceFinish ∧ decode 0x1300000000000000 = some .rceAbort := by decide

theorem test_decode_rcd : decode 0x1800000000000002 = some (.rcdInit 2) ∧
    decode 0x1900000000000080 = some (.rcdGetbit 128) := by decide

theorem test_decode_bpw : decode 0x2000000000000008 = some (.bpwInit 8) ∧
    decode 0x2100000300000005 = some (.bpwPutbits 5 3) ∧ decode 0x2100001800ABCDEF = some (.bpwPutbits 0xABCDEF 24) ∧
    decode 0x2200000000000000 = some .bpwFinish ∧ decode 0x2300000000000000 = some .bpwAbort := by decide

theorem test_decode_bpr : decode 0x2800000000000005 = some (.bprInit 5) ∧
    decode 0x2900001000000000 = some (.bprReadbits 16) := by decide

/-- The words 0x30m00001FF102030 of 2.6. -/
theorem test_decode_pred_low : decode 0x30000001FF102030 = some (.pred0 1 0xFF102030) ∧
    decode 0x30100001FF102030 = some (.pred1 1 0xFF102030) ∧ decode 0x30200001FF102030 = some (.pred2 1 0xFF102030) ∧
    decode 0x30300001FF102030 = some (.pred3 1 0xFF102030) ∧ decode 0x30400001FF102030 = some (.pred4 1 0xFF102030) ∧
    decode 0x30500001FF102030 = some (.pred5 1 0xFF102030) ∧ decode 0x30600001FF102030 = some (.pred6 1 0xFF102030) := by
  decide

theorem test_decode_pred_high : decode 0x30700001FF102030 = some (.pred7 1 0xFF102030) ∧
    decode 0x30800001FF102030 = some (.pred8 1 0xFF102030) ∧ decode 0x30900001FF102030 = some (.pred9 1 0xFF102030) ∧
    decode 0x30A00001FF102030 = some (.pred10 1 0xFF102030) ∧ decode 0x30B00001FF102030 = some (.pred11 1 0xFF102030) ∧
    decode 0x30C00001FF102030 = some (.pred12 1 0xFF102030) ∧ decode 0x30D00001FF102030 = some (.pred13 1 0xFF102030) := by
  decide

/-- CT.INV has src 8, dst 16, count 3 (2.8). -/
theorem test_decode_cdt : decode 0x4000000000030008 = some (.subg 8 3) ∧ decode 0x4100000000030010 = some (.addg 16 3) ∧
    decode 0x420000000020F040 = some (.ctSetm 0x20 0xF0 0x40) ∧ decode 0x4300000000030008 = some (.ctFwd 8 3) ∧
    decode 0x4400000300100008 = some (.ctInv 8 16 3) := by decide

theorem test_decode_rdsr : decode 0x5000000000000003 = some (.rdsr 3) := by decide

/-- The table's numbering is the command word's own (R92). -/
theorem test_decode_table_word : decodeTableWord 64 0x4400000300100008 = some (.ctInv 8 16 3) ∧
    decodeTableWord 64 0x30E0000100000000 = none := by decide

/-- The expansion of R164 and R110: 0xDEADBEEF in two halves, and CT.CLRM; there is no PRED 14. -/
theorem test_pseudo : expand (.bpwPut32 0xDEADBEEF) = some [.bpwPutbits 0xBEEF 16, .bpwPutbits 0xDEAD 16] ∧
    expand .ctClrm = some [.ctSetm 0 0 0] ∧ expand (.pred 14 1 0) = none ∧
    expand (.pred 12 5 0xFF102030) = some [.pred12 5 0xFF102030] := by decide

/-- R109's own lines, a coefficient with a sign (R235), a comment, a binary number, an operand too wide for its field. -/
theorem test_assemble : assemble "RCE.PUTBIT 1, 128" = some [.rcePutbit true 128] ∧
    assemble "PRED12 0x0005, 0xFF102030" = some [.pred12 5 0xFF102030] ∧
    assemble "CT.SETM 32, -16, 64 ; one tuple" = some [.ctSetm 0x20 0xF0 0x40] ∧
    assemble "  BPW.PUTBITS 0b101, 3" = some [.bpwPutbits 5 3] ∧ assemble "RCE.PUTBIT 1, 256" = none ∧
    assemble "; nothing" = some [] ∧ assemble (assemblyLine (.ctInv 8 16 3)) = some [.ctInv 8 16 3] := by decide

theorem test_assemble_pseudo : assemble "BPW.PUT32 0xDEADBEEF" = some [.bpwPutbits 0xBEEF 16, .bpwPutbits 0xDEAD 16] ∧
    assemble "CT.CLRM" = some [.ctSetm 0 0 0] ∧ assemble "PRED 14, 1, 0" = none ∧
    assemble "PRED 3, 1, 0" = some [.pred3 1 0] := by decide

/-- The lines of P1, P3 and P4 that name a status register, and P4's reserved number. -/
theorem test_assemble_rdsr : assemble "RDSR RCE_POS" = some [.rdsr 0x03] ∧ assemble "RDSR CDT_MULT" = some [.rdsr 0x10] ∧
    assemble "RDSR CC" = some [.rdsr 0x11] ∧ assemble "RDSR 0x06" = some [.rdsr 0x06] ∧ assemble "RDSR XX_POS" = none := by
  decide

/-! ### Small states -/

/-- Sizes of 16 bytes and 16 words. -/
def small : State := State.resetWith ⟨16, 16⟩

/-- An encoder session just opened with a budget of 2 bytes. -/
def rceOpen : State := small.setRce (openRce small.rce 2)

/-- The encoder of the worked example of R131 (row 3 of R147): RANGE 254, LOW 254, HELD 1, OUTST 0, pending bits 10, BITPOS 3. -/
def rceCarry : State := small.setRce
  { openRce small.rce 16 with range := 254, low := 254, held := true, pbyte := 2, pcnt := 2, bitpos := 3 }

/-- The encoder before the FINISH of R147: LOW 244, HELD 1, OUTST 1, pending bits 101, BITPOS 5. -/
def rceEnd : State := small.setRce
  { openRce small.rce 16 with
    range := 254, low := 244, held := true, outst := 1, pbyte := 5, pcnt := 3, bitpos := 5 }

/-- An encoder with 8 shifts of a budget of 2 bytes: the last one that fits (2.3). -/
def rceFull : State := small.setRce
  { openRce small.rce 2 with range := 254, low := 0, outst := 8, bitpos := 8 }

/-- An encoder session in error CAPACITY. -/
def rceError : State := small.setRce { openRce small.rce 2 with err := .capacity }

/-- A decoder with the stream AF A0 of R147 in its buffer. -/
def rcdLoaded : State := small.setRcd { small.rcd with ibuf := [(0, 0xAF), (1, 0xA0)] }

/-- The decoder after `RCD.INIT 2` of R147. -/
def rcdOpen : State := rcdLoaded.setRcd (openRcd rcdLoaded.rcd 2 0xAF)

/-- The decoder at the end of the stream 80 00 (2.3): VALUE 0, RANGE 254, BITPOS 16. -/
def rcdAtEnd : State := small.setRcd
  { openRcd { small.rcd with ibuf := [(0, 0x80), (1, 0x00)] } 2 0 with range := 254, bitpos := 16 }

/-- A writer with 7 pending 1 bits (2.4). -/
def bpwSeven : State := small.setBpw { openBpw small.bpw 4 with acc := 0x7F, pend := 7 }

/-- A writer that holds the five bits of S2. -/
def bpwFive : State := small.setBpw { openBpw small.bpw 4 with acc := 0x1D, pend := 5 }

/-- A writer session in error CAPACITY. -/
def bpwError : State := small.setBpw { openBpw small.bpw 0 with err := .capacity }

/-- A reader of FF FF FF 01 that has read one bit (2.4). -/
def bprOne : State := small.setBpr
  { openBpr { small.bpr with ibuf := [(0, 0xFF), (1, 0xFF), (2, 0xFF), (3, 0x01)] } 4 with acc := 0x7F, cnt := 7, pos := 1 }

/-- The neighbours of set 1 and the row of P3 (2.6, 3). -/
def pixels : State := small.setPmem
  [(0, 0xFF405060), (1, 0x80807060), (2, 0x00FF00FF), (8, 0xFF102030), (9, 0xFF80FF7F), (10, 0x00FF80FF)]

/-- The same with the tuple of R235. -/
def tuple : State := pixels.setMult 0x20F040

/-- A pixel memory full from end to end, and the tuple of R235. -/
def fullPmem : State := small.setPmem ((List.range 16).map fun k => (k, BitVec.ofNat 32 (k * 0x01020304)))

/-- Status and value of the response. -/
def reply (r : Result) : Option (Nat × Nat) :=
  match r with
  | .next t => match t.ports with
    | .response w => some ((statusField w).toNat, (valueField w).toNat)
    | .idle => none
    | .command _ => none
  | .fault _ => none
  | .refused _ => none

/-- The state after a step, the state before where there is none. -/
def after (i : Instr) (s : State) : State :=
  match exec i s with
  | .next t => t
  | .fault _ => s
  | .refused _ => s

/-! ### The range coder -/

/-- R130. -/
theorem test_rce_init : reply (exec (.rceInit 16) small) = some (0, 0) ∧ (after (.rceInit 16) small).rce.range = 255 ∧
    (after (.rceInit 16) small).rce.st = .active := by decide

/-- 2.3, P4: OPERAND for 0 and above the buffer, STATE while open. -/
theorem test_rce_init_refused : reply (exec (.rceInit 0) small) = some (3, 0) ∧
    reply (exec (.rceInit 17) small) = some (3, 0) ∧ reply (exec (.rceInit 1) rceOpen) = some (2, 0) := by decide

/-- R131's worked example, with a carry: LOW 250, RANGE 254, a new 0 held, the pending bits 101. -/
theorem test_rce_putbit_carry : (after (.rcePutbit true 128) rceCarry).rce =
    { rceCarry.rce with low := 250, range := 254, held := true, pbyte := 5, pcnt := 3, bitpos := 4 } := by decide

/-- 2.3: the ninth bit of a budget of 2 bytes is refused and only ERR changes. -/
theorem test_rce_putbit_capacity : reply (exec (.rcePutbit true 128) rceFull) = some (5, 0) ∧
    (after (.rcePutbit true 128) rceFull).rce = { rceFull.rce with err := .capacity } := by decide

/-- R147: the bytes AF A0. -/
theorem test_rce_finish : reply (exec .rceFinish rceEnd) = some (0, 2) ∧
    (after .rceFinish rceEnd).rce.obuf = [(0, 0xAF), (1, 0xA0)] := by decide

/-- 2.3: the empty stream is the one byte 0x00. -/
theorem test_rce_finish_empty : reply (exec .rceFinish rceOpen) = some (0, 1) ∧
    (after .rceFinish rceOpen).rce.obuf = [(0, 0x00)] := by decide

/-- R135. -/
theorem test_rce_abort : reply (exec .rceAbort rceError) = some (0, 0) ∧
    (after .rceAbort rceError).rce.err = .ok ∧ reply (exec .rceAbort small) = some (2, 0) := by decide

/-- R147: `RCD.INIT 2` gives VALUE 175, RANGE 255, BITPOS 8. -/
theorem test_rcd_init : (after (.rcdInit 2) rcdLoaded).rcd =
    { rcdLoaded.rcd with ilen := 2, range := 255, value := 175, bitpos := 8, st := .active } := by decide

/-- 2.3: EOS for 0, CORRUPT for a first byte FF, a fault for a byte nothing has written (R63). -/
theorem test_rcd_init_refused : reply (exec (.rcdInit 0) rcdOpen) = some (6, 0) ∧
    reply (exec (.rcdInit 2) (small.setRcd { small.rcd with ibuf := [(0, 0xFF), (1, 0)] })) = some (7, 0) ∧
    reply (exec (.rcdInit 1) small) = none := by decide

/-- R142's worked example: bit 1, value 95, range 254. -/
theorem test_rcd_getbit : reply (exec (.rcdGetbit 128) rcdOpen) = some (0, 1) ∧
    (after (.rcdGetbit 128) rcdOpen).rcd = { rcdOpen.rcd with value := 95, range := 254, bitpos := 9 } := by decide

/-- 2.3: bit 16 of 16 is past the end; only ERR changes. -/
theorem test_rcd_getbit_eos : reply (exec (.rcdGetbit 128) rcdAtEnd) = some (6, 0) ∧
    (after (.rcdGetbit 128) rcdAtEnd).rcd = { rcdAtEnd.rcd with err := .eos } := by decide

/-! ### The bit packer -/

/-- R161: a budget of 0 is legal; above the buffer OPERAND. -/
theorem test_bpw_init : reply (exec (.bpwInit 0) small) = some (0, 0) ∧ reply (exec (.bpwInit 17) small) = some (3, 0) := by
  decide

/-- 2.4: 24 bits on top of 7 pending; the bytes FF F7 E6 and the pending bits of D5. -/
theorem test_bpw_putbits : (after (.bpwPutbits 0xABCDEF 24) bpwSeven).bpw =
    { bpwSeven.bpw with acc := 0x55, pend := 7, olen := 3, obuf := [(0, 0xFF), (1, 0xF7), (2, 0xE6)] } := by decide

/-- 2.4, 2.9: bits above `nbits` are ignored; 25 bits are refused even without a budget. -/
theorem test_bpw_putbits_corners : (after (.bpwPutbits 0xFFFFFFF5 3) (small.setBpw (openBpw small.bpw 2))).bpw.acc = 5 ∧
    reply (exec (.bpwPutbits 1 25) (small.setBpw (openBpw small.bpw 0))) = some (3, 0) := by decide

/-- S2: the byte 0x1D. -/
theorem test_bpw_finish : reply (exec .bpwFinish bpwFive) = some (0, 1) ∧
    (after .bpwFinish bpwFive).bpw.obuf = [(0, 0x1D)] := by decide

/-- R278: the failing FINISH. -/
theorem test_bpw_finish_error : reply (exec .bpwFinish bpwError) = some (5, 0) ∧
    (after .bpwFinish bpwError).bpw = { bpwError.bpw with st := .idle } := by decide

/-- R166: ABORT clears ERR. -/
theorem test_bpw_abort : reply (exec .bpwAbort bpwError) = some (0, 0) ∧ (after .bpwAbort bpwError).bpw.err = .ok := by
  decide

/-- 2.4: INIT 0 is legal; above the buffer OPERAND and IDLE. -/
theorem test_bpr_init : reply (exec (.bprInit 0) bprOne) = some (0, 0) ∧ reply (exec (.bprInit 17) bprOne) = some (3, 0) ∧
    (after (.bprInit 17) bprOne).bpr.st = .idle := by decide

/-- 2.4: 24 bits after one bit read; three refills, CNT reaches 31. -/
theorem test_bpr_readbits : reply (exec (.bprReadbits 24) bprOne) = some (0, 0x00FFFFFF) ∧
    (after (.bprReadbits 24) bprOne).bpr = { bprOne.bpr with acc := 0, cnt := 7, pos := 4 } := by decide

/-- R171, R172: OPERAND for 25, and the two bits over the end. -/
theorem test_bpr_readbits_refused : reply (exec (.bprReadbits 25) bprOne) = some (3, 0) ∧
    reply (exec (.bprReadbits 3) (small.setBpr { openBpr small.bpr 1 with acc := 1, cnt := 2, pos := 1 })) = some (6, 0) := by
  decide

/-! ### The predictors (2.6, set 1) -/

theorem test_pred_copying : reply (exec (.pred0 1 0xFF102030) pixels) = some (0, 0xFF000000) ∧
    reply (exec (.pred1 1 0xFF102030) pixels) = some (0, 0xFF102030) ∧
    reply (exec (.pred2 1 0xFF102030) pixels) = some (0, 0x80807060) ∧
    reply (exec (.pred3 1 0xFF102030) pixels) = some (0, 0x00FF00FF) ∧
    reply (exec (.pred4 1 0xFF102030) pixels) = some (0, 0xFF405060) := by decide

theorem test_pred_averaging : reply (exec (.pred5 1 0xFF102030) pixels) = some (0, 0x7F83407B) ∧
    reply (exec (.pred6 1 0xFF102030) pixels) = some (0, 0xFF283848) ∧
    reply (exec (.pred7 1 0xFF102030) pixels) = some (0, 0xBF484848) ∧
    reply (exec (.pred8 1 0xFF102030) pixels) = some (0, 0xBF606060) ∧
    reply (exec (.pred9 1 0xFF102030) pixels) = some (0, 0x40BF38AF) ∧
    reply (exec (.pred10 1 0xFF102030) pixels) = some (0, 0x9F73387B) := by decide

theorem test_pred_gradient : reply (exec (.pred11 1 0xFF102030) pixels) = some (0, 0xFF102030) ∧
    reply (exec (.pred12 1 0xFF102030) pixels) = some (0, 0x80504030) ∧
    reply (exec (.pred13 1 0xFF102030) pixels) = some (0, 0x9F4C443C) := by decide

/-- 2.6: the address check at both ends of 16 words. -/
theorem test_pred_addr : reply (exec (.pred2 0 0) pixels) = some (4, 0) ∧ reply (exec (.pred0 15 0) pixels) = some (4, 0) ∧
    reply (exec (.pred2 14 0) fullPmem) = some (0, 14 * 0x01020304) ∧ reply (exec (.pred0 5 0) pixels) = none := by decide

/-- 2.5: a tie of Select returns T; the clamp; the half rounds toward zero; avg2 carries nothing between lanes. -/
theorem test_helpers : select 0x00000010 0x00000000 0x00000008 = 0x00000010 ∧
    select 0x00000011 0x00000000 0x00000008 = 0x00000000 ∧
    clampedAddSubtractFull 0x10FF0080 0x20FF0080 0x4000FF01 = 0x00FF00FF ∧
    clampedAddSubtractHalf 0x10101010 0x13131313 = 0x0F0F0F0F ∧ avg2 0x80000001 0x7FFFFFFE = 0x7F7F7F7F ∧
    clip255 0x7FFFFFFF = 128 := by decide

/-! ### The colour transform (2.7) -/

theorem test_subg : (after (.subg 8 1) pixels).pmem.read 8 = some 0xFFF02010 ∧
    subGreen 0x12FFFF00 = 0x1200FF01 ∧ subGreen 0x80FF0001 = 0x80FF0001 := by decide

theorem test_addg : addGreen 0xFFF02010 = 0xFF102030 ∧ addGreen 0x1200FF01 = 0x12FFFF00 ∧
    reply (exec (.addg 8 3) pixels) = some (0, 0) := by decide

/-- R235's worked example. -/
theorem test_ct_setm : (after (.ctSetm 0x20 0xF0 0x40) pixels).mult = 0x20F040 ∧
    reply (exec (.ctSetm 0x20 0xF0 0x40) pixels) = some (0, 0) := by decide

/-- 2.7, rows 1 to 3. -/
theorem test_ct_fwd : (after (.ctFwd 8 3) tuple).pmem.read 8 = some 0xFFF02020 ∧
    (after (.ctFwd 8 3) tuple).pmem.read 9 = some 0xFF81FF7F ∧
    (after (.ctFwd 8 3) tuple).pmem.read 10 = some 0x007F80C1 := by decide

/-- 2.7, row 5: the extreme coefficient. -/
theorem test_ct_fwd_extreme : forwardPixel 0x808080 0x007F7F7F = 0x007B7F77 ∧ delta 0xFF 0x01 = -1 ∧
    delta 0x80 0x80 = 512 := by decide

/-- R237's worked example, out of place, and a destination range outside PMEM. -/
theorem test_ct_inv : (after (.ctInv 3 12 1) (tuple.setPmem [(3, 0xFFF02020)])).pmem =
      [(3, 0xFFF02020), (12, 0xFF102030)] ∧
    reply (exec (.ctInv 0 15 2) tuple) = some (4, 0) := by decide

/-- R237: with `src < dst < src + count` a later read sees an earlier result. -/
theorem test_ct_inv_overlap : (after (.ctInv 0 1 2) (small.setPmem [(0, 5), (1, 7)])).pmem = [(0, 5), (1, 5), (2, 5)] := by
  decide

/-! ### The system -/

/-- R260: RCE_STAT with ST 1 and ERR 5 (P4), CDT_MULT, a reserved number. -/
theorem test_rdsr : reply (exec (.rdsr 0x00) rceError) = some (0, 0x0B) ∧
    reply (exec (.rdsr 0x10) tuple) = some (0, 0x20F040) ∧ reply (exec (.rdsr 0x06) small) = some (3, 0) := by decide

/-- 2.4: BPW_POS and BPR_POS. -/
theorem test_rdsr_positions : reply (exec (.rdsr 0x0B) bpwSeven) = some (0, 7) ∧
    reply (exec (.rdsr 0x0F) bprOne) = some (0, 1) := by decide

/-- R53: the first command after reset runs with CC 0; an illegal word counts too (R273). -/
theorem test_command_counter : reply (exec (.rdsr 0x11) State.reset) = some (0, 0) ∧
    reply (step (State.reset.withFetchWord 64 0x30E0000100000000)) = some (1, 0) ∧
    reply (step (State.reset.withFetchWord 64 0x1000000000000010)) = some (0, 0) := by decide

/-- R310: with nothing presented the core waits. -/
theorem test_waits : step State.reset = .next State.reset := rfl

/-! ### Witnesses: for each statement with hypotheses, states and operands that meet them all, clause by clause -/

/-- The invariant of a state with idle ports, part by part. -/
theorem inv_of_idle {s : State} (hp : s.ports = .idle) (h1 : s.cfg.Legal := by decide)
    (h2 : rceInv s.cfg s.rce := by decide) (h3 : rcdInv s.cfg s.rcd := by decide)
    (h4 : bpwInv s.cfg s.bpw := by decide) (h5 : bprInv s.cfg s.bpr := by decide)
    (h6 : memoryOk s.pmem s.cfg.pmemWords := by decide) : s.Inv :=
  ⟨h1, h2, h3, h4, h5, h6, by rw [hp]; trivial⟩

theorem inv_present {s : State} (h : s.Inv) (w : Word64) : (present s w).Inv := by
  obtain ⟨h1, h2, h3, h4, h5, h6, _⟩ := h
  exact ⟨h1, h2, h3, h4, h5, h6, trivial⟩

theorem step_present {s : State} {w : Word64} {i : Instr} (h : decode w = some i) : step (present s w) = exec i (present s w) := by
  simp [step, presented, present, h]

/-- Whether an instruction completes. -/
def completes (i : Instr) (s : State) : Bool :=
  match exec i s with
  | .next _ => true
  | .fault _ => false
  | .refused _ => false

theorem exec_after {i : Instr} {s : State} (h : completes i s = true) : exec i s = .next (after i s) := by
  unfold completes at h
  unfold after
  cases hx : exec i s <;> simp_all

/-- The fault an instruction stops with. -/
def faultOf (i : Instr) (s : State) : Option Fault :=
  match exec i s with
  | .next _ => none
  | .fault f => some f
  | .refused _ => none

theorem exec_fault {i : Instr} {s : State} {f : Fault} (h : faultOf i s = some f) : exec i s = .fault f := by
  unfold faultOf at h
  cases hx : exec i s <;> simp_all

theorem answered_after {i : Instr} {s : State} {e : Status} {v : Reg32}
    (h : (after i s).ports = .response (responseWord e v)) : answeredWith (after i s) e := ⟨v, h⟩

/-- The end of a run of commands, where it is OK throughout. -/
def endOf (is : List Instr) (s : State) : State × List Reg32 := (runOk is s).getD (s, [])

theorem runOk_endOf {is : List Instr} {s : State} (h : (runOk is s).isSome = true) :
    runOk is s = some ((endOf is s).1, (endOf is s).2) := by
  unfold endOf
  cases hx : runOk is s <;> simp_all

/-- A decoder session in error EOS. -/
def rcdError : State := rcdLoaded.setRcd { openRcd rcdLoaded.rcd 2 0xAF with err := .eos }

/-- A reader session in error EOS. -/
def bprError : State := small.setBpr { openBpr small.bpr 0 with err := .eos }

/-- A writer session just opened with a budget of 4 bytes. -/
def bpwOpen : State := small.setBpw (openBpw small.bpw 4)

/-- A writer session with the budget full but for 7 bits. -/
def bpwNearlyFull : State := small.setBpw { openBpw small.bpw 1 with acc := 1, pend := 1 }

/-- A decoder session of one byte nothing has written the rest of. -/
def rcdShort : State := small.setRcd (openRcd { small.rcd with ibuf := [(0, 0xAF)] } 2 0xAF)

/-- Two symbols whose stream has exactly 16 bits: a probability of 128, then one of 1. -/
def twoSymbols : List (Bool × BitVec 8) := [(true, 128), (false, 1)]

/-- The encoder after them. -/
def encoded : State := (endOf (encodeRun 2 twoSymbols) small).1

/-- A decoder that has been given the finished stream. -/
def streamLoaded : State := small.setRcd { small.rcd with ibuf := encoded.rce.obuf }

/-- Widths at both ends of their range, 25 bits in all. -/
def threePairs : List (BitVec 32 × BitVec 8) := [(0xABCDEF, 24), (7, 0), (0xFFFFFFFF, 1)]

/-- The writer after them. -/
def packed : State := (endOf (packRun 4 threePairs) small).1

/-- A reader that has been given the finished stream. -/
def packLoaded : State := small.setBpr { small.bpr with ibuf := packed.bpw.obuf }

theorem inv_small : small.Inv := inv_of_idle rfl
theorem inv_rceOpen : rceOpen.Inv := inv_of_idle rfl
theorem inv_rceCarry : rceCarry.Inv := inv_of_idle rfl
theorem inv_rceEnd : rceEnd.Inv := inv_of_idle rfl
theorem inv_rceFull : rceFull.Inv := inv_of_idle rfl
theorem inv_rceError : rceError.Inv := inv_of_idle rfl
theorem inv_rcdLoaded : rcdLoaded.Inv := inv_of_idle rfl
theorem inv_rcdOpen : rcdOpen.Inv := inv_of_idle rfl
theorem inv_rcdAtEnd : rcdAtEnd.Inv := inv_of_idle rfl
theorem inv_rcdError : rcdError.Inv := inv_of_idle rfl
theorem inv_rcdShort : rcdShort.Inv := inv_of_idle rfl
theorem inv_bpwOpen : bpwOpen.Inv := inv_of_idle rfl
theorem inv_bpwSeven : bpwSeven.Inv := inv_of_idle rfl
theorem inv_bpwNearlyFull : bpwNearlyFull.Inv := inv_of_idle rfl
theorem inv_bpwError : bpwError.Inv := inv_of_idle rfl
theorem inv_bprOne : bprOne.Inv := inv_of_idle rfl
theorem inv_pixels : pixels.Inv := inv_of_idle rfl
theorem inv_tuple : tuple.Inv := inv_of_idle rfl
theorem inv_fullPmem : fullPmem.Inv := inv_of_idle rfl
theorem inv_streamLoaded : streamLoaded.Inv := inv_of_idle rfl
theorem inv_packLoaded : packLoaded.Inv := inv_of_idle rfl

theorem witness_EncodeOfDecodeIsIdentity : decode 0x30D0FFFFFFFFFFFF = some (.pred13 0xFFFF 0xFFFFFFFF) := by decide

theorem witness_IllegalExactlyByThreeChecks :
    (present small 0xFF00000000000000).ports = .command 0xFF00000000000000 ∧ decode 0xFF00000000000000 = none ∧
    (present rceOpen 0x30E0000000000000).ports = .command 0x30E0000000000000 ∧ decode 0x30E0000000000000 = none := by decide

theorem witness_StepRunsDecodedInstruction : (present small 0x5000000000000003).ports = .command 0x5000000000000003 ∧
    decode 0x5000000000000003 = some (.rdsr 3) := by decide

theorem witness_IdleStepChangesNothing : (∀ w, State.reset.ports ≠ .command w) ∧
    ∀ w, (after (.rdsr 0x11) small).ports ≠ .command w := by
  refine ⟨fun w h => ?_, fun w h => ?_⟩ <;> cases h

/-- The next states that several statements assume: one instruction of each unit. -/
theorem witness_EveryCommandCountsAndAnswers :
    exec (.rceInit 16) small = .next (after (.rceInit 16) small) ∧
    exec (.rcdGetbit 128) rcdOpen = .next (after (.rcdGetbit 128) rcdOpen) ∧
    exec (.bpwPutbits 0xABCDEF 24) bpwSeven = .next (after (.bpwPutbits 0xABCDEF 24) bpwSeven) ∧
    exec (.bprReadbits 24) bprOne = .next (after (.bprReadbits 24) bprOne) ∧
    exec (.pred12 1 0xFF102030) pixels = .next (after (.pred12 1 0xFF102030) pixels) ∧
    exec (.ctFwd 8 3) tuple = .next (after (.ctFwd 8 3) tuple) ∧
    exec (.rdsr 0x06) small = .next (after (.rdsr 0x06) small) := by
  refine ⟨?_, ?_, ?_, ?_, ?_, ?_, ?_⟩ <;> exact exec_after (by decide)

theorem witness_ResetMeetsInvariant : Config.Legal ⟨1, 4⟩ ∧ Config.Legal ⟨2 ^ 28, 65536⟩ ∧ Config.standard.Legal := by decide

theorem witness_StepKeepsInvariant : (present rceFull 0x1100000000000180).Inv ∧
    step (present rceFull 0x1100000000000180) = .next (after (.rcePutbit true 128) (present rceFull 0x1100000000000180)) :=
  ⟨inv_present inv_rceFull _, (step_present (by decide)).trans (exec_after (by decide))⟩

/-- Each of the three faults: RCD.INIT 1, BPR.READBITS 1 and PRED0 1 over memory nothing has written. -/
theorem witness_StepStopsOnlyOnUnwrittenMemory :
    (present small 0x1800000000000001).Inv ∧ step (present small 0x1800000000000001) = .fault (.unwrittenRead .rcdIbuf 0) ∧
    (present (small.setBpr (openBpr small.bpr 1)) 0x2900000100000000).Inv ∧
    step (present (small.setBpr (openBpr small.bpr 1)) 0x2900000100000000) = .fault (.unwrittenRead .bprIbuf 0) ∧
    (present small 0x3000000100000000).Inv ∧ step (present small 0x3000000100000000) = .fault (.unwrittenRead .pmem 0) := by
  have hb : (small.setBpr (openBpr small.bpr 1)).Inv := inv_of_idle rfl
  exact ⟨inv_present inv_small _, (step_present (i := .rcdInit 1) (by decide)).trans (exec_fault (by decide)),
    inv_present hb _, (step_present (i := .bprReadbits 1) (by decide)).trans (exec_fault (by decide)),
    inv_present inv_small _, (step_present (i := .pred0 1 0) (by decide)).trans (exec_fault (by decide))⟩

/-- Every kind of move, at the edges of the memories; and the move that is none. -/
theorem witness_HostMovesKeepInvariant :
    (hostMove ⟨small, false, false⟩ (.issue 0)).isSome ∧
    (hostMove ⟨after (.rdsr 0) small, false, false⟩ .takeResponse).isSome ∧
    (hostMove ⟨small, false, false⟩ (.writeRcdIbuf 15 0xFF)).isSome ∧
    (hostMove ⟨small, false, false⟩ (.writeBprIbuf 0 0)).isSome ∧
    (hostMove ⟨small, false, false⟩ (.writePmem 15 0)).isSome ∧ (hostMove ⟨rceOpen, true, true⟩ .reset).isSome ∧
    hostMove ⟨small, false, false⟩ (.writePmem 16 0) = none ∧
    hostMove ⟨rcdOpen, true, false⟩ (.issue 0x1900000000000080) = none := by decide

/-- A run from reset: the host issues RCE.INIT 16, the core answers, the host takes the response and writes a pixel. -/
theorem witness_ReachableStatesAreSafe : Config.Legal ⟨16, 16⟩ ∧
    ∃ h, Reachable ⟨16, 16⟩ h ∧ h.core.rce.st = .active ∧ h.core.pmem = [(15, 7)] := by
  refine ⟨by decide, ?_⟩
  have h0 : Reachable ⟨16, 16⟩ ⟨small, false, false⟩ := Reachable.reset
  have h1 : Reachable ⟨16, 16⟩ ⟨present small 0x1000000000000010, false, false⟩ :=
    Reachable.move _ _ (.issue 0x1000000000000010) h0 (by decide)
  have h2 := Reachable.step _ (after (.rceInit 16) (present small 0x1000000000000010)) h1
    ((step_present (by decide)).trans (exec_after (by decide)))
  have h3 := Reachable.move _ ⟨{ after (.rceInit 16) (present small 0x1000000000000010) with ports := .idle }, false, false⟩
    .takeResponse h2 (by decide)
  have h4 := Reachable.move _ ⟨({ after (.rceInit 16) (present small 0x1000000000000010) with ports := .idle } :
    State).setPmem [(15, 7)], false, false⟩ (.writePmem 15 7) h3 (by decide)
  exact ⟨_, h4, by decide, by decide⟩

theorem witness_CommandWritesOnlyItsUnit : exec .rceFinish rceEnd = .next (after .rceFinish rceEnd) ∧
    exec (.ctInv 0 14 2) fullPmem = .next (after (.ctInv 0 14 2) fullPmem) :=
  ⟨exec_after (by decide), exec_after (by decide)⟩

/-- States that agree on one unit and differ elsewhere, for a next state and for a fault; for RDSR they differ in a buffer. -/
theorem witness_CommandReadsOnlyItsUnit :
    small.cfg = bpwSeven.cfg ∧ agreesOn small bpwSeven (unitOf (.rceInit 16)) ∧ small ≠ bpwSeven ∧
    exec (.rceInit 16) small = .next (after (.rceInit 16) small) ∧
    agreesOn small bpwSeven (unitOf (.pred0 1 0)) ∧ exec (.pred0 1 0) small = .fault (.unwrittenRead .pmem 0) ∧
    agreesOn small rcdLoaded (unitOf (.rdsr 0x04)) ∧ small.rcd ≠ rcdLoaded.rcd ∧
    exec (.rdsr 0x04) small = .next (after (.rdsr 0x04) small) :=
  ⟨rfl, rfl, by decide, exec_after (by decide), rfl, exec_fault (by decide), ⟨⟨rfl, rfl, rfl, rfl⟩, rfl, rfl⟩, by decide,
    exec_after (by decide)⟩

/-- Whether an instruction changes what is read of a state. -/
abbrev changes {α : Type} (i : Instr) (s : State) (read : State → α) : Prop := read (after i s) ≠ read s

/-- A word that CT.INV, SUBG, ADDG and CT.FWD change; the first byte above those that each writer appends. -/
theorem witness_MemoriesChangeOnlyWhereStored :
    (exec (.ctInv 0 15 1) fullPmem = .next (after (.ctInv 0 15 1) fullPmem) ∧
      exec (.subg 15 1) fullPmem = .next (after (.subg 15 1) fullPmem) ∧
      exec (.addg 1 1) fullPmem = .next (after (.addg 1 1) fullPmem) ∧
      exec (.ctFwd 8 3) tuple = .next (after (.ctFwd 8 3) tuple)) ∧
    (changes (.ctInv 0 15 1) fullPmem (·.pmem.read 15) ∧ changes (.subg 15 1) fullPmem (·.pmem.read 15) ∧
      changes (.addg 1 1) fullPmem (·.pmem.read 1) ∧ changes (.ctFwd 8 3) tuple (·.pmem.read 8)) ∧
    exec .rceFinish rceEnd = .next (after .rceFinish rceEnd) ∧
    ¬ (rceEnd.rce.olen.toNat ≤ 2 ∧ 2 < (after .rceFinish rceEnd).rce.olen.toNat) ∧
    exec (.bpwPutbits 0xABCDEF 24) bpwSeven = .next (after (.bpwPutbits 0xABCDEF 24) bpwSeven) ∧
    ¬ (bpwSeven.bpw.olen.toNat ≤ 3 ∧ 3 < (after (.bpwPutbits 0xABCDEF 24) bpwSeven).bpw.olen.toNat) := by
  refine ⟨⟨?_, ?_, ?_, ?_⟩, by decide, ?_, by decide, ?_, by decide⟩ <;> exact exec_after (by decide)

/-- A change of each register the statement names: the lifecycle, a stored error, what INIT and CT.SETM load. -/
theorem witness_ControlRegistersWrittenOnlyByTheirCommands :
    (changes .rceFinish rceOpen (·.rce.st) ∧ changes (.rcdInit 2) rcdLoaded (·.rcd.st) ∧
      changes .bpwAbort bpwError (·.bpw.st) ∧ changes (.bprInit 17) bprOne (·.bpr.st)) ∧
    (rceError.rce.err ≠ .ok ∧ rcdError.rcd.err ≠ .ok ∧ bpwError.bpw.err ≠ .ok ∧ bprError.bpr.err ≠ .ok) ∧
    (changes .rceAbort rceError (·.rce.err) ∧ changes (.rcdInit 2) rcdError (·.rcd.err) ∧
      changes .bpwAbort bpwError (·.bpw.err) ∧ changes (.bprInit 0) bprError (·.bpr.err)) ∧
    (changes (.rceInit 16) small (·.rce.ocap) ∧ changes (.rcdInit 2) rcdLoaded (·.rcd.ilen) ∧
      changes (.bpwInit 16) small (·.bpw.ocap) ∧ changes (.bprInit 16) small (·.bpr.ilen) ∧
      changes (.ctSetm 1 2 3) small (·.mult)) ∧
    exec .rceFinish rceOpen = .next (after .rceFinish rceOpen) ∧
    exec (.ctSetm 1 2 3) small = .next (after (.ctSetm 1 2 3) small) := by
  refine ⟨?_, ?_, ?_, ?_, exec_after (by decide), exec_after (by decide)⟩ <;> decide

/-- Buffers that differ only at the length, in a byte only one of them has; and a fault each of the three meets. -/
theorem witness_DecodersReadOnlyBelowLength :
    (∀ a, a < rcdOpen.rcd.ilen.toNat →
      Memory.read [(0, 0xAF), (1, 0xA0), (2, 0x55)] a = rcdOpen.rcd.ibuf.read a) ∧
    exec (.rcdGetbit 128) rcdOpen = .next (after (.rcdGetbit 128) rcdOpen) ∧
    (∀ a, a < rcdShort.rcd.ilen.toNat → Memory.read [(0, 0xAF), (2, 0x55)] a = rcdShort.rcd.ibuf.read a) ∧
    exec (.rcdGetbit 128) rcdShort = .fault (.unwrittenRead .rcdIbuf 1) ∧
    (∀ a, a < (2 : BitVec 32).toNat →
      Memory.read [(0, 0xAF), (1, 0xA0), (2, 0x55)] a = rcdLoaded.rcd.ibuf.read a) ∧
    exec (.rcdInit 2) rcdLoaded = .next (after (.rcdInit 2) rcdLoaded) ∧
    (∀ a, a < (1 : BitVec 32).toNat → Memory.read [(1, 0x55)] a = small.rcd.ibuf.read a) ∧
    exec (.rcdInit 1) small = .fault (.unwrittenRead .rcdIbuf 0) ∧
    (∀ a, a < bprOne.bpr.ilen.toNat →
      Memory.read [(0, 0xFF), (1, 0xFF), (2, 0xFF), (3, 0x01), (4, 0x55)] a = bprOne.bpr.ibuf.read a) ∧
    exec (.bprReadbits 24) bprOne = .next (after (.bprReadbits 24) bprOne) ∧
    (∀ a, a < (small.setBpr (openBpr small.bpr 1)).bpr.ilen.toNat →
      Memory.read [(1, 0x55)] a = (small.setBpr (openBpr small.bpr 1)).bpr.ibuf.read a) ∧
    exec (.bprReadbits 1) (small.setBpr (openBpr small.bpr 1)) = .fault (.unwrittenRead .bprIbuf 0) :=
  ⟨by decide, exec_after (by decide), by decide, exec_fault (by decide), by decide, exec_after (by decide), by decide,
    exec_fault (by decide), by decide, exec_after (by decide), by decide, exec_fault (by decide)⟩

/-- Core 1 of two steps; the host issues RCE.INIT 16 at core 1 of two, which has every condition of the third clause. -/
theorem witness_CoresShareNothing :
    coreStep 1 [⟨rceOpen, false, false⟩, ⟨small, false, false⟩] = some (.next [⟨rceOpen, false, false⟩, ⟨small, false, false⟩]) ∧
    coreMove 1 (.issue 0x1000000000000010) [⟨rceOpen, false, false⟩, ⟨small, false, false⟩] =
      some [⟨rceOpen, false, false⟩, ⟨present small 0x1000000000000010, false, false⟩] ∧
    hostMove ⟨small, false, false⟩ (.issue 0x1000000000000010) =
      some ⟨present small 0x1000000000000010, false, false⟩ ∧
    decode 0x1000000000000010 = some (.rceInit 16) ∧
    exec (.rceInit 16) (present small 0x1000000000000010) =
      .next (after (.rceInit 16) (present small 0x1000000000000010)) :=
  ⟨rfl, by decide, by decide, by decide, exec_after (by decide)⟩

/-- Each step of the order of R281. -/
theorem witness_FirstFailingCheckIsReported : (present small 0).ports = .command 0 ∧ decode 0 = none ∧ rceOpen.Inv ∧ firstError rceOpen (.rceInit 0) = some .state ∧
    rceError.Inv ∧ firstError rceError (.rcePutbit true 0) = some .capacity ∧ firstError rceOpen (.rcePutbit true 0) = some .operand ∧
    rceFull.Inv ∧ firstError rceFull (.rcePutbit true 128) = some .capacity ∧
    pixels.Inv ∧ firstError pixels (.ctInv 0 15 2) = some .addr ∧ firstError pixels (.rdsr 0x12) = some .operand :=
  ⟨rfl, by decide, inv_rceOpen, by decide, inv_rceError, by decide, by decide, inv_rceFull, by decide, inv_pixels, by decide, by decide⟩

/-- A command that is answered OK and one that stops. -/
theorem witness_NoFailingCheckMeansOk : rceFull.Inv ∧ firstError rceFull .rceFinish = none ∧
    small.Inv ∧ firstError small (.pred0 15 0) = some .addr ∧ firstError small (.pred0 14 0) = none :=
  ⟨inv_rceFull, by decide, inv_small, by decide, by decide⟩

theorem witness_FailingCommandsWriteOnlyTheListed : Status.capacity ≠ .ok ∧
    exec (.rcePutbit true 128) rceFull = .next (after (.rcePutbit true 128) rceFull) ∧
    answeredWith (after (.rcePutbit true 128) rceFull) .capacity ∧
    exec .bpwFinish bpwError = .next (after .bpwFinish bpwError) ∧ answeredWith (after .bpwFinish bpwError) .capacity :=
  ⟨by decide, exec_after (by decide), answered_after (v := 0) (by decide), exec_after (by decide),
    answered_after (v := 0) (by decide)⟩

theorem witness_StatusesAreThoseOfTheTable : exec (.rcdInit 0) rcdOpen = .next (after (.rcdInit 0) rcdOpen) ∧
    rceError.rce.err ∈ [Status.ok, .operand, .capacity] ∧ rcdError.rcd.err ∈ [Status.ok, .operand, .eos, .corrupt] ∧
    bpwError.bpw.err ∈ [Status.ok, .operand, .capacity] ∧ bprError.bpr.err ∈ [Status.ok, .operand, .eos] :=
  ⟨exec_after (by decide), by decide, by decide, by decide, by decide⟩

/-- A command that is not legal, and one that is, in each unit's open session. -/
theorem witness_LifecycleTableHolds : rceOpen.Inv ∧ exec (.rceInit 16) rceOpen = .next (after (.rceInit 16) rceOpen) ∧
    rceOpen.rce.st = .active ∧ answeredWith (after (.rceInit 16) rceOpen) .state ∧
    exec .rceFinish rceOpen = .next (after .rceFinish rceOpen) ∧ answeredWith (after .rceFinish rceOpen) .ok ∧
    small.Inv ∧ exec (.bprReadbits 0) small = .next (after (.bprReadbits 0) small) ∧ small.bpr.st = .idle ∧
    rcdOpen.Inv ∧ exec (.rcdInit 0) rcdOpen = .next (after (.rcdInit 0) rcdOpen) ∧
    ¬ answeredWith (after (.rcdInit 0) rcdOpen) .ok :=
  ⟨inv_rceOpen, exec_after (by decide), rfl, answered_after (v := 0) (by decide), exec_after (by decide),
    answered_after (v := 1) (by decide), inv_small, exec_after (by decide), rfl, inv_rcdOpen, exec_after (by decide),
    fun ⟨v, h⟩ => by
      have h6 : (after (.rcdInit 0) rcdOpen).ports = .response (responseWord .eos 0) := by decide
      rw [h6, Ports.response.injEq] at h
      have hs := congrArg statusField h
      simp [Status.code] at hs⟩

theorem witness_StoredErrorIsAnswered : (rceError.rce.st = .active ∧ rceError.rce.err ≠ .ok) ∧
    (rcdError.rcd.st = .active ∧ rcdError.rcd.err ≠ .ok) ∧ (bpwError.bpw.st = .active ∧ bpwError.bpw.err ≠ .ok) ∧
    (bprError.bpr.st = .active ∧ bprError.bpr.err ≠ .ok) := by decide

/-- The budgets 0, 1, 16 and 17 on 16 bytes. -/
theorem witness_RceInitResult : rceOpen.rce.st = .active ∧ small.rce.st = .idle ∧
    (0 : BitVec 32).toNat = 0 ∧ small.cfg.bufBytes < (17 : BitVec 32).toNat ∧
    1 ≤ (1 : BitVec 32).toNat ∧ (16 : BitVec 32).toNat ≤ small.cfg.bufBytes := by decide

theorem witness_SplitLeavesBothNonEmpty : 128 ≤ (128 : Nat) ∧ (255 : Nat) ≤ 255 ∧ 1 ≤ (1 : Nat) := by decide

/-- The last bit that fits the budget and the first that does not; the ends of the probabilities. -/
theorem witness_RcePutbitResult : small.rce.st = .idle ∧ (rceError.rce.st = .active ∧ rceError.rce.err ≠ .ok) ∧
    (rceOpen.rce.st = .active ∧ rceOpen.rce.err = .ok) ∧ rceOpen.Inv ∧ (1 : BitVec 8) ≠ 0 ∧ (255 : BitVec 8) ≠ 0 ∧
    rceFull.Inv ∧ (rceFull.rce.st = .active ∧ rceFull.rce.err = .ok) ∧
    ¬ (rceFull.rce.bitpos.toNat + 1 + 8 ≤ 8 * rceFull.rce.ocap.toNat) ∧
    rceFull.rce.bitpos.toNat + 0 + 8 ≤ 8 * rceFull.rce.ocap.toNat ∧ rceCarry.Inv :=
  ⟨rfl, by decide, by decide, inv_rceOpen, by decide, by decide, inv_rceFull, by decide, by decide, by decide, inv_rceCarry⟩

theorem witness_RceFinishResult : small.rce.st = .idle ∧ (rceError.rce.st = .active ∧ rceError.rce.err ≠ .ok) ∧
    rceEnd.Inv ∧ rceEnd.rce.st = .active ∧ rceEnd.rce.err = .ok ∧ rceFull.Inv ∧ rceFull.rce.st = .active ∧
    rceFull.rce.err = .ok := ⟨rfl, by decide, inv_rceEnd, rfl, rfl, inv_rceFull, rfl, rfl⟩

theorem witness_RceAbortResult : small.rce.st = .idle ∧ rceError.rce.st = .active := by decide

/-- 16 bits with a budget of 2 bytes: the least that fits. -/
theorem witness_FinishedStreamSpellsLowerEnd : small.Inv ∧ small.rce.st = .idle ∧
    (2 : BitVec 32).toNat ≤ small.cfg.bufBytes ∧ (∀ y ∈ twoSymbols, y.2 ≠ 0) ∧
    (coded twoSymbols).shifts + 8 = 8 * (2 : BitVec 32).toNat :=
  ⟨inv_small, rfl, by decide, by simp [twoSymbols], by decide⟩

theorem witness_BudgetIsOnTheFinishedStream : small.Inv ∧ small.rce.st = .idle ∧ 1 ≤ (1 : BitVec 32).toNat ∧
    (16 : BitVec 32).toNat ≤ small.cfg.bufBytes ∧ (∀ y ∈ twoSymbols, y.2 ≠ 0) ∧
    (runOk (encodeRun 2 twoSymbols) small).isSome ∧ ¬ (runOk (encodeRun 1 twoSymbols) small).isSome :=
  ⟨inv_small, rfl, by decide, by decide, by simp [twoSymbols], by decide, by decide⟩

theorem witness_RcdInitResult : small.cfg.bufBytes < (17 : BitVec 32).toNat ∧ (0 : BitVec 32) = 0 ∧
    (1 ≤ (1 : BitVec 32).toNat ∧ (16 : BitVec 32).toNat ≤ small.cfg.bufBytes) ∧
    (small.setRcd { small.rcd with ibuf := [(0, 0xFF)] }).rcd.ibuf.read 0 = some 0xFF ∧
    (small.setRcd { small.rcd with ibuf := [(0, 0xFE)] }).rcd.ibuf.read 0 = some 0xFE ∧ (0xFE : Byte) ≠ 0xFF := by decide

/-- A bit with a shift that the length admits, and one that it does not. -/
theorem witness_RcdGetbitResult : small.rcd.st = .idle ∧ (rcdError.rcd.st = .active ∧ rcdError.rcd.err ≠ .ok) ∧
    rcdOpen.Inv ∧ (rcdOpen.rcd.st = .active ∧ rcdOpen.rcd.err = .ok) ∧ (255 : BitVec 8) ≠ 0 ∧
    rcdOpen.rcd.bitpos.toNat + 1 ≤ 8 * rcdOpen.rcd.ilen.toNat ∧
    (∀ a, rcdOpen.rcd.bitpos.toNat / 8 ≤ a → 8 * a < rcdOpen.rcd.bitpos.toNat + 1 → (rcdOpen.rcd.ibuf.read a).isSome) ∧
    rcdAtEnd.Inv ∧ (rcdAtEnd.rcd.st = .active ∧ rcdAtEnd.rcd.err = .ok) ∧
    ¬ (rcdAtEnd.rcd.bitpos.toNat + 1 ≤ 8 * rcdAtEnd.rcd.ilen.toNat) := by
  refine ⟨rfl, by decide, inv_rcdOpen, by decide, by decide, by decide, fun a h1 h2 => ?_, inv_rcdAtEnd, by decide, by decide⟩
  have h3 : rcdOpen.rcd.bitpos.toNat = 8 := by decide
  obtain rfl : a = 1 := by omega
  decide

/-- A stream of two bytes, decoded on a core that holds exactly them. -/
theorem witness_RangeCoderRoundTrip : small.Inv ∧
    runOk (encodeRun 2 twoSymbols) small = some (encoded, (endOf (encodeRun 2 twoSymbols) small).2) ∧
    streamLoaded.Inv ∧ encoded.rce.olen.toNat = 2 ∧ encoded.rce.olen.toNat ≤ streamLoaded.cfg.bufBytes ∧
    (∀ a, a < encoded.rce.olen.toNat → streamLoaded.rcd.ibuf.read a = encoded.rce.obuf.read a) ∧
    2 ≤ twoSymbols.length :=
  ⟨inv_small, runOk_endOf (by decide), inv_streamLoaded, by decide, by decide, fun _ _ => rfl, by decide⟩

/-- The budgets 0, 16 and 17 on 16 bytes. -/
theorem witness_BpwInitResult : bpwOpen.bpw.st = .active ∧ small.bpw.st = .idle ∧
    small.cfg.bufBytes < (17 : BitVec 32).toNat ∧ (16 : BitVec 32).toNat ≤ small.cfg.bufBytes ∧
    (0 : BitVec 32).toNat ≤ small.cfg.bufBytes := by decide

/-- 24 and 25 bits; the budget met exactly and by one bit too many. -/
theorem witness_BpwPutbitsResult : small.bpw.st = .idle ∧ (bpwError.bpw.st = .active ∧ bpwError.bpw.err ≠ .ok) ∧
    bpwNearlyFull.Inv ∧ (bpwNearlyFull.bpw.st = .active ∧ bpwNearlyFull.bpw.err = .ok) ∧ 24 < (25 : BitVec 8).toNat ∧
    8 * bpwNearlyFull.bpw.olen.toNat + bpwNearlyFull.bpw.pend.toNat + 7 = 8 * bpwNearlyFull.bpw.ocap.toNat ∧
    8 * bpwNearlyFull.bpw.ocap.toNat < 8 * bpwNearlyFull.bpw.olen.toNat + bpwNearlyFull.bpw.pend.toNat + 8 ∧
    bpwSeven.Inv ∧ (bpwSeven.bpw.st = .active ∧ bpwSeven.bpw.err = .ok) ∧ (24 : BitVec 8).toNat ≤ 24 ∧
    8 * bpwSeven.bpw.olen.toNat + bpwSeven.bpw.pend.toNat + (24 : BitVec 8).toNat ≤ 8 * bpwSeven.bpw.ocap.toNat :=
  ⟨rfl, by decide, inv_bpwNearlyFull, by decide, by decide, by decide, by decide, inv_bpwSeven, by decide, by decide, by decide⟩

theorem witness_BpwFinishResult : small.bpw.st = .idle ∧ (bpwError.bpw.st = .active ∧ bpwError.bpw.err ≠ .ok) ∧
    bpwSeven.Inv ∧ (bpwSeven.bpw.st = .active ∧ bpwSeven.bpw.err = .ok) ∧
    bpwOpen.Inv ∧ (bpwOpen.bpw.st = .active ∧ bpwOpen.bpw.err = .ok) :=
  ⟨rfl, by decide, inv_bpwSeven, by decide, inv_bpwOpen, by decide⟩

theorem witness_BpwAbortResult : small.bpw.st = .idle ∧ bpwError.bpw.st = .active := by decide

/-- 32 bits fill a budget of 4 bytes. -/
theorem witness_WideValueIsWrittenInHalves : bpwOpen.Inv ∧ bpwOpen.bpw.st = .active ∧ bpwOpen.bpw.err = .ok ∧
    8 * bpwOpen.bpw.olen.toNat + bpwOpen.bpw.pend.toNat + 32 ≤ 8 * bpwOpen.bpw.ocap.toNat :=
  ⟨inv_bpwOpen, rfl, rfl, by decide⟩

theorem witness_BprInitResult : small.cfg.bufBytes < (17 : BitVec 32).toNat ∧
    (16 : BitVec 32).toNat ≤ small.cfg.bufBytes := by decide

/-- 24 bits of 31 left, 25, and 24 of the 23 left after one byte and seven bits. -/
theorem witness_BprReadbitsResult : small.bpr.st = .idle ∧ (bprError.bpr.st = .active ∧ bprError.bpr.err ≠ .ok) ∧
    bprOne.Inv ∧ (bprOne.bpr.st = .active ∧ bprOne.bpr.err = .ok) ∧ 24 < (25 : BitVec 8).toNat ∧ (24 : BitVec 8).toNat ≤ 24 ∧
    ((24 : BitVec 8).toNat : Int) ≤ 8 * ((bprOne.bpr.ilen.toNat : Int) - bprOne.bpr.pos.toNat) + bprOne.bpr.cnt.toNat ∧
    (∀ a, bprOne.bpr.pos.toNat ≤ a → a < bprOne.bpr.pos.toNat + ((24 : BitVec 8).toNat - bprOne.bpr.cnt.toNat + 7) / 8 →
      (bprOne.bpr.ibuf.read a).isSome) ∧
    8 * (((bprOne.setBpr { bprOne.bpr with ilen := 3 }).bpr.ilen.toNat : Int) - bprOne.bpr.pos.toNat) +
      bprOne.bpr.cnt.toNat < (24 : BitVec 8).toNat := by
  refine ⟨rfl, by decide, inv_bprOne, by decide, by decide, by decide, by decide, fun a h1 h2 => ?_, by decide⟩
  have h3 : bprOne.bpr.pos.toNat = 1 := by decide
  have h4 : ((24 : BitVec 8).toNat - bprOne.bpr.cnt.toNat + 7) / 8 = 3 := by decide
  obtain rfl | rfl | rfl : a = 1 ∨ a = 2 ∨ a = 3 := by omega
  all_goals decide

/-- 25 bits in a budget of 4 bytes. -/
theorem witness_BitPackerRoundTrip : small.Inv ∧
    runOk (packRun 4 threePairs) small = some (packed, (endOf (packRun 4 threePairs) small).2) ∧
    packLoaded.Inv ∧ packed.bpw.olen.toNat = 4 ∧ packed.bpw.olen.toNat ≤ packLoaded.cfg.bufBytes ∧
    (∀ a, a < packed.bpw.olen.toNat → packLoaded.bpr.ibuf.read a = packed.bpw.obuf.read a) :=
  ⟨inv_small, runOk_endOf (by decide), inv_packLoaded, by decide, by decide, fun _ _ => rfl⟩

theorem witness_AverageIsLanewiseFloor : 0 < 4 ∧ (3 : Nat) < 4 := by decide

/-- `top` 0, the last column, and 0xFFFF, where a 16-bit sum would wrap. -/
theorem witness_PredictorAddressCheck : (0 : BitVec 16).toNat = 0 ∧ small.cfg.pmemWords < (15 : BitVec 16).toNat + 2 ∧
    small.cfg.pmemWords < (0xFFFF : BitVec 16).toNat + 2 := by decide

/-- The second of three words missing, at the last legal `top`. -/
theorem witness_PredictorsReadAllThreeWords : 1 ≤ (14 : BitVec 16).toNat ∧ (14 : BitVec 16).toNat + 2 ≤ small.cfg.pmemWords ∧
    (∀ j, j < 1 → ((small.setPmem [(13, 0)]).pmem.read ((14 : BitVec 16).toNat - 1 + j)).isSome) ∧
    (small.setPmem [(13, 0)]).pmem.read ((14 : BitVec 16).toNat - 1 + 1) = none ∧
    (small.setPmem [(13, 0), (14, 0)]).pmem.read ((14 : BitVec 16).toNat - 1 + 2) = none ∧
    small.pmem.read ((1 : BitVec 16).toNat - 1 + 0) = none := by decide

theorem witness_CopyingPredictorsResult : rowAbove pixels 1 0xFF405060 0x80807060 0x00FF00FF ∧
    rowAbove fullPmem 14 (BitVec.ofNat 32 (13 * 0x01020304)) (BitVec.ofNat 32 (14 * 0x01020304))
      (BitVec.ofNat 32 (15 * 0x01020304)) := by
  refine ⟨⟨?_, ?_, ?_, ?_, ?_⟩, ⟨?_, ?_, ?_, ?_, ?_⟩⟩ <;> decide

theorem witness_AveragingPredictorsResult : rowAbove pixels 1 0xFF405060 0x80807060 0x00FF00FF ∧ (3 : Nat) < 4 :=
  ⟨witness_CopyingPredictorsResult.1, by decide⟩

theorem witness_GradientPredictorsResult : rowAbove pixels 1 0xFF405060 0x80807060 0x00FF00FF ∧ (3 : Nat) < 4 :=
  ⟨witness_CopyingPredictorsResult.1, by decide⟩

/-- The whole of PMEM, one word too many at its end, 0xFFFF + 0xFFFF, and the empty range at the end. -/
theorem witness_GreenStageResult : (fullPmem.Inv ∧
    (0 : BitVec 16).toNat + (16 : BitVec 16).toNat ≤ fullPmem.cfg.pmemWords ∧
    ∀ i, i < (16 : BitVec 16).toNat → (fullPmem.pmem.read ((0 : BitVec 16).toNat + i)).isSome) ∧
    small.cfg.pmemWords < (15 : BitVec 16).toNat + (2 : BitVec 16).toNat ∧
    small.cfg.pmemWords < (0xFFFF : BitVec 16).toNat + (0xFFFF : BitVec 16).toNat ∧
    (16 : BitVec 16).toNat + (0 : BitVec 16).toNat ≤ small.cfg.pmemWords :=
  ⟨⟨inv_fullPmem, by decide, by decide⟩, by decide, by decide, by decide⟩

theorem witness_CtFwdResult : (tuple.Inv ∧ (8 : BitVec 16).toNat + (3 : BitVec 16).toNat ≤ tuple.cfg.pmemWords ∧
    ∀ i, i < (3 : BitVec 16).toNat → (tuple.pmem.read ((8 : BitVec 16).toNat + i)).isSome) ∧
    tuple.cfg.pmemWords < (16 : BitVec 16).toNat + (1 : BitVec 16).toNat :=
  ⟨⟨inv_tuple, by decide, by decide⟩, by decide⟩

/-- Out of place up to the end of PMEM, and a destination that begins inside the source, where words nothing has written are
read after the command itself wrote them. -/
theorem witness_CtInvResult : tuple.Inv ∧ (8 : BitVec 16).toNat + (3 : BitVec 16).toNat ≤ tuple.cfg.pmemWords ∧
    (13 : BitVec 16).toNat + (3 : BitVec 16).toNat ≤ tuple.cfg.pmemWords ∧
    (∀ i, i < (3 : BitVec 16).toNat →
      ((8 : BitVec 16).toNat < (13 : BitVec 16).toNat ∧ (13 : BitVec 16).toNat ≤ (8 : BitVec 16).toNat + i) ∨
        (tuple.pmem.read ((8 : BitVec 16).toNat + i)).isSome) ∧
    (11 : BitVec 16).toNat + (5 : BitVec 16).toNat ≤ tuple.cfg.pmemWords ∧
    (∀ i, i < (5 : BitVec 16).toNat →
      ((10 : BitVec 16).toNat < (11 : BitVec 16).toNat ∧ (11 : BitVec 16).toNat ≤ (10 : BitVec 16).toNat + i) ∨
        (tuple.pmem.read ((10 : BitVec 16).toNat + i)).isSome) ∧
    tuple.cfg.pmemWords < (14 : BitVec 16).toNat + (3 : BitVec 16).toNat :=
  ⟨inv_tuple, by decide, by decide, by decide, by decide, by decide, by decide⟩

theorem witness_ColourTransformIsInvertible : tuple.Inv ∧ (8 : BitVec 16).toNat + (3 : BitVec 16).toNat ≤ tuple.cfg.pmemWords ∧
    ∀ i, i < (3 : BitVec 16).toNat → (tuple.pmem.read ((8 : BitVec 16).toNat + i)).isSome := witness_CtFwdResult.1

theorem witness_GreenStageIsInvertible : fullPmem.Inv ∧
    (0 : BitVec 16).toNat + (16 : BitVec 16).toNat ≤ fullPmem.cfg.pmemWords ∧
    ∀ i, i < (16 : BitVec 16).toNat → (fullPmem.pmem.read ((0 : BitVec 16).toNat + i)).isSome := witness_GreenStageResult.1

/-- The destination just above the source, and below it with an overlap. -/
theorem witness_ZeroTupleIsIdentity : pixels.Inv ∧ pixels.mult = 0 ∧
    (8 : BitVec 16).toNat + (3 : BitVec 16).toNat ≤ pixels.cfg.pmemWords ∧
    (11 : BitVec 16).toNat + (3 : BitVec 16).toNat ≤ pixels.cfg.pmemWords ∧
    (∀ i, i < (3 : BitVec 16).toNat → (pixels.pmem.read ((8 : BitVec 16).toNat + i)).isSome) ∧
    (8 : BitVec 16).toNat + (3 : BitVec 16).toNat ≤ (11 : BitVec 16).toNat ∧
    (7 : BitVec 16).toNat + (3 : BitVec 16).toNat ≤ pixels.cfg.pmemWords ∧ (7 : BitVec 16).toNat ≤ (8 : BitVec 16).toNat :=
  ⟨inv_pixels, rfl, by decide, by decide, by decide, by decide, by decide, by decide⟩

/-- A status register of each end of the numbers, and the reserved numbers beside them. -/
theorem witness_RdsrReadsStatusRegisters : bpwSeven.Inv ∧ (0x00, 0) ∈ statusRegisters bpwSeven ∧
    (0x0B, 7) ∈ statusRegisters bpwSeven ∧ (0x11, 0) ∈ statusRegisters bpwSeven ∧
    0x06 ∉ (statusRegisters bpwSeven).map (fun r => r.1) ∧ 0x12 ∉ (statusRegisters bpwSeven).map (fun r => r.1) ∧
    0xFF ∉ (statusRegisters bpwSeven).map (fun r => r.1) :=
  ⟨inv_bpwSeven, by decide, by decide, by decide, by decide, by decide, by decide⟩

theorem witness_HostReadsOnlyFinishedStreams : rceEnd.Inv ∧ exec .rceFinish rceEnd = .next (after .rceFinish rceEnd) ∧
    answeredWith (after .rceFinish rceEnd) .ok ∧
    bpwFive.Inv ∧ exec .bpwFinish bpwFive = .next (after .bpwFinish bpwFive) ∧ answeredWith (after .bpwFinish bpwFive) .ok ∧
    Status.capacity ≠ .ok ∧ rceError.rce.st = .active ∧ exec .rceFinish rceError = .next (after .rceFinish rceError) ∧
    answeredWith (after .rceFinish rceError) .capacity ∧ exec .rceAbort rceOpen = .next (after .rceAbort rceOpen) ∧
    bpwError.bpw.st = .active ∧ exec .bpwFinish bpwError = .next (after .bpwFinish bpwError) ∧
    answeredWith (after .bpwFinish bpwError) .capacity ∧ exec .bpwAbort bpwOpen = .next (after .bpwAbort bpwOpen) :=
  ⟨inv_rceEnd, exec_after (by decide), answered_after (v := 2) (by decide), inv_of_idle rfl, exec_after (by decide),
    answered_after (v := 1) (by decide), by decide, rfl, exec_after (by decide), answered_after (v := 0) (by decide),
    exec_after (by decide), rfl, exec_after (by decide), answered_after (v := 0) (by decide), exec_after (by decide)⟩

end Sys2Proof.Tests
end

section
/-!
SUPPORT. Reset meets the invariant, and the two ways a command is answered in every state: with an error after the writes
spec/60_exceptions.md R280 lists, or OK after writes in its own unit (spec/00_scope.md R3).
-/
namespace Sys2Proof.Machine

/-! ### Reset -/

/-- A memory nothing has written is canonical, in a space of any size. -/
theorem memoryOk_nil {w : Nat} (n : Nat) : memoryOk ([] : Memory w) n := ⟨List.Pairwise.nil, by simp⟩

theorem storedBelow_zero {w : Nat} (m : Memory w) : storedBelow m 0 := fun _ h => absurd h (Nat.not_lt_zero _)

theorem rceInv_reset (c : Config) : rceInv c Rce.reset :=
  ⟨memoryOk_nil _, storedBelow_zero _, .inl rfl, fun h => nomatch h⟩

theorem rcdInv_reset (c : Config) : rcdInv c Rcd.reset := ⟨memoryOk_nil _, .inl rfl, fun h => nomatch h⟩

theorem bpwInv_reset (c : Config) : bpwInv c Bpw.reset :=
  ⟨memoryOk_nil _, storedBelow_zero _, .inl rfl, by decide, by decide, by decide, Nat.zero_le _⟩

theorem bprInv_reset (c : Config) : bprInv c Bpr.reset :=
  ⟨memoryOk_nil _, .inl rfl, by decide, by decide, by decide, Nat.zero_le _⟩

/-- Settles O9: every register of R56 is 0, no memory is written and no session is open. -/
theorem resetMeetsInvariant : Obligations.ResetMeetsInvariant :=
  ⟨fun c hc => ⟨hc, rceInv_reset c, rcdInv_reset c, bpwInv_reset c, bprInv_reset c, memoryOk_nil _, trivial⟩, rfl, rfl⟩

/-! ### How a command is answered -/

/-- Different statuses have different codes (R271): the number of a status is its code. -/
theorem Status.code_injective : Function.Injective Status.code :=
  Function.LeftInverse.injective (g := fun c => Status.ofNat c.toNat) fun e => by cases e <;> rfl

/-- The status on the port is the one the command answered. -/
theorem answeredWith_answer_iff {s : State} {e e' : Status} {v : Reg32} : answeredWith (s.answer e v) e' ↔ e' = e := by
  constructor
  · rintro ⟨v', hv⟩
    have hf := congrArg statusField (Ports.response.inj hv)
    rw [statusField_responseWord, statusField_responseWord] at hf
    exact (Status.code_injective hf).symm
  · rintro rfl
    exact ⟨v, rfl⟩

/-- What the gate of a data command answers is an error. -/
theorem dataGate_ne_ok {st : Lifecycle} {err e : Status} (h : dataGate st err = some e) : e ≠ .ok := by
  rcases dataGate_some h with ⟨_, rfl⟩ | ⟨_, hne, rfl⟩
  · decide
  · exact hne

/-- The gate of a data command stops nothing in an open session without error. -/
theorem not_open_of_dataGate {st : Lifecycle} {err e : Status} (h : dataGate st err = some e) :
    ¬ (st = .active ∧ err = .ok) := by
  rintro ⟨rfl, rfl⟩
  cases h

/-- An instruction that is the template of R194 with some function: it reports ADDR or nothing, and writes nothing. -/
structure IsPredictor (i : Instr) (f : Pixel → Pixel → Pixel → Pixel → Pixel) (top : BitVec 16) (left : Pixel) : Prop where
  eq_predict : ∀ s, exec i s = predict f top left s
  failure : ∀ s e, failureWrites s e i = s
  checks : ∀ s, errorChecks s i = [(top.toNat == 0 || decide (s.cfg.pmemWords < top.toNat + 2), .addr)]

theorem exists_isPredictor {i : Instr} (h : unitOf i = .ppb) : ∃ f top left, IsPredictor i f top left := by
  cases i with
  | pred0 top left | pred1 top left | pred2 top left | pred3 top left | pred4 top left | pred5 top left
  | pred6 top left | pred7 top left | pred8 top left | pred9 top left | pred10 top left | pred11 top left
  | pred12 top left | pred13 top left => exact ⟨_, top, left, fun _ => rfl, fun _ _ => rfl, fun _ => rfl⟩
  | _ => cases h

/-- The two ways a command is answered: with an error, after the writes R280 lists for it, or OK, after writes in its
own unit (R3, R280). -/
inductive Answered (i : Instr) (s : State) : State → Prop where
  | failed {u : State} {e : Status} (he : e ≠ .ok) (hu : failureWrites s e i = u) : Answered i s (u.answer e 0)
  | ok {u : State} {v : Reg32} (hu : writesOnly s u (unitOf i)) : Answered i s (u.answer .ok v)

@[simp] theorem writesOnly_setRce (s : State) (u : Rce) : writesOnly s (s.setRce u) .rce := ⟨rfl, rfl, rfl, rfl, rfl, rfl⟩
@[simp] theorem writesOnly_setRcd (s : State) (u : Rcd) : writesOnly s (s.setRcd u) .rcd := ⟨rfl, rfl, rfl, rfl, rfl, rfl⟩
@[simp] theorem writesOnly_setBpw (s : State) (u : Bpw) : writesOnly s (s.setBpw u) .bpw := ⟨rfl, rfl, rfl, rfl, rfl, rfl⟩
@[simp] theorem writesOnly_setBpr (s : State) (u : Bpr) : writesOnly s (s.setBpr u) .bpr := ⟨rfl, rfl, rfl, rfl, rfl, rfl⟩
@[simp] theorem writesOnly_setPmem (s : State) (m : Memory 32) : writesOnly s (s.setPmem m) .cdt := ⟨rfl, rfl, rfl, rfl, rfl⟩
@[simp] theorem writesOnly_setMult (s : State) (m : BitVec 24) : writesOnly s (s.setMult m) .cdt := ⟨rfl, rfl, rfl, rfl, rfl⟩

@[simp] theorem writesOnly_self (s : State) (n : UnitName) : writesOnly s s n := by
  cases n <;> simp [writesOnly]

/-- Answering writes `CC` and the port only. -/
@[simp] theorem writesOnly_answer_iff {s u : State} {e : Status} {v : Reg32} {n : UnitName} :
    writesOnly s (u.answer e v) n ↔ writesOnly s u n := by
  cases n <;> exact Iff.rfl

theorem execRce_answered {i : Instr} {s t : State} (hi : unitOf i = .rce) (h : exec i s = .next t) : Answered i s t := by
  cases i with
  | rceInit cap =>
    rcases execRceInit_next h with ⟨_, rfl⟩ | ⟨_, _, _, rfl⟩ | ⟨_, rfl⟩
    · exact .failed (by decide) rfl
    · exact .ok (writesOnly_setRce ..)
    · exact .failed (by decide) rfl
  | rcePutbit bit prob =>
    rcases execRcePutbit_next h with ⟨e, hg, rfl⟩ | ⟨ha, he, _, rfl⟩ | ⟨ha, he, rfl⟩ | ⟨_, _, _, _, _, u, _, rfl⟩
    · exact .failed (dataGate_ne_ok hg) (if_neg (not_open_of_dataGate hg))
    · exact .failed (by decide) (if_pos ⟨ha, he⟩)
    · exact .failed (by decide) (if_pos ⟨ha, he⟩)
    · exact .ok (writesOnly_setRce ..)
  | rceFinish =>
    rcases execRceFinish_next h with ⟨hs, rfl⟩ | ⟨_, _, u, _, rfl⟩ | ⟨ha, he, rfl⟩
    · exact .failed (by decide) (if_neg (by simp [hs]))
    · exact .ok (writesOnly_setRce ..)
    · exact .failed he (if_pos ha)
  | rceAbort =>
    rcases execRceAbort_next h with ⟨_, rfl⟩ | ⟨_, rfl⟩
    · exact .failed (by decide) rfl
    · exact .ok (writesOnly_setRce ..)
  | _ => cases hi

theorem execRcd_answered {i : Instr} {s t : State} (hi : unitOf i = .rcd) (h : exec i s = .next t) : Answered i s t := by
  cases i with
  | rcdInit len =>
    rcases execRcdInit_next h with ⟨e, he, rfl⟩ | ⟨v, _, _, _, _, rfl⟩
    · exact .failed (by rcases he with rfl | rfl | rfl <;> decide) rfl
    · exact .ok (writesOnly_setRcd ..)
  | rcdGetbit prob =>
    rcases execRcdGetbit_next h with ⟨e, hg, rfl⟩ | ⟨ha, ho, e, he, rfl⟩ | ⟨_, _, _, _, b, v, r, u, _, _, _, rfl⟩
    · exact .failed (dataGate_ne_ok hg) (if_neg (not_open_of_dataGate hg))
    · exact .failed (by rcases he with rfl | rfl <;> decide) (if_pos ⟨ha, ho⟩)
    · exact .ok (writesOnly_setRcd ..)
  | _ => cases hi

theorem execBpw_answered {i : Instr} {s t : State} (hi : unitOf i = .bpw) (h : exec i s = .next t) : Answered i s t := by
  cases i with
  | bpwInit cap =>
    rcases execBpwInit_next h with ⟨_, rfl⟩ | ⟨_, _, rfl⟩ | ⟨_, rfl⟩
    · exact .failed (by decide) rfl
    · exact .ok (writesOnly_setBpw ..)
    · exact .failed (by decide) rfl
  | bpwPutbits value nbits =>
    rcases execBpwPutbits_next h with ⟨e, hg, rfl⟩ | ⟨ha, ho, e, he, rfl⟩ | ⟨_, _, _, _, u, _, rfl⟩
    · exact .failed (dataGate_ne_ok hg) (if_neg (not_open_of_dataGate hg))
    · exact .failed (by rcases he with rfl | rfl <;> decide) (if_pos ⟨ha, ho⟩)
    · exact .ok (writesOnly_setBpw ..)
  | bpwFinish =>
    rcases execBpwFinish_next h with ⟨hs, rfl⟩ | ⟨_, _, u, _, rfl⟩ | ⟨ha, he, rfl⟩
    · exact .failed (by decide) (if_neg (by simp [hs]))
    · exact .ok (writesOnly_setBpw ..)
    · exact .failed he (if_pos ha)
  | bpwAbort =>
    rcases execBpwAbort_next h with ⟨_, rfl⟩ | ⟨_, rfl⟩
    · exact .failed (by decide) rfl
    · exact .ok (writesOnly_setBpw ..)
  | _ => cases hi

theorem execBpr_answered {i : Instr} {s t : State} (hi : unitOf i = .bpr) (h : exec i s = .next t) : Answered i s t := by
  cases i with
  | bprInit len =>
    rcases execBprInit_next h with rfl | ⟨_, rfl⟩
    · exact .failed (by decide) rfl
    · exact .ok (writesOnly_setBpr ..)
  | bprReadbits nbits =>
    rcases execBprReadbits_next h with ⟨e, hg, rfl⟩ | ⟨ha, ho, e, he, rfl⟩ | ⟨_, _, _, _, u, _, rfl⟩
    · exact .failed (dataGate_ne_ok hg) (if_neg (not_open_of_dataGate hg))
    · exact .failed (by rcases he with rfl | rfl <;> decide) (if_pos ⟨ha, ho⟩)
    · exact .ok (writesOnly_setBpr ..)
  | _ => cases hi

theorem execPpb_answered {i : Instr} {s t : State} (hi : unitOf i = .ppb) (h : exec i s = .next t) : Answered i s t := by
  obtain ⟨f, top, left, hp⟩ := exists_isPredictor hi
  rcases predict_next (hp.eq_predict s ▸ h) with ⟨_, rfl⟩ | ⟨tl, tt, tr, _, _, _, _, rfl⟩
  · exact .failed (by decide) (hp.failure _ _)
  · exact .ok (writesOnly_self ..)

/-- SUBG, ADDG and CT.FWD, through their template. -/
theorem mapRange_answered {i : Instr} {s t : State} {f : Pixel → Pixel} {addr count : BitVec 16} (hi : unitOf i = .cdt)
    (hf : failureWrites s .addr i = s) (h : mapRange f addr count s = .next t) : Answered i s t := by
  rcases mapRange_next h with ⟨_, rfl⟩ | ⟨m, _, _, rfl⟩
  · exact .failed (by decide) hf
  · exact .ok (hi ▸ writesOnly_setPmem s m)

theorem execCdt_answered {i : Instr} {s t : State} (hi : unitOf i = .cdt) (h : exec i s = .next t) : Answered i s t := by
  cases i with
  | subg addr count | addg addr count | ctFwd addr count => exact mapRange_answered hi rfl h
  | ctSetm g2r g2b r2b =>
    obtain rfl := respond_next h
    exact .ok (writesOnly_setMult ..)
  | ctInv src dst count =>
    rcases execCtInv_next h with ⟨_, rfl⟩ | ⟨m, _, _, _, rfl⟩
    · exact .failed (by decide) rfl
    · exact .ok (writesOnly_setPmem ..)
  | _ => cases hi

theorem execRdsr_answered {sr : BitVec 8} {s t : State} (h : execRdsr sr s = .next t) : Answered (.rdsr sr) s t := by
  rcases execRdsr_next h with ⟨_, rfl⟩ | ⟨r, v, _, _, rfl⟩
  · exact .failed (by decide) rfl
  · exact .ok (writesOnly_self ..)

/-- In every state, a command that is answered is answered in one of the two ways. -/
theorem exec_answered {i : Instr} {s t : State} (h : exec i s = .next t) : Answered i s t := by
  cases hi : unitOf i with
  | rce => exact execRce_answered hi h
  | rcd => exact execRcd_answered hi h
  | bpw => exact execBpw_answered hi h
  | bpr => exact execBpr_answered hi h
  | ppb => exact execPpb_answered hi h
  | cdt => exact execCdt_answered hi h
  | system =>
    cases i with
    | rdsr sr => exact execRdsr_answered h
    | _ => cases hi

/-- The writes R280 lists for a failing command are in its own unit. -/
theorem writesOnly_failureWrites (s : State) (e : Status) (i : Instr) : writesOnly s (failureWrites s e i) (unitOf i) := by
  cases i with
  | rceInit _ | rcePutbit _ _ | rceFinish | rcdGetbit _ | bpwInit _ | bpwPutbits _ _ | bpwFinish | bprReadbits _ =>
    simp only [failureWrites, unitOf]
    split <;> simp
  | _ => simp [failureWrites, unitOf]

/-- Settles O22: of the two ways a command is answered only the failing one answers an error, and it makes those writes. -/
theorem failingCommandsWriteOnlyTheListed : Obligations.FailingCommandsWriteOnlyTheListed := by
  intro i s t e hne h ha
  cases exec_answered h with
  | failed _ hu =>
    obtain rfl := answeredWith_answer_iff.1 ha
    rw [hu]
  | ok _ => exact absurd (answeredWith_answer_iff.1 ha) hne

/-- Settles O14: both ways of answering write in the command's own unit. -/
theorem commandWritesOnlyItsUnit : Obligations.CommandWritesOnlyItsUnit := by
  intro i s t h
  cases exec_answered h with
  | failed _ hu => exact writesOnly_answer_iff.2 (hu ▸ writesOnly_failureWrites s _ i)
  | ok hu => exact writesOnly_answer_iff.2 hu

end Sys2Proof.Machine
end

section
/-!
SUPPORT. Two runs of a command from states that agree on its unit have the same outcome (spec/00_scope.md R3, spec/20_memory.md
R60).
-/
namespace Sys2Proof.Machine

/-! ### What a command reads -/

/-- Two runs with the same outcome as far as a unit can tell: the same response and the same unit afterwards, or the same
fault (R3). -/
def sameOutcome (n : UnitName) (r r' : Result) : Prop :=
  (∀ t, r = .next t → ∃ t', r' = .next t' ∧ t'.ports = t.ports ∧ agreesOn t t' n) ∧ ∀ f, r = .fault f → r' = .fault f

theorem agreesOn_answer {n : UnitName} {s s' : State} (h : agreesOn s s' n) (e : Status) (v : Reg32) :
    agreesOn (s.answer e v) (s'.answer e v) n := by
  cases n with
  | system =>
    obtain ⟨hregs, hmult, hcc⟩ := h
    exact ⟨hregs, hmult, congrArg (· + 1) hcc⟩
  | _ => exact h

theorem sameOutcome_answer {n : UnitName} {s s' : State} {e : Status} {v : Reg32} (h : agreesOn s s' n) :
    sameOutcome n (.next (s.answer e v)) (.next (s'.answer e v)) := by
  refine ⟨fun t ht => ?_, fun f hf => nomatch hf⟩
  cases ht
  exact ⟨_, rfl, rfl, agreesOn_answer h e v⟩

theorem sameOutcome_fault {n : UnitName} {f : Fault} : sameOutcome n (.fault f) (.fault f) :=
  ⟨fun _ ht => (nomatch ht), fun _ hf => hf⟩

theorem sameOutcome_orFault {n : UnitName} {α : Type} {r : Except Fault α} {k k' : α → Result}
    (h : ∀ a, sameOutcome n (k a) (k' a)) : sameOutcome n (orFault r k) (orFault r k') := by
  cases r with
  | ok a => exact h a
  | error f => exact sameOutcome_fault

theorem execRce_congr {i : Instr} {s s' : State} (hi : unitOf i = .rce) (hc : s.cfg = s'.cfg) (hu : s.rce = s'.rce) :
    sameOutcome .rce (exec i s) (exec i s') := by
  cases i with
  | rceInit cap =>
    simp only [exec, execRceInit, raiseRce, ← hc, ← hu]
    split_ifs
    · exact sameOutcome_answer hu
    · exact sameOutcome_answer rfl
    · exact sameOutcome_answer rfl
  | rcePutbit bit prob =>
    simp only [exec, execRcePutbit, raiseRce, ← hc, ← hu]
    cases dataGate s.rce.st s.rce.err with
    | some e => exact sameOutcome_answer hu
    | none =>
      simp only
      split_ifs
      · exact sameOutcome_answer rfl
      · exact sameOutcome_fault
      · exact sameOutcome_orFault fun u => sameOutcome_answer rfl
      · exact sameOutcome_answer rfl
  | rceFinish =>
    simp only [exec, execRceFinish, ← hc, ← hu]
    split_ifs
    · exact sameOutcome_answer hu
    · exact sameOutcome_orFault fun u => sameOutcome_answer rfl
    · exact sameOutcome_answer rfl
  | rceAbort =>
    simp only [exec, execRceAbort, ← hu]
    split_ifs
    · exact sameOutcome_answer hu
    · exact sameOutcome_answer rfl
  | _ => cases hi

theorem execRcd_congr {i : Instr} {s s' : State} (hi : unitOf i = .rcd) (hc : s.cfg = s'.cfg) (hu : s.rcd = s'.rcd) :
    sameOutcome .rcd (exec i s) (exec i s') := by
  cases i with
  | rcdInit len =>
    simp only [exec, execRcdInit, failRcdInit, ← hc, ← hu]
    split_ifs
    · exact sameOutcome_answer rfl
    · exact sameOutcome_answer rfl
    · refine sameOutcome_orFault fun v => ?_
      split_ifs
      · exact sameOutcome_answer rfl
      · exact sameOutcome_answer rfl
  | rcdGetbit prob =>
    simp only [exec, execRcdGetbit, raiseRcd, ← hc, ← hu]
    cases dataGate s.rcd.st s.rcd.err with
    | some e => exact sameOutcome_answer hu
    | none =>
      simp only
      split_ifs
      · exact sameOutcome_answer rfl
      · exact sameOutcome_fault
      · exact sameOutcome_orFault fun u => sameOutcome_answer rfl
      · exact sameOutcome_answer rfl
  | _ => cases hi

theorem execBpw_congr {i : Instr} {s s' : State} (hi : unitOf i = .bpw) (hc : s.cfg = s'.cfg) (hu : s.bpw = s'.bpw) :
    sameOutcome .bpw (exec i s) (exec i s') := by
  cases i with
  | bpwInit cap =>
    simp only [exec, execBpwInit, raiseBpw, ← hc, ← hu]
    split_ifs
    · exact sameOutcome_answer hu
    · exact sameOutcome_answer rfl
    · exact sameOutcome_answer rfl
  | bpwPutbits value nbits =>
    simp only [exec, execBpwPutbits, raiseBpw, ← hc, ← hu]
    cases dataGate s.bpw.st s.bpw.err with
    | some e => exact sameOutcome_answer hu
    | none =>
      simp only
      split_ifs
      · exact sameOutcome_answer rfl
      · exact sameOutcome_orFault fun u => sameOutcome_answer rfl
      · exact sameOutcome_answer rfl
  | bpwFinish =>
    simp only [exec, execBpwFinish, ← hc, ← hu]
    split_ifs
    · exact sameOutcome_answer hu
    · exact sameOutcome_orFault fun u => sameOutcome_answer rfl
    · exact sameOutcome_answer rfl
  | bpwAbort =>
    simp only [exec, execBpwAbort, ← hu]
    split_ifs
    · exact sameOutcome_answer hu
    · exact sameOutcome_answer rfl
  | _ => cases hi

theorem execBpr_congr {i : Instr} {s s' : State} (hi : unitOf i = .bpr) (hc : s.cfg = s'.cfg) (hu : s.bpr = s'.bpr) :
    sameOutcome .bpr (exec i s) (exec i s') := by
  cases i with
  | bprInit len =>
    simp only [exec, execBprInit, failBprInit, ← hc, ← hu]
    split_ifs
    · exact sameOutcome_answer rfl
    · exact sameOutcome_answer rfl
  | bprReadbits nbits =>
    simp only [exec, execBprReadbits, raiseBpr, ← hc, ← hu]
    cases dataGate s.bpr.st s.bpr.err with
    | some e => exact sameOutcome_answer hu
    | none =>
      simp only
      split_ifs
      · exact sameOutcome_answer rfl
      · exact sameOutcome_orFault fun u => sameOutcome_answer rfl
      · exact sameOutcome_answer rfl
  | _ => cases hi

theorem execPpb_congr {i : Instr} {s s' : State} (hi : unitOf i = .ppb) (hc : s.cfg = s'.cfg) (hm : s.pmem = s'.pmem) :
    sameOutcome .ppb (exec i s) (exec i s') := by
  obtain ⟨f, top, left, hp⟩ := exists_isPredictor hi
  rw [hp.eq_predict s, hp.eq_predict s']
  simp only [predict, ← hc, ← hm]
  split
  · exact sameOutcome_orFault fun tl => sameOutcome_orFault fun t => sameOutcome_orFault fun tr => sameOutcome_answer hm
  · exact sameOutcome_answer hm

theorem mapRange_congr {f : Pixel → Pixel} {addr count : BitVec 16} {s s' : State} (hc : s.cfg = s'.cfg)
    (h : agreesOn s s' .cdt) : sameOutcome .cdt (mapRange f addr count s) (mapRange f addr count s') := by
  simp only [mapRange, ← hc, ← h.1]
  split
  · exact sameOutcome_orFault fun m => sameOutcome_answer ⟨rfl, h.2⟩
  · exact sameOutcome_answer h

theorem execCdt_congr {i : Instr} {s s' : State} (hi : unitOf i = .cdt) (hc : s.cfg = s'.cfg) (h : agreesOn s s' .cdt) :
    sameOutcome .cdt (exec i s) (exec i s') := by
  cases i with
  | subg addr count | addg addr count => exact mapRange_congr hc h
  | ctFwd addr count =>
    simp only [exec, execCtFwd, ← h.2]
    exact mapRange_congr hc h
  | ctSetm g2r g2b r2b => exact sameOutcome_answer ⟨h.1, rfl⟩
  | ctInv src dst count =>
    simp only [exec, execCtInv, ← hc, ← h.1, ← h.2]
    split_ifs
    · exact sameOutcome_orFault fun m => sameOutcome_answer ⟨rfl, h.2⟩
    · exact sameOutcome_answer h
    · exact sameOutcome_answer h
  | _ => cases hi

theorem execRdsr_congr {sr : BitVec 8} {s s' : State} (h : agreesOn s s' .system) :
    sameOutcome .system (execRdsr sr s) (execRdsr sr s') := by
  unfold execRdsr
  cases statusRegOf sr with
  | none => exact sameOutcome_answer h
  | some r =>
    simp only [readStatus_congr h r]
    exact sameOutcome_orFault fun v => sameOutcome_answer h

/-- A command's outcome depends on its unit and the sizes alone. -/
theorem exec_congr {i : Instr} {s s' : State} (hc : s.cfg = s'.cfg) (h : agreesOn s s' (unitOf i)) :
    sameOutcome (unitOf i) (exec i s) (exec i s') := by
  generalize hi : unitOf i = n at h ⊢
  cases n with
  | rce => exact execRce_congr hi hc h
  | rcd => exact execRcd_congr hi hc h
  | bpw => exact execBpw_congr hi hc h
  | bpr => exact execBpr_congr hi hc h
  | ppb => exact execPpb_congr hi hc h
  | cdt => exact execCdt_congr hi hc h
  | system =>
    cases i with
    | rdsr sr => exact execRdsr_congr h
    | _ => cases hi

/-- Settles O15: every read of a meaning is of its own unit, so the two runs take the same branches. -/
theorem commandReadsOnlyItsUnit : Obligations.CommandReadsOnlyItsUnit := fun _ _ _ hc h => exec_congr hc h

end Sys2Proof.Machine
end

section
/-!
SUPPORT. Under the invariant a command of which no check of spec/60_exceptions.md R281 fails is answered OK or stops at memory
nothing has written (spec/20_memory.md R63).
-/
namespace Sys2Proof.Machine

/-! ### Operations that stop only at unwritten memory -/

/-- An operation that stops, if it does, only at memory nothing has written (R63). -/
def stopsOnlyUnwritten {α : Type} (x : Except Fault α) : Prop := ∀ f, x = .error f → f.isUnwrittenRead = true

theorem stopsOnlyUnwritten_ok {α : Type} (a : α) : stopsOnlyUnwritten (.ok a : Except Fault α) := fun _ h => nomatch h

theorem stopsOnlyUnwritten_bind {α β : Type} {x : Except Fault α} {f : α → Except Fault β} (hx : stopsOnlyUnwritten x)
    (hf : ∀ a, x = .ok a → stopsOnlyUnwritten (f a)) : stopsOnlyUnwritten (x >>= f) := by
  cases x with
  | ok a => exact hf a rfl
  | error e =>
    intro g hg
    cases hg
    exact hx e rfl

theorem memRead_stops {w : Nat} {c : Config} {sp : Space} {m : Memory w} {a : Nat} (ha : a < c.sizeOf sp) :
    stopsOnlyUnwritten (memRead c sp m a) := by
  intro f hf
  obtain ⟨rfl, _⟩ := memRead_error ha hf
  rfl

theorem fit_stops {w n : Nat} (h : n < 2 ^ w) : stopsOnlyUnwritten (fit w n) := by
  rw [fit_ok h]
  exact stopsOnlyUnwritten_ok _

theorem mapPixels_stops {c : Config} {f : Pixel → Pixel} {n src dst : Nat} {m : Memory 32} (hs : src + n ≤ c.pmemWords)
    (hd : dst + n ≤ c.pmemWords) : stopsOnlyUnwritten (mapPixels c f n src dst m) := by
  intro e he
  obtain ⟨a, _, _, rfl, _⟩ := mapPixels_error hs hd he
  rfl

/-! ### The range decoder -/

theorem nextBit_stops {c : Config} {u : Rcd} (hc : c.bufBytes ≤ 2 ^ 28) (room : u.bitpos.toNat < 8 * c.bufBytes) :
    stopsOnlyUnwritten (nextBit c u) := by
  have hbyte : u.bitpos.toNat / 8 < c.sizeOf .rcdIbuf := by simp only [Config.sizeOf]; omega
  refine stopsOnlyUnwritten_bind (memRead_stops hbyte) fun byte _ => ?_
  exact stopsOnlyUnwritten_bind (fit_stops (by omega)) fun bitpos _ => stopsOnlyUnwritten_ok _

theorem nextBit_bitpos {c : Config} {u u' : Rcd} {b : Bool} (h : nextBit c u = .ok (b, u')) :
    u'.bitpos.toNat = u.bitpos.toNat + 1 := by
  obtain ⟨byte, _, h2⟩ := bind_ok_iff.1 h
  obtain ⟨bitpos, h3, h4⟩ := bind_ok_iff.1 h2
  cases h4
  exact (fit_ok_iff.1 h3).2

/-- With the bits inside the buffer the decoder's reads stop only at a byte nothing has written. -/
theorem pullBits_stops {c : Config} {n v : Nat} {u : Rcd} (hc : c.bufBytes ≤ 2 ^ 28)
    (room : u.bitpos.toNat + n ≤ 8 * c.bufBytes) : stopsOnlyUnwritten (pullBits c n v u) := by
  induction n generalizing v u with
  | zero => exact stopsOnlyUnwritten_ok _
  | succ n ih =>
    refine stopsOnlyUnwritten_bind (nextBit_stops hc (by omega)) fun (b, u') hb => ih ?_
    rw [nextBit_bitpos hb]
    omega

/-- `n` bits appended to `v` make a number below `(v + 1)·2^n`. -/
theorem pullBits_lt {c : Config} {n v v' : Nat} {u u' : Rcd} (h : pullBits c n v u = .ok (v', u')) :
    v' < (v + 1) * 2 ^ n := by
  induction n generalizing v u with
  | zero => cases h; simp
  | succ n ih =>
    obtain ⟨⟨b, w⟩, _, h2⟩ := bind_ok_iff.1 h
    have hb := b.toNat_le
    calc v' < (2 * v + b.toNat + 1) * 2 ^ n := ih h2
      _ ≤ (2 * (v + 1)) * 2 ^ n := Nat.mul_le_mul_right _ (by omega)
      _ = (v + 1) * 2 ^ (n + 1) := by ring

/-- The value stays below the width, which is not 0 (R36, R142). -/
theorem decideBit_bounds {range value prob : BitVec 8} {b : Bool} {v r : Nat} (hr : 128 ≤ range.toNat)
    (hv : value.toNat < range.toNat) (h : decideBit range value prob = (b, v, r)) : v < r ∧ r < 256 := by
  obtain ⟨h1, h2⟩ := split_bounds (prob := prob.toNat) hr prob.isLt
  have := range.isLt
  simp only [decideBit] at h
  split at h
  · cases h; omega
  · cases h; omega

theorem decodeBit_stops {c : Config} {v r : Nat} {u : Rcd} (hc : c.bufBytes ≤ 2 ^ 28) (hv : v < r) (hr : r < 256)
    (room : u.bitpos.toNat + nshift r ≤ 8 * c.bufBytes) : stopsOnlyUnwritten (decodeBit c v r u) := by
  have hband := (nshift_band (by omega) hr).2
  refine stopsOnlyUnwritten_bind (pullBits_stops hc room) fun (v', u') hp => ?_
  have hv' : v' < 2 ^ 8 := calc
    v' < (v + 1) * 2 ^ nshift r := pullBits_lt hp
    _ ≤ r * 2 ^ nshift r := Nat.mul_le_mul_right _ hv
    _ < 2 ^ 8 := hband
  refine stopsOnlyUnwritten_bind (fit_stops hv') fun value _ => ?_
  exact stopsOnlyUnwritten_bind (fit_stops hband) fun range _ => stopsOnlyUnwritten_ok _

/-! ### The bit reader -/

/-- With enough bits left the refill stops only at a byte nothing has written (R171, R172). -/
theorem refill_stops {c : Config} {nbits n : Nat} {u : Bpr} (hc : c.bufBytes ≤ 2 ^ 28) (hn : nbits ≤ 24)
    (room : nbits + 8 * u.pos.toNat ≤ 8 * c.bufBytes + u.cnt.toNat) : stopsOnlyUnwritten (refill c nbits n u) := by
  induction n generalizing u with
  | zero => exact stopsOnlyUnwritten_ok _
  | succ n ih =>
    rw [refill]
    split
    · rename_i hlt
      have hpos : u.pos.toNat < c.sizeOf .bprIbuf := by simp only [Config.sizeOf]; omega
      refine stopsOnlyUnwritten_bind (memRead_stops hpos) fun byte _ => ?_
      refine stopsOnlyUnwritten_bind (fit_stops (by omega)) fun pos hp => ih ?_
      have hcnt : (u.cnt + 8).toNat = u.cnt.toNat + 8 := by
        rw [BitVec.toNat_add_of_lt (by simp; omega)]; rfl
      simp only [(fit_ok_iff.1 hp).2, hcnt]
      omega
    · exact stopsOnlyUnwritten_ok _

/-! ### Commands of which no check fails -/

/-- Answered OK, or stopped at memory nothing has written. -/
def okOrUnwritten (r : Result) : Prop :=
  (∃ t, r = .next t ∧ answeredWith t .ok) ∨ ∃ f, r = .fault f ∧ f.isUnwrittenRead = true

theorem okOrUnwritten_respond (s : State) (v : Reg32) : okOrUnwritten (s.respond v) := .inl ⟨_, rfl, v, rfl⟩

theorem okOrUnwritten_orFault {α : Type} {r : Except Fault α} {k : α → Result} (hr : stopsOnlyUnwritten r)
    (hk : ∀ a, r = .ok a → okOrUnwritten (k a)) : okOrUnwritten (orFault r k) := by
  cases r with
  | ok a => exact hk a rfl
  | error f => exact .inr ⟨f, rfl, hr f rfl⟩

/-- No check fails exactly when the condition of each is false (R281). -/
theorem firstError_eq_none_iff {s : State} {i : Instr} :
    firstError s i = none ↔ ∀ k ∈ errorChecks s i, k.1 = false := by
  simp [firstError]

theorem chooseInterval_range_eq (range low : BitVec 8) (bit : Bool) (prob : BitVec 8) :
    (chooseInterval range low bit prob).range =
      if bit then range.toNat - split range.toNat prob.toNat else split range.toNat prob.toNat := by
  cases bit <;> rfl

theorem decideBit_range_eq (range value prob : BitVec 8) :
    (decideBit range value prob).2.2 = if split range.toNat prob.toNat ≤ value.toNat
      then range.toNat - split range.toNat prob.toNat else split range.toNat prob.toNat := by
  simp only [decideBit]
  split <;> rfl

/-- Each status register of R51 fits 32 bits under the invariant. -/
theorem readStatus_stops {s : State} (hs : s.Inv) (r : StatusReg) : stopsOnlyUnwritten (readStatus s r) := by
  obtain ⟨⟨_, hbuf, _, _⟩, _, _, hbpw, hbpr, _, _⟩ := hs
  cases r with
  | bpwPos =>
    obtain ⟨_, _, _, _, _, hbits, hcap⟩ := hbpw
    exact fit_stops (by omega)
  | bprPos =>
    obtain ⟨_, _, _, hcnt, hpos, hlen⟩ := hbpr
    rw [readStatus, if_pos hcnt]
    exact fit_stops (by omega)
  | _ => exact stopsOnlyUnwritten_ok _

/-- A number RDSR's check lets through is the number of a register (R51, R260). -/
theorem statusRegOf_isSome {s : State} {sr : BitVec 8} (h : firstError s (.rdsr sr) = none) :
    ∃ r, statusRegOf sr = some r := by
  have hmem := firstError_eq_none_iff.1 h
  simp only [errorChecks, forall_eq, Bool.not_eq_false', List.contains_iff_mem, List.mem_cons,
    List.not_mem_nil, or_false] at hmem
  rcases hmem with rfl | rfl | rfl | rfl | rfl | rfl | rfl | rfl | rfl | rfl | rfl | rfl | rfl | rfl | rfl | rfl <;>
    exact ⟨_, rfl⟩

theorem execRdsr_checked {sr : BitVec 8} {s : State} (hs : s.Inv) (h : firstError s (.rdsr sr) = none) :
    okOrUnwritten (execRdsr sr s) := by
  obtain ⟨r, hr⟩ := statusRegOf_isSome h
  simp only [execRdsr, hr]
  exact okOrUnwritten_orFault (readStatus_stops hs r) fun v _ => okOrUnwritten_respond s v

theorem dataGate_eq_none {st : Lifecycle} {err : Status} (hst : st ≠ .idle) (herr : err = .ok) :
    dataGate st err = none := by
  rw [dataGate, if_neg hst, if_pos herr]

/-- An open encoder session meets R31. -/
theorem rceInv.openInv {c : Config} {u : Rce} (h : rceInv c u) (hst : u.st ≠ .idle) : rceOpenInv c u := by
  obtain ⟨_, _, _, hopen⟩ := h
  exact hopen (Lifecycle.active_of_ne hst)

/-- An open decoder session meets R36. -/
theorem rcdInv.openInv {c : Config} {u : Rcd} (h : rcdInv c u) (hst : u.st ≠ .idle) : rcdOpenInv c u := by
  obtain ⟨_, _, hopen⟩ := h
  exact hopen (Lifecycle.active_of_ne hst)

theorem execRce_checked {i : Instr} {s : State} (hi : unitOf i = .rce) (hs : s.Inv) (h : firstError s i = none) :
    okOrUnwritten (exec i s) := by
  obtain ⟨⟨_, hbuf, _, _⟩, hrce, _, _, _, _, _⟩ := hs
  have hk := firstError_eq_none_iff.1 h
  cases i with
  | rceInit cap =>
    obtain ⟨hst, hcap⟩ : s.rce.st ≠ .active ∧ 1 ≤ cap.toNat ∧ cap.toNat ≤ s.cfg.bufBytes := by
      simpa [errorChecks, Nat.one_le_iff_ne_zero] using hk
    simp only [exec, execRceInit, if_neg hst, if_pos hcap]
    exact okOrUnwritten_respond _ _
  | rcePutbit bit prob =>
    obtain ⟨hst, herr, hprob, hroom⟩ : s.rce.st ≠ .idle ∧ s.rce.err = .ok ∧ prob ≠ 0 ∧
        s.rce.bitpos.toNat + nshift (chooseInterval s.rce.range s.rce.low bit prob).range + 8 ≤ 8 * s.rce.ocap.toNat := by
      simpa [errorChecks, chooseInterval_range_eq, Nat.add_right_comm] using hk
    have hopen := rceInv.openInv hrce hst
    obtain ⟨u, hu, _⟩ := codeBit_ok hbuf (rceInv.asmOk hrce hopen) hopen hroom
    simp only [exec, execRcePutbit, dataGate_eq_none hst herr, if_neg hprob, if_neg (not_lt.2 hopen.1), if_pos hroom, hu,
      orFault_ok]
    exact okOrUnwritten_respond _ _
  | rceFinish =>
    obtain ⟨hst, herr⟩ : s.rce.st ≠ .idle ∧ s.rce.err = .ok := by simpa [errorChecks] using hk
    have hopen := rceInv.openInv hrce hst
    obtain ⟨u, hu, _⟩ := finishStream_ok hbuf (rceInv.asmOk hrce hopen) hopen
    simp only [exec, execRceFinish, if_neg hst, if_pos herr, hu, orFault_ok]
    exact okOrUnwritten_respond _ _
  | rceAbort =>
    have hst : s.rce.st ≠ .idle := by simpa [errorChecks] using hk
    simp only [exec, execRceAbort, if_neg hst]
    exact okOrUnwritten_respond _ _
  | _ => cases hi

theorem execRcd_checked {i : Instr} {s : State} (hi : unitOf i = .rcd) (hs : s.Inv) (h : firstError s i = none) :
    okOrUnwritten (exec i s) := by
  obtain ⟨⟨hbuf1, hbuf, _, _⟩, _, hrcd, _, _, _, _⟩ := hs
  have hk := firstError_eq_none_iff.1 h
  cases i with
  | rcdInit len =>
    obtain ⟨hsize, hlen, hfirst⟩ : len.toNat ≤ s.cfg.bufBytes ∧ len ≠ 0 ∧ s.rcd.ibuf.read 0 ≠ some 0xFF := by
      simpa [errorChecks] using hk
    simp only [exec, execRcdInit, if_neg (not_lt.2 hsize), if_neg hlen]
    refine okOrUnwritten_orFault (memRead_stops hbuf1) fun v hv => ?_
    have hv' : v ≠ 0xFF := fun he => hfirst (he ▸ (memRead_ok_iff.1 hv).2)
    rw [if_neg hv']
    exact okOrUnwritten_respond _ _
  | rcdGetbit prob =>
    obtain ⟨hst, herr, hprob, hroom⟩ : s.rcd.st ≠ .idle ∧ s.rcd.err = .ok ∧ prob ≠ 0 ∧
        s.rcd.bitpos.toNat + nshift (decideBit s.rcd.range s.rcd.value prob).2.2 ≤ 8 * s.rcd.ilen.toNat := by
      simpa [errorChecks, decideBit_range_eq] using hk
    obtain ⟨hrange, hvalue, _, _, hlen⟩ := rcdInv.openInv hrcd hst
    rcases hd : decideBit s.rcd.range s.rcd.value prob with ⟨b, v, r⟩
    rw [hd] at hroom
    obtain ⟨hv, hr⟩ := decideBit_bounds hrange hvalue hd
    have hbits : s.rcd.bitpos.toNat + nshift r ≤ 8 * s.cfg.bufBytes := le_trans hroom (Nat.mul_le_mul_left 8 hlen)
    simp only [exec, execRcdGetbit, dataGate_eq_none hst herr, if_neg hprob, if_neg (not_lt.2 hrange), hd, if_pos hroom]
    exact okOrUnwritten_orFault (decodeBit_stops hbuf hv hr hbits) fun u _ => okOrUnwritten_respond _ _
  | _ => cases hi

theorem execBpw_checked {i : Instr} {s : State} (hi : unitOf i = .bpw) (hs : s.Inv) (h : firstError s i = none) :
    okOrUnwritten (exec i s) := by
  obtain ⟨⟨_, hbuf, _, _⟩, _, _, hbpw, _, _, _⟩ := hs
  have hk := firstError_eq_none_iff.1 h
  cases i with
  | bpwInit cap =>
    obtain ⟨hst, hsize⟩ : s.bpw.st ≠ .active ∧ cap.toNat ≤ s.cfg.bufBytes := by simpa [errorChecks] using hk
    simp only [exec, execBpwInit, if_neg hst, if_pos hsize]
    exact okOrUnwritten_respond _ _
  | bpwPutbits value nbits =>
    obtain ⟨hst, herr, hn, hroom⟩ : s.bpw.st ≠ .idle ∧ s.bpw.err = .ok ∧ nbits.toNat ≤ maxNbits ∧
        8 * s.bpw.olen.toNat + s.bpw.pend.toNat + nbits.toNat ≤ 8 * s.bpw.ocap.toNat := by
      simpa [errorChecks, maxNbits] using hk
    obtain ⟨u, hu, _⟩ := packBits_ok (value := value) hbuf hbpw hn hroom
    simp only [exec, execBpwPutbits, dataGate_eq_none hst herr, if_neg (not_lt.2 hn), if_pos hroom, hu, orFault_ok]
    exact okOrUnwritten_respond _ _
  | bpwFinish =>
    obtain ⟨hst, herr⟩ : s.bpw.st ≠ .idle ∧ s.bpw.err = .ok := by simpa [errorChecks] using hk
    obtain ⟨u, hu, _⟩ := finishPack_ok hbuf hbpw
    simp only [exec, execBpwFinish, if_neg hst, if_pos herr, hu, orFault_ok]
    exact okOrUnwritten_respond _ _
  | bpwAbort =>
    have hst : s.bpw.st ≠ .idle := by simpa [errorChecks] using hk
    simp only [exec, execBpwAbort, if_neg hst]
    exact okOrUnwritten_respond _ _
  | _ => cases hi

theorem execBpr_checked {i : Instr} {s : State} (hi : unitOf i = .bpr) (hs : s.Inv) (h : firstError s i = none) :
    okOrUnwritten (exec i s) := by
  obtain ⟨⟨_, hbuf, _, _⟩, _, _, _, hbpr, _, _⟩ := hs
  have hk := firstError_eq_none_iff.1 h
  cases i with
  | bprInit len =>
    have hsize : len.toNat ≤ s.cfg.bufBytes := by simpa [errorChecks] using hk
    simp only [exec, execBprInit, if_pos hsize]
    exact okOrUnwritten_respond _ _
  | bprReadbits nbits =>
    obtain ⟨hst, herr, hn, hroom⟩ : s.bpr.st ≠ .idle ∧ s.bpr.err = .ok ∧ nbits.toNat ≤ maxNbits ∧
        8 * s.bpr.pos.toNat + nbits.toNat ≤ 8 * s.bpr.ilen.toNat + s.bpr.cnt.toNat := by
      simpa [errorChecks, maxNbits] using hk
    obtain ⟨_, _, _, _, _, hlen⟩ := hbpr
    have hleft : (nbits.toNat : Int) ≤ bitsLeft s.bpr := by unfold bitsLeft; omega
    simp only [exec, execBprReadbits, dataGate_eq_none hst herr, if_neg (not_lt.2 hn), if_pos hleft]
    exact okOrUnwritten_orFault (refill_stops hbuf hn (by omega)) fun u _ => okOrUnwritten_respond _ _
  | _ => cases hi

theorem topInPmem_of_le {c : Config} {top : BitVec 16} (h1 : 1 ≤ top.toNat) (h2 : top.toNat + 2 ≤ c.pmemWords) :
    topInPmem c top = true := decide_eq_true ⟨h1, by omega⟩

theorem rangeInPmem_of_le {c : Config} {addr count : BitVec 16} (h : addr.toNat + count.toNat ≤ c.pmemWords) :
    rangeInPmem c addr count = true := decide_eq_true h

/-- A predictor whose neighbours are inside PMEM (R73, R194). -/
theorem predict_checked {f : Pixel → Pixel → Pixel → Pixel → Pixel} {top : BitVec 16} {left : Pixel} {s : State}
    (h : 1 ≤ top.toNat ∧ top.toNat + 2 ≤ s.cfg.pmemWords) : okOrUnwritten (predict f top left s) := by
  obtain ⟨h1, h2⟩ := h
  have hread : ∀ a, a ≤ top.toNat + 1 → stopsOnlyUnwritten (memRead s.cfg .pmem s.pmem a) := fun a ha =>
    memRead_stops (show a < s.cfg.pmemWords by omega)
  rw [predict, if_pos (topInPmem_of_le h1 h2)]
  refine okOrUnwritten_orFault (hread _ (by omega)) fun tl _ => ?_
  refine okOrUnwritten_orFault (hread _ (by omega)) fun t _ => ?_
  exact okOrUnwritten_orFault (hread _ le_rfl) fun tr _ => okOrUnwritten_respond _ _

/-- A range command whose range is inside PMEM (R73, R232). -/
theorem mapRange_checked {f : Pixel → Pixel} {addr count : BitVec 16} {s : State}
    (h : addr.toNat + count.toNat ≤ s.cfg.pmemWords) : okOrUnwritten (mapRange f addr count s) := by
  rw [mapRange, if_pos (rangeInPmem_of_le h)]
  exact okOrUnwritten_orFault (mapPixels_stops h h) fun m _ => okOrUnwritten_respond _ _

theorem execPpb_checked {i : Instr} {s : State} (hi : unitOf i = .ppb) (h : firstError s i = none) :
    okOrUnwritten (exec i s) := by
  obtain ⟨f, top, left, hp⟩ := exists_isPredictor hi
  have hk := firstError_eq_none_iff.1 h
  rw [hp.eq_predict s]
  exact predict_checked (by simpa [hp.checks s, Nat.one_le_iff_ne_zero] using hk)

theorem execCdt_checked {i : Instr} {s : State} (hi : unitOf i = .cdt) (h : firstError s i = none) :
    okOrUnwritten (exec i s) := by
  have hk := firstError_eq_none_iff.1 h
  cases i with
  | subg addr count | addg addr count | ctFwd addr count => exact mapRange_checked (by simpa [errorChecks] using hk)
  | ctSetm g2r g2b r2b => exact okOrUnwritten_respond _ _
  | ctInv src dst count =>
    obtain ⟨hsrc, hdst⟩ : src.toNat + count.toNat ≤ s.cfg.pmemWords ∧ dst.toNat + count.toNat ≤ s.cfg.pmemWords := by
      simpa [errorChecks] using hk
    simp only [exec, execCtInv, if_pos (rangeInPmem_of_le hsrc), if_pos (rangeInPmem_of_le hdst)]
    exact okOrUnwritten_orFault (mapPixels_stops hsrc hdst) fun m _ => okOrUnwritten_respond _ _
  | _ => cases hi

/-- Settles O21: with no check failing every guard of the meaning holds, and under the invariant every operation has room. -/
theorem noFailingCheckMeansOk : Obligations.NoFailingCheckMeansOk := by
  intro i s hs h
  cases hi : unitOf i with
  | rce => exact execRce_checked hi hs h
  | rcd => exact execRcd_checked hi hs h
  | bpw => exact execBpw_checked hi hs h
  | bpr => exact execBpr_checked hi hs h
  | ppb => exact execPpb_checked hi h
  | cdt => exact execCdt_checked hi h
  | system =>
    cases i with
    | rdsr sr => exact execRdsr_checked hs h
    | _ => cases hi

end Sys2Proof.Machine
end

section
/-!
SUPPORT. Every command counts and answers (spec/10_state.md R53, spec/30_encoding.md R91), and every step keeps the invariant of
the machine, unit by unit (spec/10_state.md R31, R36, R41, R46).
-/
namespace Sys2Proof.Machine

/-! ### Counting and answering -/

theorem mapRange_cc {f : Pixel → Pixel} {addr count : BitVec 16} {s t : State} (h : mapRange f addr count s = .next t) :
    t.cc = s.cc + 1 := by
  rcases mapRange_next h with ⟨_, rfl⟩ | ⟨m, _, _, rfl⟩ <;> rfl

/-- A command advances `CC` by one whichever way it is answered (R53). -/
theorem exec_cc {i : Instr} {s t : State} (h : exec i s = .next t) : t.cc = s.cc + 1 := by
  cases i with
  | rceInit cap => rcases execRceInit_next h with ⟨_, rfl⟩ | ⟨_, _, _, rfl⟩ | ⟨_, rfl⟩ <;> rfl
  | rcePutbit bit prob =>
    rcases execRcePutbit_next h with ⟨e, _, rfl⟩ | ⟨_, _, _, rfl⟩ | ⟨_, _, rfl⟩ | ⟨_, _, _, _, _, u, _, rfl⟩ <;> rfl
  | rceFinish => rcases execRceFinish_next h with ⟨_, rfl⟩ | ⟨_, _, u, _, rfl⟩ | ⟨_, _, rfl⟩ <;> rfl
  | rceAbort => rcases execRceAbort_next h with ⟨_, rfl⟩ | ⟨_, rfl⟩ <;> rfl
  | rcdInit len => rcases execRcdInit_next h with ⟨e, _, rfl⟩ | ⟨v, _, _, _, _, rfl⟩ <;> rfl
  | rcdGetbit prob =>
    rcases execRcdGetbit_next h with ⟨e, _, rfl⟩ | ⟨_, _, e, _, rfl⟩ | ⟨_, _, _, _, b, v, r, u, _, _, _, rfl⟩ <;> rfl
  | bpwInit cap => rcases execBpwInit_next h with ⟨_, rfl⟩ | ⟨_, _, rfl⟩ | ⟨_, rfl⟩ <;> rfl
  | bpwPutbits value nbits =>
    rcases execBpwPutbits_next h with ⟨e, _, rfl⟩ | ⟨_, _, e, _, rfl⟩ | ⟨_, _, _, _, u, _, rfl⟩ <;> rfl
  | bpwFinish => rcases execBpwFinish_next h with ⟨_, rfl⟩ | ⟨_, _, u, _, rfl⟩ | ⟨_, _, rfl⟩ <;> rfl
  | bpwAbort => rcases execBpwAbort_next h with ⟨_, rfl⟩ | ⟨_, rfl⟩ <;> rfl
  | bprInit len => rcases execBprInit_next h with rfl | ⟨_, rfl⟩ <;> rfl
  | bprReadbits nbits =>
    rcases execBprReadbits_next h with ⟨e, _, rfl⟩ | ⟨_, _, e, _, rfl⟩ | ⟨_, _, _, _, u, _, rfl⟩ <;> rfl
  | pred0 top left | pred1 top left | pred2 top left | pred3 top left | pred4 top left | pred5 top left
  | pred6 top left | pred7 top left | pred8 top left | pred9 top left | pred10 top left | pred11 top left
  | pred12 top left | pred13 top left =>
    rcases predict_next h with ⟨_, rfl⟩ | ⟨tl, tt, tr, _, _, _, _, rfl⟩ <;> rfl
  | subg addr count | addg addr count | ctFwd addr count => exact mapRange_cc h
  | ctSetm g2r g2b r2b => obtain rfl := respond_next h; rfl
  | ctInv src dst count => rcases execCtInv_next h with ⟨_, rfl⟩ | ⟨m, _, _, _, rfl⟩ <;> rfl
  | rdsr sr => rcases execRdsr_next h with ⟨_, rfl⟩ | ⟨r, v, _, _, rfl⟩ <;> rfl

theorem writesOnly.cfg_eq {s t : State} {n : UnitName} (h : writesOnly s t n) : t.cfg = s.cfg := by
  cases n <;> exact h.1

theorem exec_cfg {i : Instr} {s t : State} (h : exec i s = .next t) : t.cfg = s.cfg :=
  (commandWritesOnlyItsUnit i s t h).cfg_eq

/-- A command leaves one response word of the form of R91 on the port. -/
theorem exec_ports {i : Instr} {s t : State} (h : exec i s = .next t) : ∃ w, t.ports = .response w ∧ responseOk w := by
  cases exec_answered h with
  | failed _ _ => exact ⟨_, rfl, responseOk_responseWord _ _ fun _ => rfl⟩
  | ok _ => exact ⟨_, rfl, responseOk_responseWord _ _ fun hne => absurd rfl hne⟩

/-- Settles O7: `CC` by the outcomes of each command, the sizes by its frame, the response by the two ways of answering. -/
theorem everyCommandCountsAndAnswers : Obligations.EveryCommandCountsAndAnswers := by
  intro i s t h
  refine ⟨?_, exec_cfg h, exec_ports h⟩
  rw [exec_cc h, BitVec.toNat_add]
  rfl

/-! ### What a command of another unit leaves alone -/

/-- A unit that may be written only by its own commands is as before after any other command (R3). -/
theorem writesOnly.others {s t : State} {n : UnitName} (h : writesOnly s t n) :
    (n ≠ .rce → t.rce = s.rce) ∧ (n ≠ .rcd → t.rcd = s.rcd) ∧ (n ≠ .bpw → t.bpw = s.bpw) ∧ (n ≠ .bpr → t.bpr = s.bpr) ∧
      (n ≠ .cdt → t.mult = s.mult ∧ t.pmem = s.pmem) := by
  cases n <;> simp_all [writesOnly]

/-! ### The encoder -/

/-- A refused command of the encoder leaves its registers (R280). -/
theorem rceInv.setErr {c : Config} {u : Rce} {e : Status} (h : rceInv c u) (he : e = .ok ∨ e = .operand ∨ e = .capacity) :
    rceInv c { u with err := e } := by
  obtain ⟨hmem, hst, _, hopen⟩ := h
  exact ⟨hmem, hst, he, hopen⟩

/-- A failed FINISH, and ABORT: the session ends with no stream (R134, R135). -/
theorem rceInv.discard {c : Config} {u : Rce} {e : Status} (h : rceInv c u) (he : e = .ok ∨ e = .operand ∨ e = .capacity) :
    rceInv c { u with st := .idle, err := e, olen := 0 } := by
  obtain ⟨hmem, _, _, _⟩ := h
  exact ⟨hmem, storedBelow_zero _, he, fun ha => nomatch ha⟩

theorem rceInv_openRce {c : Config} {u : Rce} {cap : BitVec 32} (h : rceInv c u) (h1 : 1 ≤ cap.toNat)
    (hc : cap.toNat ≤ c.bufBytes) : rceInv c (openRce u cap) := by
  obtain ⟨hmem, _, _, _⟩ := h
  refine ⟨hmem, storedBelow_zero _, .inl rfl, fun _ => ⟨by simp [openRce], by simp [openRce], rfl, ?_, hc,
    fun _ => by simp [openRce]⟩⟩
  show 0 + 8 ≤ 8 * cap.toNat
  omega

theorem execRce_keepsInv {i : Instr} {s t : State} (hi : unitOf i = .rce) (hs : s.Inv) (h : exec i s = .next t) :
    rceInv s.cfg t.rce := by
  obtain ⟨⟨_, hbuf, _, _⟩, hrce, _, _, _, _, _⟩ := hs
  have ⟨_, _, herr, _⟩ := hrce
  cases i with
  | rceInit cap =>
    rcases execRceInit_next h with ⟨_, rfl⟩ | ⟨_, h1, hcap, rfl⟩ | ⟨_, rfl⟩
    · exact hrce
    · exact rceInv_openRce hrce h1 hcap
    · exact rceInv.setErr hrce (by decide)
  | rcePutbit bit prob =>
    rcases execRcePutbit_next h with ⟨e, _, rfl⟩ | ⟨_, _, _, rfl⟩ | ⟨_, _, rfl⟩ | ⟨ha, _, _, _, hroom, u, hu, rfl⟩
    · exact hrce
    · exact rceInv.setErr hrce (by decide)
    · exact rceInv.setErr hrce (by decide)
    · have hopen := rceInv.openInv hrce (by simp [ha])
      obtain ⟨u', hu', hasm, hopen', _, _, he, _⟩ := codeBit_ok hbuf (rceInv.asmOk hrce hopen) hopen hroom
      obtain rfl : u = u' := Except.ok.inj (hu.symm.trans hu')
      exact ⟨hasm.mem, hasm.stored, he ▸ herr, fun _ => hopen'⟩
  | rceFinish =>
    rcases execRceFinish_next h with ⟨_, rfl⟩ | ⟨ha, _, u, hu, rfl⟩ | ⟨_, _, rfl⟩
    · exact hrce
    · have hopen := rceInv.openInv hrce (by simp [ha])
      obtain ⟨u', hu', hmem, hst, _, hidle, he, _⟩ := finishStream_ok hbuf (rceInv.asmOk hrce hopen) hopen
      obtain rfl : u = u' := Except.ok.inj (hu.symm.trans hu')
      exact ⟨hmem, hst, he ▸ herr, fun ha' => nomatch hidle.symm.trans ha'⟩
    · exact rceInv.discard hrce herr
  | rceAbort =>
    rcases execRceAbort_next h with ⟨_, rfl⟩ | ⟨_, rfl⟩
    · exact hrce
    · exact rceInv.discard hrce (.inl rfl)
  | _ => cases hi

/-! ### The decoder -/

theorem rcdInv.setErr {c : Config} {u : Rcd} {e : Status} (h : rcdInv c u)
    (he : e = .ok ∨ e = .operand ∨ e = .eos ∨ e = .corrupt) : rcdInv c { u with err := e } := by
  obtain ⟨hmem, _, hopen⟩ := h
  exact ⟨hmem, he, hopen⟩

theorem rcdInv_openRcd {c : Config} {u : Rcd} {len : BitVec 32} {v : Byte} (h : rcdInv c u) (h0 : len ≠ 0)
    (hc : len.toNat ≤ c.bufBytes) (hv : v ≠ 0xFF) : rcdInv c (openRcd u len v) := by
  obtain ⟨hmem, _, _⟩ := h
  have hlen : len.toNat ≠ 0 := fun he => h0 (BitVec.eq_of_toNat_eq he)
  have hbyte : v.toNat ≠ 255 := fun he => hv (BitVec.eq_of_toNat_eq he)
  have := v.isLt
  refine ⟨hmem, .inl rfl, fun _ => ⟨by simp [openRcd], ?_, by simp [openRcd], ?_, hc⟩⟩
  · show v.toNat < 255
    omega
  · show 8 ≤ 8 * len.toNat
    omega

/-- The value stays below the width when both are shifted (R36, R142). -/
theorem decodeBit_value_lt {c : Config} {v r : Nat} {u u' : Rcd} (hv : v < r) (h : decodeBit c v r u = .ok u') :
    u'.value.toNat < u'.range.toNat := by
  obtain ⟨⟨v', w⟩, hpull, h2⟩ := bind_ok_iff.1 h
  obtain ⟨value, hvalue, h4⟩ := bind_ok_iff.1 h2
  obtain ⟨range, hrange, h6⟩ := bind_ok_iff.1 h4
  cases h6
  calc value.toNat = v' := (fit_ok_iff.1 hvalue).2
    _ < (v + 1) * 2 ^ nshift r := pullBits_lt hpull
    _ ≤ r * 2 ^ nshift r := Nat.mul_le_mul_right _ hv
    _ = range.toNat := (fit_ok_iff.1 hrange).2.symm

theorem decodeBit_keepsInv {c : Config} {v r : Nat} {u u' : Rcd} (h : rcdInv c u) (ho : rcdOpenInv c u) (hv : v < r)
    (hr : r < 256) (room : u.bitpos.toNat + nshift r ≤ 8 * u.ilen.toNat) (hu : decodeBit c v r u = .ok u') :
    rcdInv c u' := by
  obtain ⟨hmem, herr, _⟩ := h
  obtain ⟨_, _, h8, _, hlen⟩ := ho
  obtain ⟨_, he, hl, hb, hpos, hrange⟩ := decodeBit_frame hu
  refine ⟨hb ▸ hmem, he ▸ herr, fun _ => ⟨?_, decodeBit_value_lt hv hu, by omega, by rw [hl]; omega, hl ▸ hlen⟩⟩
  rw [hrange]
  exact (nshift_band (by omega) hr).1

theorem execRcd_keepsInv {i : Instr} {s t : State} (hi : unitOf i = .rcd) (hs : s.Inv) (h : exec i s = .next t) :
    rcdInv s.cfg t.rcd := by
  obtain ⟨_, _, hrcd, _, _, _, _⟩ := hs
  cases i with
  | rcdInit len =>
    rcases execRcdInit_next h with ⟨e, he, rfl⟩ | ⟨v, h0, hlen, _, hv, rfl⟩
    · exact ⟨hrcd.1, .inr he, fun ha => nomatch ha⟩
    · exact rcdInv_openRcd hrcd h0 hlen hv
  | rcdGetbit prob =>
    rcases execRcdGetbit_next h with ⟨e, _, rfl⟩ | ⟨_, _, e, he, rfl⟩ | ⟨ha, _, _, _, b, v, r, u, hd, hroom, hu, rfl⟩
    · exact hrcd
    · exact rcdInv.setErr hrcd (by rcases he with rfl | rfl <;> decide)
    · have hopen := rcdInv.openInv hrcd (by simp [ha])
      have ⟨hrange, hvalue, _⟩ := hopen
      obtain ⟨hv, hr⟩ := decideBit_bounds hrange hvalue hd
      exact decodeBit_keepsInv hrcd hopen hv hr hroom hu
  | _ => cases hi

/-! ### The bit packer's writer -/

theorem bpwInv.setErr {c : Config} {u : Bpw} {e : Status} (h : bpwInv c u) (he : e = .ok ∨ e = .operand ∨ e = .capacity) :
    bpwInv c { u with err := e } := by
  obtain ⟨hmem, hst, _, hregs⟩ := h
  exact ⟨hmem, hst, he, hregs⟩

/-- A failed FINISH, and ABORT: the session ends with no stream (R165, R166). -/
theorem bpwInv.discard {c : Config} {u : Bpw} {e : Status} (h : bpwInv c u) (he : e = .ok ∨ e = .operand ∨ e = .capacity) :
    bpwInv c { u with st := .idle, err := e, olen := 0 } := by
  obtain ⟨hmem, _, _, hpend, hacc, hbits, hcap⟩ := h
  refine ⟨hmem, storedBelow_zero _, he, hpend, hacc, ?_, hcap⟩
  show 0 + u.pend.toNat ≤ 8 * u.ocap.toNat
  omega

theorem bpwInv_openBpw {c : Config} {u : Bpw} {cap : BitVec 32} (h : bpwInv c u) (hc : cap.toNat ≤ c.bufBytes) :
    bpwInv c (openBpw u cap) := by
  obtain ⟨hmem, _, _, _⟩ := h
  exact ⟨hmem, storedBelow_zero _, .inl rfl, by simp [openBpw], by simp [openBpw], Nat.zero_le _, hc⟩

theorem execBpw_keepsInv {i : Instr} {s t : State} (hi : unitOf i = .bpw) (hs : s.Inv) (h : exec i s = .next t) :
    bpwInv s.cfg t.bpw := by
  obtain ⟨⟨_, hbuf, _, _⟩, _, _, hbpw, _, _, _⟩ := hs
  have ⟨_, _, herr, _, _, hbits, hcap⟩ := hbpw
  cases i with
  | bpwInit cap =>
    rcases execBpwInit_next h with ⟨_, rfl⟩ | ⟨_, hsize, rfl⟩ | ⟨_, rfl⟩
    · exact hbpw
    · exact bpwInv_openBpw hbpw hsize
    · exact bpwInv.setErr hbpw (by decide)
  | bpwPutbits value nbits =>
    rcases execBpwPutbits_next h with ⟨e, _, rfl⟩ | ⟨_, _, e, he, rfl⟩ | ⟨_, _, hn, hroom, u, hu, rfl⟩
    · exact hbpw
    · exact bpwInv.setErr hbpw (.inr he)
    · obtain ⟨u', hu', hpack, _, he, hoc, hpend, hlen, _⟩ := packBits_ok (value := value) hbuf hbpw hn hroom
      obtain rfl : u = u' := Except.ok.inj (hu.symm.trans hu')
      refine ⟨hpack.mem, hpack.stored, he ▸ herr, hpend, hpack.pending, ?_, hoc ▸ hcap⟩
      simp only [State.answer_bpw, State.setBpw_bpw, hoc]
      omega
  | bpwFinish =>
    rcases execBpwFinish_next h with ⟨_, rfl⟩ | ⟨_, _, u, hu, rfl⟩ | ⟨_, _, rfl⟩
    · exact hbpw
    · obtain ⟨u', hu', hmem, hst, _, he, hoc, hacc, hpend, hlen, _⟩ := finishPack_ok hbuf hbpw
      obtain rfl : u = u' := Except.ok.inj (hu.symm.trans hu')
      have hp0 : u.pend.toNat = 0 := by rw [hpend]; rfl
      have ha0 : u.acc.toNat = 0 := by rw [hacc]; rfl
      refine ⟨hmem, hst, he ▸ herr, by simp [hp0], by simp [ha0], ?_, hoc ▸ hcap⟩
      simp only [State.answer_bpw, State.setBpw_bpw, hoc]
      omega
    · exact bpwInv.discard hbpw herr
  | bpwAbort =>
    rcases execBpwAbort_next h with ⟨_, rfl⟩ | ⟨_, rfl⟩
    · exact hbpw
    · exact bpwInv.discard hbpw (.inl rfl)
  | _ => cases hi

/-! ### The bit packer's reader -/

theorem bprInv.setErr {c : Config} {u : Bpr} {e : Status} (h : bprInv c u) (he : e = .ok ∨ e = .operand ∨ e = .eos) :
    bprInv c { u with err := e } := by
  obtain ⟨hmem, _, hregs⟩ := h
  exact ⟨hmem, he, hregs⟩

theorem bprInv_openBpr {c : Config} {u : Bpr} {len : BitVec 32} (h : bprInv c u) (hc : len.toNat ≤ c.bufBytes) :
    bprInv c (openBpr u len) := by
  obtain ⟨hmem, _, _⟩ := h
  exact ⟨hmem, .inl rfl, by simp [openBpr], by simp [openBpr], Nat.zero_le _, hc⟩

/-- The bytes a refill that answers has read were stored. -/
theorem refill_stored {c : Config} {nbits n : Nat} {u u' : Bpr} (hn : nbits ≤ 24) (hfuel : nbits ≤ u.cnt.toNat + 8 * n)
    (h : refill c nbits n u = .ok u') : ∀ a, u.pos.toNat ≤ a → a < u.pos.toNat + refillCount nbits u.cnt.toNat →
      a < c.bufBytes ∧ (u.ibuf.read a).isSome := by
  induction n generalizing u with
  | zero => unfold refillCount; omega
  | succ n ih =>
    rw [refill] at h
    split at h
    · rename_i hlt
      obtain ⟨byte, hread, h2⟩ := bind_ok_iff.1 h
      obtain ⟨pos, hpos, h4⟩ := bind_ok_iff.1 h2
      obtain ⟨hsize, hb⟩ := memRead_ok_iff.1 hread
      have hp : pos.toNat = u.pos.toNat + 1 := (fit_ok_iff.1 hpos).2
      have hcnt : (u.cnt + 8).toNat = u.cnt.toNat + 8 := by
        rw [BitVec.toNat_add_of_lt (by simp; omega)]; rfl
      have hrest := ih (by simp only [hcnt]; omega) h4
      simp only [hcnt, hp, refillCount] at hrest
      intro a hle ha
      unfold refillCount at ha
      rcases hle.eq_or_lt with rfl | hgt
      · exact ⟨hsize, by simp [hb]⟩
      · exact hrest a hgt (by omega)
    · unfold refillCount
      omega

/-- The bits taken leave the accumulator and the count together (R171). -/
theorem dropBits_keepsInv {c : Config} {u : Bpr} {nbits : Nat} (h : bprInv c u) (hn : nbits ≤ u.cnt.toNat) :
    bprInv c (dropBits u nbits) := by
  obtain ⟨hmem, herr, hacc, hcnt, hpos, hlen⟩ := h
  have hsub : (u.cnt - BitVec.ofNat 5 nbits).toNat = u.cnt.toNat - nbits := by
    have := u.cnt.isLt
    rw [BitVec.toNat_sub_of_le (by rw [BitVec.le_def, BitVec.toNat_ofNat]; omega), BitVec.toNat_ofNat]
    omega
  refine ⟨hmem, herr, ?_, ?_, hpos, hlen⟩
  · show (u.acc >>> nbits).toNat < 2 ^ (u.cnt - BitVec.ofNat 5 nbits).toNat
    rw [hsub, BitVec.toNat_ushiftRight, Nat.shiftRight_eq_div_pow, Nat.div_lt_iff_lt_mul (by positivity), ← pow_add,
      Nat.sub_add_cancel hn]
    exact hacc
  · show (u.cnt - BitVec.ofNat 5 nbits).toNat ≤ 8 * u.pos.toNat
    omega

/-- A refill with enough bits left keeps the reader's invariant and ends with at least `nbits` bits (R171, R172). -/
theorem refill_keepsInv {c : Config} {nbits : Nat} {u u' : Bpr} (hc : c.bufBytes ≤ 2 ^ 28) (h : bprInv c u)
    (hn : nbits ≤ 24) (room : nbits + 8 * u.pos.toNat ≤ 8 * u.ilen.toNat + u.cnt.toNat)
    (hu : refill c nbits 3 u = .ok u') : bprInv c u' ∧ nbits ≤ u'.cnt.toNat := by
  obtain ⟨hmem, herr, hacc, hcnt, hpos, hlen⟩ := h
  obtain ⟨v, hv, _, he, hl, hb, hp, hk, hge, ha, _⟩ := refill_ok (n := 3) hn hacc (by omega)
    (refill_stored hn (by omega) hu) (by unfold refillCount; omega)
  obtain rfl : u' = v := Except.ok.inj (hu.symm.trans hv)
  refine ⟨⟨hb ▸ hmem, he ▸ herr, ha, by omega, ?_, hl ▸ hlen⟩, hge⟩
  rw [hl, hp, refillCount]
  omega

theorem execBpr_keepsInv {i : Instr} {s t : State} (hi : unitOf i = .bpr) (hs : s.Inv) (h : exec i s = .next t) :
    bprInv s.cfg t.bpr := by
  obtain ⟨⟨_, hbuf, _, _⟩, _, _, _, hbpr, _, _⟩ := hs
  cases i with
  | bprInit len =>
    rcases execBprInit_next h with rfl | ⟨hsize, rfl⟩
    · exact bprInv.setErr hbpr (.inr (.inl rfl))
    · exact bprInv_openBpr hbpr hsize
  | bprReadbits nbits =>
    rcases execBprReadbits_next h with ⟨e, _, rfl⟩ | ⟨_, _, e, he, rfl⟩ | ⟨_, _, hn, hleft, u, hu, rfl⟩
    · exact hbpr
    · exact bprInv.setErr hbpr (.inr he)
    · have room : nbits.toNat + 8 * s.bpr.pos.toNat ≤ 8 * s.bpr.ilen.toNat + s.bpr.cnt.toNat := by
        unfold bitsLeft at hleft
        omega
      obtain ⟨hinv, hge⟩ := refill_keepsInv hbuf hbpr hn room hu
      exact dropBits_keepsInv hinv hge
  | _ => cases hi

/-! ### PMEM -/

theorem mapPixels_memoryOk {c : Config} {f : Pixel → Pixel} {n src dst : Nat} {m m' : Memory 32}
    (h : memoryOk m c.pmemWords) (hm : mapPixels c f n src dst m = .ok m') : memoryOk m' c.pmemWords := by
  induction n generalizing src dst m with
  | zero => cases hm; exact h
  | succ n ih =>
    obtain ⟨p, _, h2⟩ := bind_ok_iff.1 hm
    obtain ⟨m1, hw, h4⟩ := bind_ok_iff.1 h2
    obtain ⟨hlt, rfl⟩ := memWrite_ok_iff.1 hw
    exact ih (memoryOk_write _ h hlt) h4

theorem execCdt_keepsPmem {i : Instr} {s t : State} (hi : unitOf i = .cdt) (hs : memoryOk s.pmem s.cfg.pmemWords)
    (h : exec i s = .next t) : memoryOk t.pmem s.cfg.pmemWords := by
  cases i with
  | subg addr count | addg addr count | ctFwd addr count =>
    rcases mapRange_next h with ⟨_, rfl⟩ | ⟨m, _, hm, rfl⟩
    · exact hs
    · exact mapPixels_memoryOk hs hm
  | ctSetm g2r g2b r2b =>
    obtain rfl := respond_next h
    exact hs
  | ctInv src dst count =>
    rcases execCtInv_next h with ⟨_, rfl⟩ | ⟨m, _, _, hm, rfl⟩
    · exact hs
    · exact mapPixels_memoryOk hs hm
  | _ => cases hi

/-! ### The machine -/

/-- Every command keeps the invariant: its own unit by the unit's lemma, the other units because it leaves them alone. -/
theorem exec_keepsInv {i : Instr} {s t : State} (hs : s.Inv) (h : exec i s = .next t) : t.Inv := by
  have ⟨hcfg, hrce, hrcd, hbpw, hbpr, hpmem, _⟩ := hs
  obtain ⟨frce, frcd, fbpw, fbpr, fcdt⟩ := (commandWritesOnlyItsUnit i s t h).others
  obtain ⟨w, hw, hok⟩ := exec_ports h
  unfold State.Inv
  rw [exec_cfg h, hw]
  refine ⟨hcfg, ?_, ?_, ?_, ?_, ?_, hok⟩
  · by_cases hi : unitOf i = .rce
    · exact execRce_keepsInv hi hs h
    · exact frce hi ▸ hrce
  · by_cases hi : unitOf i = .rcd
    · exact execRcd_keepsInv hi hs h
    · exact frcd hi ▸ hrcd
  · by_cases hi : unitOf i = .bpw
    · exact execBpw_keepsInv hi hs h
    · exact fbpw hi ▸ hbpw
  · by_cases hi : unitOf i = .bpr
    · exact execBpr_keepsInv hi hs h
    · exact fbpr hi ▸ hbpr
  · by_cases hi : unitOf i = .cdt
    · exact execCdt_keepsPmem hi hpmem h
    · exact (fcdt hi).2 ▸ hpmem

/-- A step waits, executes an instruction, or answers ILLEGAL (R90, R106, R295). -/
theorem step_cases (s : State) : step s = .next s ∨ (∃ i, step s = exec i s) ∨ step s = .next (s.answer .illegal 0) := by
  cases hp : presented s with
  | none => exact .inl (by simp only [step, hp])
  | some w =>
    cases hd : decode w with
    | some i => exact .inr (.inl ⟨i, by simp only [step, hp, hd]⟩)
    | none => exact .inr (.inr (by simp only [step, hp, hd]; rfl))

/-- An illegal word writes no unit and no memory (R273). -/
theorem State.Inv.answerIllegal {s : State} (h : s.Inv) : (s.answer .illegal 0).Inv := by
  obtain ⟨hcfg, hrce, hrcd, hbpw, hbpr, hpmem, _⟩ := h
  exact ⟨hcfg, hrce, hrcd, hbpw, hbpr, hpmem, responseOk_responseWord _ _ fun _ => rfl⟩

/-- Settles O10: a step waits, executes a command, which keeps the invariant unit by unit, or answers ILLEGAL. -/
theorem stepKeepsInvariant : Obligations.StepKeepsInvariant := by
  intro s t hs h
  rcases step_cases s with hw | ⟨i, hx⟩ | hl
  · cases hw.symm.trans h
    exact hs
  · exact exec_keepsInv hs (hx.symm.trans h)
  · cases hl.symm.trans h
    exact hs.answerIllegal

end Sys2Proof.Machine
end

section
/-!
SUPPORT. The control registers are written only by their own commands (spec/10_state.md R21, R22, R30, R35, R40, R45, R47);
what the host may read of an output buffer (spec/20_memory.md R64); reset (spec/10_state.md R56).
-/
namespace Sys2Proof.Machine

/-! ### Control registers -/

/-- The encoder's part: R21, R22, R30. -/
theorem rce_control {i : Instr} {s t : State} (h : exec i s = .next t) :
    (t.rce.st ≠ s.rce.st → (∃ cap, i = .rceInit cap) ∨ i = .rceFinish ∨ i = .rceAbort) ∧
    (s.rce.err ≠ .ok → t.rce.err ≠ s.rce.err → (∃ cap, i = .rceInit cap) ∨ i = .rceAbort) ∧
    (t.rce.ocap ≠ s.rce.ocap → ∃ cap, i = .rceInit cap) := by
  obtain ⟨frce, _⟩ := (commandWritesOnlyItsUnit i s t h).others
  cases i with
  | rceInit cap => exact ⟨fun _ => .inl ⟨cap, rfl⟩, fun _ _ => .inl ⟨cap, rfl⟩, fun _ => ⟨cap, rfl⟩⟩
  | rcePutbit bit prob =>
    rcases execRcePutbit_next h with ⟨e, _, rfl⟩ | ⟨_, he, _, rfl⟩ | ⟨_, he, rfl⟩ | ⟨_, _, _, _, _, u, hu, rfl⟩
    · simp
    · simp [he]
    · simp [he]
    · obtain ⟨hst, herr, hcap, _⟩ := codeBit_frame hu
      simp [hst, herr, hcap]
  | rceFinish =>
    rcases execRceFinish_next h with ⟨_, rfl⟩ | ⟨_, _, u, hu, rfl⟩ | ⟨_, _, rfl⟩
    · simp
    · obtain ⟨_, herr, _, _, _, hcap, _⟩ := finishStream_frame hu
      simp [herr, hcap]
    · simp
  | rceAbort => rcases execRceAbort_next h with ⟨_, rfl⟩ | ⟨_, rfl⟩ <;> simp
  | _ => simp [frce nofun]

/-- The decoder's part: R21, R22, R35. -/
theorem rcd_control {i : Instr} {s t : State} (h : exec i s = .next t) :
    (t.rcd.st ≠ s.rcd.st → ∃ len, i = .rcdInit len) ∧
    (s.rcd.err ≠ .ok → t.rcd.err ≠ s.rcd.err → ∃ len, i = .rcdInit len) ∧
    (t.rcd.ilen ≠ s.rcd.ilen → ∃ len, i = .rcdInit len) := by
  obtain ⟨_, frcd, _⟩ := (commandWritesOnlyItsUnit i s t h).others
  cases i with
  | rcdInit len => exact ⟨fun _ => ⟨len, rfl⟩, fun _ _ => ⟨len, rfl⟩, fun _ => ⟨len, rfl⟩⟩
  | rcdGetbit prob =>
    rcases execRcdGetbit_next h with ⟨e, _, rfl⟩ | ⟨_, ho, e, _, rfl⟩ | ⟨_, _, _, _, b, v, r, u, _, _, hu, rfl⟩
    · simp
    · simp [ho]
    · obtain ⟨hst, herr, hlen, _⟩ := decodeBit_frame hu
      simp [hst, herr, hlen]
  | _ => simp [frcd nofun]

/-- The writer's part: R21, R22, R40. -/
theorem bpw_control {i : Instr} {s t : State} (h : exec i s = .next t) :
    (t.bpw.st ≠ s.bpw.st → (∃ cap, i = .bpwInit cap) ∨ i = .bpwFinish ∨ i = .bpwAbort) ∧
    (s.bpw.err ≠ .ok → t.bpw.err ≠ s.bpw.err → (∃ cap, i = .bpwInit cap) ∨ i = .bpwAbort) ∧
    (t.bpw.ocap ≠ s.bpw.ocap → ∃ cap, i = .bpwInit cap) := by
  obtain ⟨_, _, fbpw, _⟩ := (commandWritesOnlyItsUnit i s t h).others
  cases i with
  | bpwInit cap => exact ⟨fun _ => .inl ⟨cap, rfl⟩, fun _ _ => .inl ⟨cap, rfl⟩, fun _ => ⟨cap, rfl⟩⟩
  | bpwPutbits value nbits =>
    rcases execBpwPutbits_next h with ⟨e, _, rfl⟩ | ⟨_, ho, e, _, rfl⟩ | ⟨_, _, _, _, u, hu, rfl⟩
    · simp
    · simp [ho]
    · have f := packBits_frame hu
      simp [f.st, f.err, f.ocap]
  | bpwFinish =>
    rcases execBpwFinish_next h with ⟨_, rfl⟩ | ⟨_, _, u, hu, rfl⟩ | ⟨_, _, rfl⟩
    · simp
    · obtain ⟨_, herr, hcap, _⟩ := finishPack_frame hu
      simp [herr, hcap]
    · simp
  | bpwAbort => rcases execBpwAbort_next h with ⟨_, rfl⟩ | ⟨_, rfl⟩ <;> simp
  | _ => simp [fbpw nofun]

/-- The reader's part: R21, R22, R45. -/
theorem bpr_control {i : Instr} {s t : State} (h : exec i s = .next t) :
    (t.bpr.st ≠ s.bpr.st → ∃ len, i = .bprInit len) ∧
    (s.bpr.err ≠ .ok → t.bpr.err ≠ s.bpr.err → ∃ len, i = .bprInit len) ∧
    (t.bpr.ilen ≠ s.bpr.ilen → ∃ len, i = .bprInit len) := by
  obtain ⟨_, _, _, fbpr, _⟩ := (commandWritesOnlyItsUnit i s t h).others
  cases i with
  | bprInit len => exact ⟨fun _ => ⟨len, rfl⟩, fun _ _ => ⟨len, rfl⟩, fun _ => ⟨len, rfl⟩⟩
  | bprReadbits nbits =>
    rcases execBprReadbits_next h with ⟨e, _, rfl⟩ | ⟨_, ho, e, _, rfl⟩ | ⟨_, _, _, _, u, hu, rfl⟩
    · simp
    · simp [ho]
    · obtain ⟨hst, herr, hlen, _⟩ := refill_frame hu
      simp [dropBits, hst, herr, hlen]
  | _ => simp [fbpr nofun]

/-- The colour transform's part: R47. -/
theorem mult_control {i : Instr} {s t : State} (h : exec i s = .next t) (hm : t.mult ≠ s.mult) :
    ∃ g2r g2b r2b, i = .ctSetm g2r g2b r2b := by
  obtain ⟨_, _, _, _, fcdt⟩ := (commandWritesOnlyItsUnit i s t h).others
  cases i with
  | subg addr count | addg addr count | ctFwd addr count =>
    rcases mapRange_next h with ⟨_, rfl⟩ | ⟨m, _, _, rfl⟩ <;> exact absurd rfl hm
  | ctSetm g2r g2b r2b => exact ⟨g2r, g2b, r2b, rfl⟩
  | ctInv src dst count => rcases execCtInv_next h with ⟨_, rfl⟩ | ⟨m, _, _, _, rfl⟩ <;> exact absurd rfl hm
  | _ => exact absurd (fcdt nofun).1 hm

/-- Settles O17: each unit's registers change only by its own commands, and of these the unit's lemma says which. -/
theorem controlRegistersWrittenOnlyByTheirCommands : Obligations.ControlRegistersWrittenOnlyByTheirCommands := by
  intro i s t h
  obtain ⟨hRceSt, hRceErr, hRceCap⟩ := rce_control h
  obtain ⟨hRcdSt, hRcdErr, hRcdLen⟩ := rcd_control h
  obtain ⟨hBpwSt, hBpwErr, hBpwCap⟩ := bpw_control h
  obtain ⟨hBprSt, hBprErr, hBprLen⟩ := bpr_control h
  exact ⟨hRceSt, hRcdSt, hBpwSt, hBprSt, hRceErr, hRcdErr, hBpwErr, hBprErr, hRceCap, hRcdLen, hBpwCap, hBprLen, mult_control h⟩

/-! ### What the host reads -/

/-- Inside the window of R64 the host reads exactly the bytes below `OLEN`. -/
theorem hostReadRceObuf_isSome_iff {s : State} (hn : noCommand s = true) (hst : s.rce.st = .idle) (herr : s.rce.err = .ok)
    (hs : storedBelow s.rce.obuf s.rce.olen.toNat) (a : Nat) : (hostReadRceObuf s a).isSome ↔ a < s.rce.olen.toNat := by
  simp only [hostReadRceObuf, hn, hst, herr]
  by_cases ha : a < s.rce.olen.toNat
  · simp [ha, hs a ha]
  · simp [ha]

theorem hostReadBpwObuf_isSome_iff {s : State} (hn : noCommand s = true) (hst : s.bpw.st = .idle) (herr : s.bpw.err = .ok)
    (hs : storedBelow s.bpw.obuf s.bpw.olen.toNat) (a : Nat) : (hostReadBpwObuf s a).isSome ↔ a < s.bpw.olen.toNat := by
  simp only [hostReadBpwObuf, hn, hst, herr]
  by_cases ha : a < s.bpw.olen.toNat
  · simp [ha, hs a ha]
  · simp [ha]

/-- In a session, and where the stream has no byte, the host reads nothing of `RCE.OBUF`. -/
theorem hostReadRceObuf_eq_none {s : State} (h : s.rce.st = .active ∨ s.rce.olen = 0) (a : Nat) :
    hostReadRceObuf s a = none := by
  rcases h with h | h <;> simp [hostReadRceObuf, h]

theorem hostReadBpwObuf_eq_none {s : State} (h : s.bpw.st = .active ∨ s.bpw.olen = 0) (a : Nat) :
    hostReadBpwObuf s a = none := by
  rcases h with h | h <;> simp [hostReadBpwObuf, h]

/-- An OK FINISH of the encoder opens the window (R134). -/
theorem rceFinish_opens {s t : State} (h : exec .rceFinish s = .next t) (ha : answeredWith t .ok) :
    t.rce.st = .idle ∧ t.rce.err = .ok := by
  rcases execRceFinish_next h with ⟨_, rfl⟩ | ⟨_, he, u, hu, rfl⟩ | ⟨_, he, rfl⟩
  · exact absurd (answeredWith_answer_iff.1 ha) (by decide)
  · obtain ⟨hst, herr, _⟩ := finishStream_frame hu
    exact ⟨hst, herr.trans he⟩
  · exact absurd (answeredWith_answer_iff.1 ha).symm he

/-- An OK FINISH of the writer opens the window (R165). -/
theorem bpwFinish_opens {s t : State} (h : exec .bpwFinish s = .next t) (ha : answeredWith t .ok) :
    t.bpw.st = .idle ∧ t.bpw.err = .ok := by
  rcases execBpwFinish_next h with ⟨_, rfl⟩ | ⟨_, he, u, hu, rfl⟩ | ⟨_, he, rfl⟩
  · exact absurd (answeredWith_answer_iff.1 ha) (by decide)
  · obtain ⟨hst, herr, _⟩ := finishPack_frame hu
    exact ⟨hst, herr.trans he⟩
  · exact absurd (answeredWith_answer_iff.1 ha).symm he

/-- A failed FINISH of an open encoder session, and ABORT, leave no byte (R134, R135). -/
theorem rce_discards {s t : State} {e : Status} (he : e ≠ .ok) (hst : s.rce.st = .active)
    (h : (exec .rceFinish s = .next t ∧ answeredWith t e) ∨ exec .rceAbort s = .next t) : t.rce.olen = 0 := by
  rcases h with ⟨h, ha⟩ | h
  · rcases execRceFinish_next h with ⟨hi, _⟩ | ⟨_, _, u, _, rfl⟩ | ⟨_, _, rfl⟩
    · exact nomatch hi.symm.trans hst
    · exact absurd (answeredWith_answer_iff.1 ha) he
    · rfl
  · rcases execRceAbort_next h with ⟨hi, _⟩ | ⟨_, rfl⟩
    · exact nomatch hi.symm.trans hst
    · rfl

/-- A failed FINISH of an open writer session, and ABORT, leave no byte (R165, R166). -/
theorem bpw_discards {s t : State} {e : Status} (he : e ≠ .ok) (hst : s.bpw.st = .active)
    (h : (exec .bpwFinish s = .next t ∧ answeredWith t e) ∨ exec .bpwAbort s = .next t) : t.bpw.olen = 0 := by
  rcases h with ⟨h, ha⟩ | h
  · rcases execBpwFinish_next h with ⟨hi, _⟩ | ⟨_, _, u, _, rfl⟩ | ⟨_, _, rfl⟩
    · exact nomatch hi.symm.trans hst
    · exact absurd (answeredWith_answer_iff.1 ha) he
    · rfl
  · rcases execBpwAbort_next h with ⟨hi, _⟩ | ⟨_, rfl⟩
    · exact nomatch hi.symm.trans hst
    · rfl

/-- Settles O58: the invariant stores the bytes below `OLEN`; a discarded stream has `OLEN` 0; an open session is not IDLE. -/
theorem hostReadsOnlyFinishedStreams : Obligations.HostReadsOnlyFinishedStreams := by
  refine ⟨fun s t hs h ha a => ?_, fun s t hs h ha a => ?_, fun s t e he hst h => ?_, fun s t e he hst h => ?_, fun s => ?_⟩
  · obtain ⟨hidle, herr⟩ := rceFinish_opens h ha
    obtain ⟨_, ⟨_, hstored, _⟩, _⟩ := exec_keepsInv hs h
    exact hostReadRceObuf_isSome_iff (s := { t with ports := .idle }) rfl hidle herr hstored a
  · obtain ⟨hidle, herr⟩ := bpwFinish_opens h ha
    obtain ⟨_, _, _, ⟨_, hstored, _⟩, _⟩ := exec_keepsInv hs h
    exact hostReadBpwObuf_isSome_iff (s := { t with ports := .idle }) rfl hidle herr hstored a
  · exact hostReadRceObuf_eq_none (.inr (rce_discards he hst h))
  · exact hostReadBpwObuf_eq_none (.inr (bpw_discards he hst h))
  · exact ⟨fun hst => hostReadRceObuf_eq_none (.inl hst), fun hst => hostReadBpwObuf_eq_none (.inl hst)⟩

/-! ### Reset -/

/-- Settles O8: reset is the reset state of the same sizes, field by field; a memory without a unit reads nowhere. -/
theorem resetLeavesEveryRegisterZero : Obligations.ResetLeavesEveryRegisterZero := by
  refine ⟨fun s => ⟨?rce, ?rcd, ?bpw, ?bpr, rfl, rfl, fun a => ?mem⟩, rfl⟩
  case rce => exact ⟨rfl, rfl, rfl, rfl, rfl, rfl, rfl, rfl, rfl, rfl, rfl⟩
  case rcd => exact ⟨rfl, rfl, rfl, rfl, rfl, rfl⟩
  case bpw => exact ⟨rfl, rfl, rfl, rfl, rfl, rfl⟩
  case bpr => exact ⟨rfl, rfl, rfl, rfl, rfl, rfl⟩
  case mem => exact ⟨rfl, rfl, rfl, rfl, rfl⟩

end Sys2Proof.Machine
end

section
/-!
SUPPORT. What core and host reach from reset is safe (spec/70_reset_and_hazards.md R322, R323): under the invariant a command is
answered or stops at memory nothing has written, and the host's moves keep the invariant (spec/20_memory.md R64).
-/
namespace Sys2Proof.Machine

/-! ### The first failing check -/

/-- The code of the first check of a list that fails. -/
def firstOf (ks : List (Bool × Status)) : Option Status := (ks.find? fun k => k.1).map fun k => k.2

theorem firstError_eq_firstOf (s : State) (i : Instr) : firstError s i = firstOf (errorChecks s i) := rfl

theorem firstOf_nil : firstOf [] = none := rfl

theorem firstOf_cons (b : Bool) (e : Status) (ks : List (Bool × Status)) :
    firstOf ((b, e) :: ks) = if b = true then some e else firstOf ks := by
  cases b <;> rfl

/-- The first two checks of a data command and of FINISH are the gate (R276, R278). -/
theorem firstOf_gate (st : Lifecycle) (err : Status) (ks : List (Bool × Status)) :
    firstOf ((st == .idle, .state) :: (err != .ok, err) :: ks) = (dataGate st err).or (firstOf ks) := by
  simp only [firstOf_cons, dataGate, beq_iff_eq, bne_iff_ne]
  split_ifs <;> simp_all

/-- The report of a failing check: its code, after the writes R280 lists. -/
def reports (s : State) (i : Instr) (e : Status) : Prop := exec i s = .next ((failureWrites s e i).answer e 0)

theorem execRce_reports {i : Instr} {s : State} {e : Status} (hi : unitOf i = .rce) (hs : s.Inv)
    (h : firstError s i = some e) : reports s i e := by
  obtain ⟨_, hrce, _⟩ := hs
  unfold reports
  rw [firstError_eq_firstOf] at h
  cases i with
  | rceInit cap =>
    simp only [errorChecks, firstOf_cons, firstOf_nil, beq_iff_eq, Bool.or_eq_true, decide_eq_true_eq] at h
    split_ifs at h with hst hcap <;> cases h
    · simp only [exec, execRceInit, if_pos hst]
      rfl
    · have hcap' : ¬ (1 ≤ cap.toNat ∧ cap.toNat ≤ s.cfg.bufBytes) := by omega
      simp only [exec, execRceInit, if_neg hst, if_neg hcap']
      rfl
  | rcePutbit bit prob =>
    simp only [errorChecks, firstOf_gate] at h
    cases hg : dataGate s.rce.st s.rce.err with
    | some e' =>
      rw [hg] at h
      cases h
      simp only [exec, execRcePutbit, hg, failureWrites, if_neg (not_open_of_dataGate hg)]
      rfl
    | none =>
      have hopen := dataGate_none hg
      obtain ⟨hrange, _⟩ := rceInv.openInv hrce (by simp [hopen.1])
      simp only [hg, Option.none_or, firstOf_cons, firstOf_nil, beq_iff_eq, decide_eq_true_eq,
        ← chooseInterval_range_eq s.rce.range s.rce.low] at h
      split_ifs at h with hp hroom <;> cases h
      · simp only [exec, execRcePutbit, hg, if_pos hp, failureWrites, if_pos hopen]
        rfl
      · have hroom' : ¬ s.rce.bitpos.toNat + nshift (chooseInterval s.rce.range s.rce.low bit prob).range + 8 ≤
            8 * s.rce.ocap.toNat := by omega
        simp only [exec, execRcePutbit, hg, if_neg hp, if_neg (not_lt.2 hrange), if_neg hroom', failureWrites, if_pos hopen]
        rfl
  | rceFinish =>
    simp only [errorChecks, firstOf_cons, firstOf_nil, beq_iff_eq, bne_iff_ne] at h
    split_ifs at h with hst herr <;> cases h
    · simp only [exec, execRceFinish, failureWrites, hst]
      rfl
    · simp only [exec, execRceFinish, if_neg hst, if_neg herr, failureWrites, if_pos (Lifecycle.active_of_ne hst)]
      rfl
  | rceAbort =>
    simp only [errorChecks, firstOf_cons, firstOf_nil, beq_iff_eq] at h
    split_ifs at h with hst
    cases h
    simp only [exec, execRceAbort, if_pos hst]
    rfl
  | _ => cases hi

theorem execRcd_reports {i : Instr} {s : State} {e : Status} (hi : unitOf i = .rcd) (hs : s.Inv)
    (h : firstError s i = some e) : reports s i e := by
  obtain ⟨⟨hbuf, _⟩, _, hrcd, _⟩ := hs
  unfold reports
  rw [firstError_eq_firstOf] at h
  cases i with
  | rcdInit len =>
    simp only [errorChecks, firstOf_cons, firstOf_nil, beq_iff_eq, decide_eq_true_eq] at h
    split_ifs at h with hsize hlen hfirst <;> cases h
    · simp only [exec, execRcdInit, if_pos hsize]
      rfl
    · simp only [exec, execRcdInit, if_neg hsize, if_pos hlen]
      rfl
    · have hread : memRead s.cfg .rcdIbuf s.rcd.ibuf 0 = .ok 0xFF := memRead_ok_iff.2 ⟨hbuf, hfirst⟩
      simp only [exec, execRcdInit, if_neg hsize, if_neg hlen, hread, orFault_ok, if_true]
      rfl
  | rcdGetbit prob =>
    simp only [errorChecks, firstOf_gate] at h
    cases hg : dataGate s.rcd.st s.rcd.err with
    | some e' =>
      rw [hg] at h
      cases h
      simp only [exec, execRcdGetbit, hg, failureWrites, if_neg (not_open_of_dataGate hg)]
      rfl
    | none =>
      have hopen := dataGate_none hg
      obtain ⟨hrange, _⟩ := rcdInv.openInv hrcd (by simp [hopen.1])
      simp only [hg, Option.none_or, firstOf_cons, firstOf_nil, beq_iff_eq, decide_eq_true_eq, ← decideBit_range_eq] at h
      split_ifs at h with hp hroom <;> cases h
      · simp only [exec, execRcdGetbit, hg, if_pos hp, failureWrites, if_pos hopen]
        rfl
      · simp only [exec, execRcdGetbit, hg, if_neg hp, if_neg (not_lt.2 hrange), if_neg (not_le.2 hroom), failureWrites,
          if_pos hopen]
        rfl
  | _ => cases hi

theorem execBpw_reports {i : Instr} {s : State} {e : Status} (hi : unitOf i = .bpw) (h : firstError s i = some e) :
    reports s i e := by
  unfold reports
  rw [firstError_eq_firstOf] at h
  cases i with
  | bpwInit cap =>
    simp only [errorChecks, firstOf_cons, firstOf_nil, beq_iff_eq, decide_eq_true_eq] at h
    split_ifs at h with hst hsize <;> cases h
    · simp only [exec, execBpwInit, if_pos hst]
      rfl
    · simp only [exec, execBpwInit, if_neg hst, if_neg (not_le.2 hsize)]
      rfl
  | bpwPutbits value nbits =>
    simp only [errorChecks, firstOf_gate] at h
    cases hg : dataGate s.bpw.st s.bpw.err with
    | some e' =>
      rw [hg] at h
      cases h
      simp only [exec, execBpwPutbits, hg, failureWrites, if_neg (not_open_of_dataGate hg)]
      rfl
    | none =>
      have hopen := dataGate_none hg
      simp only [hg, Option.none_or, firstOf_cons, firstOf_nil, decide_eq_true_eq] at h
      split_ifs at h with hn hroom <;> cases h
      · simp only [exec, execBpwPutbits, hg, if_pos (show maxNbits < nbits.toNat from hn), failureWrites, if_pos hopen]
        rfl
      · simp only [exec, execBpwPutbits, maxNbits, hg, if_neg hn, if_neg (not_le.2 hroom), failureWrites, if_pos hopen]
        rfl
  | bpwFinish =>
    simp only [errorChecks, firstOf_cons, firstOf_nil, beq_iff_eq, bne_iff_ne] at h
    split_ifs at h with hst herr <;> cases h
    · simp only [exec, execBpwFinish, failureWrites, hst]
      rfl
    · simp only [exec, execBpwFinish, if_neg hst, if_neg herr, failureWrites, if_pos (Lifecycle.active_of_ne hst)]
      rfl
  | bpwAbort =>
    simp only [errorChecks, firstOf_cons, firstOf_nil, beq_iff_eq] at h
    split_ifs at h with hst
    cases h
    simp only [exec, execBpwAbort, if_pos hst]
    rfl
  | _ => cases hi

theorem execBpr_reports {i : Instr} {s : State} {e : Status} (hi : unitOf i = .bpr) (h : firstError s i = some e) :
    reports s i e := by
  unfold reports
  rw [firstError_eq_firstOf] at h
  cases i with
  | bprInit len =>
    simp only [errorChecks, firstOf_cons, firstOf_nil, decide_eq_true_eq] at h
    split_ifs at h with hsize
    cases h
    simp only [exec, execBprInit, if_neg (not_le.2 hsize)]
    rfl
  | bprReadbits nbits =>
    simp only [errorChecks, firstOf_gate] at h
    cases hg : dataGate s.bpr.st s.bpr.err with
    | some e' =>
      rw [hg] at h
      cases h
      simp only [exec, execBprReadbits, hg, failureWrites, if_neg (not_open_of_dataGate hg)]
      rfl
    | none =>
      have hopen := dataGate_none hg
      simp only [hg, Option.none_or, firstOf_cons, firstOf_nil, decide_eq_true_eq] at h
      split_ifs at h with hn hroom <;> cases h
      · simp only [exec, execBprReadbits, hg, if_pos (show maxNbits < nbits.toNat from hn), failureWrites, if_pos hopen]
        rfl
      · have hleft : ¬ (nbits.toNat : Int) ≤ bitsLeft s.bpr := by unfold bitsLeft; omega
        simp only [exec, execBprReadbits, maxNbits, hg, if_neg hn, if_neg hleft, failureWrites, if_pos hopen]
        rfl
  | _ => cases hi

theorem topInPmem_eq_false {c : Config} {top : BitVec 16} (h : top.toNat = 0 ∨ c.pmemWords < top.toNat + 2) :
    topInPmem c top = false := decide_eq_false (by omega)

theorem rangeInPmem_eq_false {c : Config} {addr count : BitVec 16} (h : c.pmemWords < addr.toNat + count.toNat) :
    rangeInPmem c addr count = false := decide_eq_false (by omega)

theorem execPpb_reports {i : Instr} {s : State} {e : Status} (hi : unitOf i = .ppb) (h : firstError s i = some e) :
    reports s i e := by
  obtain ⟨f, top, left, hp⟩ := exists_isPredictor hi
  unfold reports
  rw [firstError_eq_firstOf, hp.checks] at h
  simp only [firstOf_cons, firstOf_nil, beq_iff_eq, Bool.or_eq_true, decide_eq_true_eq] at h
  split_ifs at h with htop
  cases h
  rw [hp.eq_predict, hp.failure, predict, topInPmem_eq_false htop]
  rfl

/-- SUBG, ADDG and CT.FWD, through their template. -/
theorem mapRange_reports {f : Pixel → Pixel} {addr count : BitVec 16} {s : State} {e : Status}
    (h : firstOf [(decide (s.cfg.pmemWords < addr.toNat + count.toNat), .addr)] = some e) :
    mapRange f addr count s = .next (s.answer e 0) := by
  simp only [firstOf_cons, firstOf_nil, decide_eq_true_eq] at h
  split_ifs at h with hrange
  cases h
  rw [mapRange, rangeInPmem_eq_false hrange]
  rfl

theorem execCdt_reports {i : Instr} {s : State} {e : Status} (hi : unitOf i = .cdt) (h : firstError s i = some e) :
    reports s i e := by
  unfold reports
  rw [firstError_eq_firstOf] at h
  cases i with
  | subg addr count | addg addr count | ctFwd addr count => exact mapRange_reports h
  | ctSetm g2r g2b r2b => cases h
  | ctInv src dst count =>
    simp only [errorChecks, firstOf_cons, firstOf_nil, decide_eq_true_eq] at h
    split_ifs at h with hsrc hdst <;> cases h
    · simp only [exec, execCtInv, rangeInPmem_eq_false hsrc]
      rfl
    · simp only [exec, execCtInv, rangeInPmem_of_le (not_lt.1 hsrc), rangeInPmem_eq_false hdst]
      rfl
  | _ => cases hi

/-- A number RDSR's check stops is no register's number (R51, R260). -/
theorem execRdsr_reports {sr : BitVec 8} {s : State} {e : Status} (h : firstError s (.rdsr sr) = some e) :
    reports s (.rdsr sr) e := by
  unfold reports
  rw [firstError_eq_firstOf] at h
  simp only [errorChecks, firstOf_cons, firstOf_nil] at h
  split_ifs at h with hsr
  cases h
  have hnone : statusRegOf sr = none := by
    simp only [Bool.not_eq_true', List.contains_eq_mem, decide_eq_false_iff_not, List.mem_cons, List.not_mem_nil,
      not_or] at hsr
    simp only [statusRegOf, hsr, if_false]
  simp only [exec, execRdsr, hnone]
  rfl

/-- Under the invariant a command whose first failing check has a code answers that code (R280, R281). -/
theorem exec_reports {i : Instr} {s : State} {e : Status} (hs : s.Inv) (h : firstError s i = some e) : reports s i e := by
  cases hi : unitOf i with
  | rce => exact execRce_reports hi hs h
  | rcd => exact execRcd_reports hi hs h
  | bpw => exact execBpw_reports hi h
  | bpr => exact execBpr_reports hi h
  | ppb => exact execPpb_reports hi h
  | cdt => exact execCdt_reports hi h
  | system =>
    cases i with
    | rdsr sr => exact execRdsr_reports h
    | _ => cases hi

/-! ### What stops a step -/

/-- Answered, or stopped at memory nothing has written. -/
def answeredOrUnwritten (r : Result) : Prop := (∃ t, r = .next t) ∨ ∃ f, r = .fault f ∧ f.isUnwrittenRead = true

theorem answeredOrUnwritten.not_refused {r : Result} (h : answeredOrUnwritten r) (x : Refusal) : r ≠ .refused x := by
  rcases h with ⟨t, rfl⟩ | ⟨f, rfl, _⟩ <;> nofun

theorem answeredOrUnwritten.isUnwrittenRead {r : Result} {f : Fault} (h : answeredOrUnwritten r) (hf : r = .fault f) :
    f.isUnwrittenRead = true := by
  rcases h with ⟨t, rfl⟩ | ⟨f', rfl, hu⟩
  · cases hf
  · cases hf
    exact hu

/-- A failing check is answered; with none failing the command is answered OK or stops at memory nothing has written. -/
theorem exec_answeredOrUnwritten {s : State} (hs : s.Inv) (i : Instr) : answeredOrUnwritten (exec i s) := by
  cases h : firstError s i with
  | some e => exact .inl ⟨_, exec_reports hs h⟩
  | none =>
    rcases noFailingCheckMeansOk i s hs h with ⟨t, ht, _⟩ | hf
    · exact .inl ⟨t, ht⟩
    · exact .inr hf

theorem step_answeredOrUnwritten {s : State} (hs : s.Inv) : answeredOrUnwritten (step s) := by
  rcases step_cases s with hw | ⟨i, hx⟩ | hl
  · exact .inl ⟨_, hw⟩
  · exact hx ▸ exec_answeredOrUnwritten hs i
  · exact .inl ⟨_, hl⟩

theorem step_cfg {s t : State} (h : step s = .next t) : t.cfg = s.cfg := by
  rcases step_cases s with hw | ⟨i, hx⟩ | hl
  · cases hw.symm.trans h
    rfl
  · exact exec_cfg (hx.symm.trans h)
  · cases hl.symm.trans h
    rfl

/-! ### The host's moves -/

/-- The invariant leaves the ports free but for the form of a response. -/
theorem State.Inv.withPorts {s : State} (h : s.Inv) {p : Ports} (hp : portsOk p) : State.Inv { s with ports := p } := by
  obtain ⟨hcfg, hrce, hrcd, hbpw, hbpr, hpmem, _⟩ := h
  exact ⟨hcfg, hrce, hrcd, hbpw, hbpr, hpmem, hp⟩

theorem State.Inv.writeRcdIbuf {s : State} (h : s.Inv) {a : Nat} (ha : a < s.cfg.sizeOf .rcdIbuf) (b : Byte) :
    (s.setRcd { s.rcd with ibuf := s.rcd.ibuf.write a b }).Inv := by
  obtain ⟨hcfg, hrce, ⟨hmem, hregs⟩, hbpw, hbpr, hpmem, hports⟩ := h
  exact ⟨hcfg, hrce, ⟨memoryOk_write b hmem ha, hregs⟩, hbpw, hbpr, hpmem, hports⟩

theorem State.Inv.writeBprIbuf {s : State} (h : s.Inv) {a : Nat} (ha : a < s.cfg.sizeOf .bprIbuf) (b : Byte) :
    (s.setBpr { s.bpr with ibuf := s.bpr.ibuf.write a b }).Inv := by
  obtain ⟨hcfg, hrce, hrcd, hbpw, ⟨hmem, hregs⟩, hpmem, hports⟩ := h
  exact ⟨hcfg, hrce, hrcd, hbpw, ⟨memoryOk_write b hmem ha, hregs⟩, hpmem, hports⟩

theorem State.Inv.writePmem {s : State} (h : s.Inv) {a : Nat} (ha : a < s.cfg.sizeOf .pmem) (p : Pixel) :
    (s.setPmem (s.pmem.write a p)).Inv := by
  obtain ⟨hcfg, hrce, hrcd, hbpw, hbpr, hmem, hports⟩ := h
  exact ⟨hcfg, hrce, hrcd, hbpw, hbpr, memoryOk_write p hmem ha, hports⟩

theorem State.Inv.assertReset {s : State} (h : s.Inv) : s.assertReset.Inv := by
  obtain ⟨hcfg, _⟩ := h
  exact resetMeetsInvariant.1 s.cfg hcfg

/-- A move of the host writes the ports, one unit of a memory inside its space, or resets the core of the same sizes. -/
theorem hostMove_keepsInv {h h' : Hosted} {m : HostMove} (hs : h.core.Inv) (hm : hostMove h m = some h') :
    h'.core.Inv ∧ h'.core.cfg = h.core.cfg := by
  cases m with
  | issue w =>
    simp only [hostMove, hostIssue] at hm
    split at hm <;> cases hm
    exact ⟨hs.withPorts trivial, rfl⟩
  | takeResponse =>
    simp only [hostMove, hostTake] at hm
    split at hm <;> cases hm
    exact ⟨hs.withPorts trivial, rfl⟩
  | writeRcdIbuf addr b =>
    simp only [hostMove, hostWriteRcdIbuf] at hm
    split at hm <;> cases hm
    rename_i hg
    exact ⟨hs.writeRcdIbuf (of_decide_eq_true (Bool.and_eq_true_iff.1 hg).2) b, rfl⟩
  | writeBprIbuf addr b =>
    simp only [hostMove, hostWriteBprIbuf] at hm
    split at hm <;> cases hm
    rename_i hg
    exact ⟨hs.writeBprIbuf (of_decide_eq_true (Bool.and_eq_true_iff.1 hg).2) b, rfl⟩
  | writePmem addr p =>
    simp only [hostMove, hostWritePmem] at hm
    split at hm <;> cases hm
    rename_i hg
    exact ⟨hs.writePmem (of_decide_eq_true (Bool.and_eq_true_iff.1 hg).2) p, rfl⟩
  | reset =>
    cases hm
    exact ⟨hs.assertReset, rfl⟩

/-! ### Runs -/

/-- Every state of a run from reset meets the invariant and has the sizes it began with. -/
theorem Reachable.inv {c : Config} {h : Hosted} (hc : c.Legal) (hr : Reachable c h) : h.core.Inv ∧ h.core.cfg = c := by
  induction hr with
  | reset => exact ⟨resetMeetsInvariant.1 c hc, rfl⟩
  | step h s _ hstep ih =>
    obtain ⟨hinv, hcfg⟩ := ih
    exact ⟨stepKeepsInvariant _ _ hinv hstep, (step_cfg hstep).trans hcfg⟩
  | move h h' m _ hm ih =>
    obtain ⟨hinv, hcfg⟩ := ih
    obtain ⟨hinv', hcfg'⟩ := hostMove_keepsInv hinv hm
    exact ⟨hinv', hcfg'.trans hcfg⟩

/-- Settles O13: by induction on the run; under the invariant a step is answered or stops at memory nothing has written. -/
theorem reachableStatesAreSafe : Obligations.ReachableStatesAreSafe := by
  intro c h hc hr
  obtain ⟨hinv, hcfg⟩ := hr.inv hc
  have hstep := step_answeredOrUnwritten hinv
  exact ⟨hinv, hcfg, hstep.not_refused, fun _ hf => hstep.isUnwrittenRead hf⟩

end Sys2Proof.Machine
end

section
/-!
SUPPORT. Where a step stops: from a state that meets the invariant only at a byte of `RCD.IBUF` or `BPR.IBUF`, or a word of PMEM,
inside its space that nothing has written (spec/20_memory.md R63, R72).
-/
namespace Sys2Proof.Machine

/-! ### Operations that stop -/

theorem bind_error_iff {α β : Type} {x : Except Fault α} {g : α → Except Fault β} {f : Fault} :
    (x >>= g) = .error f ↔ x = .error f ∨ ∃ a, x = .ok a ∧ g a = .error f := by
  cases x <;> simp [bind, Except.bind]

theorem fit_error {w n : Nat} {f : Fault} (h : fit w n = .error f) : f = .doesNotFit := by
  unfold fit at h
  split at h <;> cases h
  rfl

/-- In every state: a read reported as unwritten is of the address asked for, inside the space, that nothing has written. -/
theorem memRead_unwritten {w : Nat} {c : Config} {sp sp' : Space} {m : Memory w} {a a' : Nat}
    (h : memRead c sp m a = .error (.unwrittenRead sp' a')) : sp' = sp ∧ a' < c.sizeOf sp ∧ m.read a' = none := by
  by_cases ha : a < c.sizeOf sp
  · obtain ⟨heq, hnone⟩ := memRead_error ha h
    cases heq
    exact ⟨rfl, ha, hnone⟩
  · rw [memRead, if_neg ha] at h
    cases h

theorem nextBit_ibuf {c : Config} {u u' : Rcd} {b : Bool} (h : nextBit c u = .ok (b, u')) : u'.ibuf = u.ibuf := by
  obtain ⟨byte, _, h2⟩ := bind_ok_iff.1 h
  obtain ⟨bitpos, _, h4⟩ := bind_ok_iff.1 h2
  cases h4
  rfl

theorem nextBit_unwritten {c : Config} {u : Rcd} {sp : Space} {a : Nat}
    (h : nextBit c u = .error (.unwrittenRead sp a)) : sp = .rcdIbuf ∧ a < c.bufBytes ∧ u.ibuf.read a = none := by
  rcases bind_error_iff.1 h with h1 | ⟨byte, _, h2⟩
  · exact memRead_unwritten h1
  · rcases bind_error_iff.1 h2 with h3 | ⟨bitpos, _, h4⟩
    · cases fit_error h3
    · cases h4

theorem pullBits_unwritten {c : Config} {n v : Nat} {u : Rcd} {sp : Space} {a : Nat}
    (h : pullBits c n v u = .error (.unwrittenRead sp a)) : sp = .rcdIbuf ∧ a < c.bufBytes ∧ u.ibuf.read a = none := by
  induction n generalizing v u with
  | zero => cases h
  | succ n ih =>
    rcases bind_error_iff.1 h with h1 | ⟨⟨b, u'⟩, h1, h2⟩
    · exact nextBit_unwritten h1
    · exact nextBit_ibuf h1 ▸ ih h2

/-- GETBIT reads no memory but `RCD.IBUF` (R141, R142). -/
theorem decodeBit_unwritten {c : Config} {v r : Nat} {u : Rcd} {sp : Space} {a : Nat}
    (h : decodeBit c v r u = .error (.unwrittenRead sp a)) : sp = .rcdIbuf ∧ a < c.bufBytes ∧ u.ibuf.read a = none := by
  rcases bind_error_iff.1 h with h1 | ⟨⟨v', u'⟩, _, h2⟩
  · exact pullBits_unwritten h1
  · rcases bind_error_iff.1 h2 with h3 | ⟨value, _, h4⟩
    · cases fit_error h3
    · rcases bind_error_iff.1 h4 with h5 | ⟨range, _, h6⟩
      · cases fit_error h5
      · cases h6

/-- READBITS reads no memory but `BPR.IBUF` (R171). -/
theorem refill_unwritten {c : Config} {nbits n : Nat} {u : Bpr} {sp : Space} {a : Nat}
    (h : refill c nbits n u = .error (.unwrittenRead sp a)) : sp = .bprIbuf ∧ a < c.bufBytes ∧ u.ibuf.read a = none := by
  induction n generalizing u with
  | zero => cases h
  | succ n ih =>
    rw [refill] at h
    split at h
    · rcases bind_error_iff.1 h with h1 | ⟨byte, _, h2⟩
      · exact memRead_unwritten h1
      · rcases bind_error_iff.1 h2 with h3 | ⟨pos, _, h4⟩
        · cases fit_error h3
        · have hrest := ih h4
          exact hrest
    · cases h

/-- A status register that is not read does not fit its 32 bits; no memory is read (R51). -/
theorem readStatus_error {s : State} {r : StatusReg} {f : Fault} (h : readStatus s r = .error f) : f = .doesNotFit := by
  cases r with
  | bpwPos => exact fit_error h
  | bprPos =>
    rw [readStatus] at h
    split at h
    · exact fit_error h
    · cases h
      rfl
  | _ => cases h

/-! ### How a command stops -/

/-- `orFault` stops with the operation's fault, or where the command goes on to stop. -/
theorem orFault_fault {α : Type} {r : Except Fault α} {k : α → Result} {f : Fault} (h : orFault r k = .fault f) :
    r = .error f ∨ ∃ a, r = .ok a ∧ k a = .fault f := by
  cases r with
  | ok a => exact .inr ⟨a, rfl, h⟩
  | error e => cases h; exact .inl rfl

/-- A command that answers with an operation's value stops only when the operation does. -/
theorem orFault_respond_fault {α : Type} {r : Except Fault α} {s : α → State} {v : α → Reg32} {f : Fault}
    (h : orFault r (fun a => (s a).respond (v a)) = .fault f) : r = .error f := by
  rcases orFault_fault h with hr | ⟨a, _, hk⟩
  · exact hr
  · cases hk

theorem execRcePutbit_fault {bit : Bool} {prob : BitVec 8} {s : State} {f : Fault} (h : execRcePutbit bit prob s = .fault f) :
    s.rce.st = .active ∧ (s.rce.range.toNat < 128 ∨
      s.rce.bitpos.toNat + nshift (chooseInterval s.rce.range s.rce.low bit prob).range + 8 ≤ 8 * s.rce.ocap.toNat ∧
        codeBit s.cfg (chooseInterval s.rce.range s.rce.low bit prob) s.rce = .error f) := by
  unfold execRcePutbit at h
  cases hg : dataGate s.rce.st s.rce.err with
  | some e => rw [hg] at h; cases h
  | none =>
    refine ⟨(dataGate_none hg).1, ?_⟩
    simp only [hg] at h
    split_ifs at h with hp hr hroom
    · cases h
    · exact .inl hr
    · exact .inr ⟨hroom, orFault_respond_fault h⟩
    · cases h

theorem execRceFinish_fault {s : State} {f : Fault} (h : execRceFinish s = .fault f) :
    s.rce.st ≠ .idle ∧ finishStream s.cfg s.rce = .error f := by
  unfold execRceFinish at h
  split_ifs at h with hst herr
  · cases h
  · exact ⟨hst, orFault_respond_fault h⟩
  · cases h

theorem execRcdInit_fault {len : BitVec 32} {s : State} {f : Fault} (h : execRcdInit len s = .fault f) :
    memRead s.cfg .rcdIbuf s.rcd.ibuf 0 = .error f := by
  unfold execRcdInit at h
  split_ifs at h with hsize hlen
  · cases h
  · cases h
  · rcases orFault_fault h with hr | ⟨v, _, hk⟩
    · exact hr
    · split_ifs at hk <;> cases hk

theorem execRcdGetbit_fault {prob : BitVec 8} {s : State} {f : Fault} (h : execRcdGetbit prob s = .fault f) :
    f = .rangeOutsideBand ∨ ∃ v r, decodeBit s.cfg v r s.rcd = .error f := by
  unfold execRcdGetbit at h
  cases hg : dataGate s.rcd.st s.rcd.err with
  | some e => rw [hg] at h; cases h
  | none =>
    simp only [hg] at h
    split_ifs at h with hp hr hroom
    · cases h
    · cases h; exact .inl rfl
    · exact .inr ⟨_, _, orFault_respond_fault h⟩
    · cases h

theorem execBpwPutbits_fault {value : BitVec 32} {nbits : BitVec 8} {s : State} {f : Fault}
    (h : execBpwPutbits value nbits s = .fault f) : nbits.toNat ≤ 24 ∧
      8 * s.bpw.olen.toNat + s.bpw.pend.toNat + nbits.toNat ≤ 8 * s.bpw.ocap.toNat ∧
      packBits s.cfg value nbits.toNat s.bpw = .error f := by
  unfold execBpwPutbits at h
  cases hg : dataGate s.bpw.st s.bpw.err with
  | some e => rw [hg] at h; cases h
  | none =>
    simp only [hg] at h
    split_ifs at h with hn hroom
    · cases h
    · exact ⟨not_lt.1 hn, hroom, orFault_respond_fault h⟩
    · cases h

theorem execBpwFinish_fault {s : State} {f : Fault} (h : execBpwFinish s = .fault f) :
    finishPack s.cfg s.bpw = .error f := by
  unfold execBpwFinish at h
  split_ifs at h with hst herr
  · cases h
  · exact orFault_respond_fault h
  · cases h

theorem execBprReadbits_fault {nbits : BitVec 8} {s : State} {f : Fault} (h : execBprReadbits nbits s = .fault f) :
    refill s.cfg nbits.toNat 3 s.bpr = .error f := by
  unfold execBprReadbits at h
  cases hg : dataGate s.bpr.st s.bpr.err with
  | some e => rw [hg] at h; cases h
  | none =>
    simp only [hg] at h
    split_ifs at h with hn hroom
    · cases h
    · exact orFault_respond_fault h
    · cases h

theorem predict_fault {g : Pixel → Pixel → Pixel → Pixel → Pixel} {top : BitVec 16} {left : Pixel} {s : State} {f : Fault}
    (h : predict g top left s = .fault f) : ∃ a, memRead s.cfg .pmem s.pmem a = .error f := by
  unfold predict at h
  split at h
  · rcases orFault_fault h with h1 | ⟨tl, _, h⟩
    · exact ⟨_, h1⟩
    · rcases orFault_fault h with h2 | ⟨t, _, h⟩
      · exact ⟨_, h2⟩
      · exact ⟨_, orFault_respond_fault h⟩
  · cases h

theorem mapRange_fault {g : Pixel → Pixel} {addr count : BitVec 16} {s : State} {f : Fault}
    (h : mapRange g addr count s = .fault f) : addr.toNat + count.toNat ≤ s.cfg.pmemWords ∧
      mapPixels s.cfg g count.toNat addr.toNat addr.toNat s.pmem = .error f := by
  unfold mapRange at h
  split at h
  · rename_i hr
    exact ⟨of_decide_eq_true hr, orFault_respond_fault h⟩
  · cases h

theorem execCtInv_fault {src dst count : BitVec 16} {s : State} {f : Fault} (h : execCtInv src dst count s = .fault f) :
    src.toNat + count.toNat ≤ s.cfg.pmemWords ∧ dst.toNat + count.toNat ≤ s.cfg.pmemWords ∧
      mapPixels s.cfg (inversePixel s.mult) count.toNat src.toNat dst.toNat s.pmem = .error f := by
  unfold execCtInv at h
  split_ifs at h with hsrc hdst
  · exact ⟨of_decide_eq_true hsrc, of_decide_eq_true hdst, orFault_respond_fault h⟩
  · cases h
  · cases h

theorem execRdsr_fault {sr : BitVec 8} {s : State} {f : Fault} (h : execRdsr sr s = .fault f) :
    ∃ r, readStatus s r = .error f := by
  unfold execRdsr at h
  cases hr : statusRegOf sr with
  | none => rw [hr] at h; cases h
  | some r => rw [hr] at h; exact ⟨r, orFault_respond_fault h⟩

/-! ### Where a command stops -/

/-- The address of a memory a command reads, inside its space, that nothing has written; no command reads an output
buffer. -/
def unwrittenAt (s : State) : Space → Nat → Prop
  | .rcdIbuf, a => a < s.cfg.bufBytes ∧ s.rcd.ibuf.read a = none
  | .bprIbuf, a => a < s.cfg.bufBytes ∧ s.bpr.ibuf.read a = none
  | .pmem, a => a < s.cfg.pmemWords ∧ s.pmem.read a = none
  | .rceObuf, _ => False
  | .bpwObuf, _ => False

/-- With room for every byte the encoder never stops (R31, R127). -/
theorem execRce_ne_fault {i : Instr} {s : State} {f : Fault} (hi : unitOf i = .rce) (hs : s.Inv) : exec i s ≠ .fault f := by
  obtain ⟨⟨_, hbuf, _, _⟩, hrce, _⟩ := hs
  intro h
  cases i with
  | rceInit cap =>
    simp only [exec, execRceInit] at h
    split_ifs at h <;> cases h
  | rcePutbit bit prob =>
    obtain ⟨hst, hstop⟩ := execRcePutbit_fault h
    have hopen := rceInv.openInv hrce (by simp [hst])
    rcases hstop with hlow | ⟨hroom, herr⟩
    · exact absurd hopen.1 (not_le.2 hlow)
    · obtain ⟨u, hu, _⟩ := codeBit_ok hbuf (rceInv.asmOk hrce hopen) hopen hroom
      cases hu.symm.trans herr
  | rceFinish =>
    obtain ⟨hst, herr⟩ := execRceFinish_fault h
    have hopen := rceInv.openInv hrce hst
    obtain ⟨u, hu, _⟩ := finishStream_ok hbuf (rceInv.asmOk hrce hopen) hopen
    cases hu.symm.trans herr
  | rceAbort =>
    simp only [exec, execRceAbort] at h
    split_ifs at h <;> cases h
  | _ => cases hi

/-- With room for every byte the writer never stops (R41). -/
theorem execBpw_ne_fault {i : Instr} {s : State} {f : Fault} (hi : unitOf i = .bpw) (hs : s.Inv) : exec i s ≠ .fault f := by
  obtain ⟨⟨_, hbuf, _, _⟩, _, _, hbpw, _⟩ := hs
  intro h
  cases i with
  | bpwInit cap =>
    simp only [exec, execBpwInit] at h
    split_ifs at h <;> cases h
  | bpwPutbits value nbits =>
    obtain ⟨hn, hroom, herr⟩ := execBpwPutbits_fault h
    obtain ⟨u, hu, _⟩ := packBits_ok (value := value) hbuf hbpw hn hroom
    cases hu.symm.trans herr
  | bpwFinish =>
    obtain ⟨u, hu, _⟩ := finishPack_ok hbuf hbpw
    cases hu.symm.trans (execBpwFinish_fault h)
  | bpwAbort =>
    simp only [exec, execBpwAbort] at h
    split_ifs at h <;> cases h
  | _ => cases hi

theorem execRcd_unwritten {i : Instr} {s : State} {sp : Space} {a : Nat} (hi : unitOf i = .rcd)
    (h : exec i s = .fault (.unwrittenRead sp a)) : unwrittenAt s sp a := by
  cases i with
  | rcdInit len =>
    obtain ⟨rfl, hread⟩ := memRead_unwritten (execRcdInit_fault h)
    exact hread
  | rcdGetbit prob =>
    rcases execRcdGetbit_fault h with hband | ⟨v, r, herr⟩
    · cases hband
    · obtain ⟨rfl, hread⟩ := decodeBit_unwritten herr
      exact hread
  | _ => cases hi

theorem execBpr_unwritten {i : Instr} {s : State} {sp : Space} {a : Nat} (hi : unitOf i = .bpr)
    (h : exec i s = .fault (.unwrittenRead sp a)) : unwrittenAt s sp a := by
  cases i with
  | bprInit len =>
    simp only [exec, execBprInit] at h
    split_ifs at h <;> cases h
  | bprReadbits nbits =>
    obtain ⟨rfl, hread⟩ := refill_unwritten (execBprReadbits_fault h)
    exact hread
  | _ => cases hi

theorem execPpb_unwritten {i : Instr} {s : State} {sp : Space} {a : Nat} (hi : unitOf i = .ppb)
    (h : exec i s = .fault (.unwrittenRead sp a)) : unwrittenAt s sp a := by
  obtain ⟨f, top, left, hp⟩ := exists_isPredictor hi
  obtain ⟨b, hb⟩ := predict_fault (hp.eq_predict s ▸ h)
  obtain ⟨rfl, hread⟩ := memRead_unwritten hb
  exact hread

/-- A range command inside PMEM stops at a word it has not written itself (R232, R237). -/
theorem mapPixels_unwritten {s : State} {f : Pixel → Pixel} {n src dst : Nat} {sp : Space} {a : Nat}
    (hs : src + n ≤ s.cfg.pmemWords) (hd : dst + n ≤ s.cfg.pmemWords)
    (h : mapPixels s.cfg f n src dst s.pmem = .error (.unwrittenRead sp a)) : unwrittenAt s sp a := by
  obtain ⟨b, _, hb, heq, hnone⟩ := mapPixels_error hs hd h
  cases heq
  exact ⟨lt_of_lt_of_le hb hs, hnone⟩

theorem execCdt_unwritten {i : Instr} {s : State} {sp : Space} {a : Nat} (hi : unitOf i = .cdt)
    (h : exec i s = .fault (.unwrittenRead sp a)) : unwrittenAt s sp a := by
  cases i with
  | subg addr count | addg addr count | ctFwd addr count =>
    obtain ⟨hrange, herr⟩ := mapRange_fault h
    exact mapPixels_unwritten hrange hrange herr
  | ctSetm g2r g2b r2b => cases h
  | ctInv src dst count =>
    obtain ⟨hsrc, hdst, herr⟩ := execCtInv_fault h
    exact mapPixels_unwritten hsrc hdst herr
  | _ => cases hi

/-- Under the invariant a read reported as unwritten is one: of an address inside an input buffer or PMEM that nothing has
written (R63). -/
theorem exec_unwritten {i : Instr} {s : State} {sp : Space} {a : Nat} (hs : s.Inv)
    (h : exec i s = .fault (.unwrittenRead sp a)) : unwrittenAt s sp a := by
  cases hi : unitOf i with
  | rce => exact absurd h (execRce_ne_fault hi hs)
  | rcd => exact execRcd_unwritten hi h
  | bpw => exact absurd h (execBpw_ne_fault hi hs)
  | bpr => exact execBpr_unwritten hi h
  | ppb => exact execPpb_unwritten hi h
  | cdt => exact execCdt_unwritten hi h
  | system =>
    cases i with
    | rdsr sr =>
      obtain ⟨r, hr⟩ := execRdsr_fault h
      cases readStatus_error hr
    | _ => cases hi

/-- A step stops only where the command it executes does. -/
theorem step_unwritten {s : State} {sp : Space} {a : Nat} (hs : s.Inv) (h : step s = .fault (.unwrittenRead sp a)) :
    unwrittenAt s sp a := by
  rcases step_cases s with hw | ⟨i, hx⟩ | hl
  · cases hw.symm.trans h
  · exact exec_unwritten hs (hx.symm.trans h)
  · cases hl.symm.trans h

/-- Settles O11: under the invariant a step is answered or stops at an unwritten read, and such a read has its place. -/
theorem stepStopsOnlyOnUnwrittenMemory : Obligations.StepStopsOnlyOnUnwrittenMemory := by
  intro s hs
  have hstep := step_answeredOrUnwritten hs
  refine ⟨hstep.not_refused, fun f hf => ?_⟩
  cases f with
  | unwrittenRead sp a =>
    have hat := step_unwritten hs hf
    cases sp with
    | rcdIbuf => exact .inl ⟨a, rfl, hat⟩
    | bprIbuf => exact .inr (.inl ⟨a, rfl, hat⟩)
    | pmem => exact .inr (.inr ⟨a, rfl, hat⟩)
    | rceObuf | bpwObuf => exact hat.elim
  | _ => cases hstep.isUnwrittenRead hf

end Sys2Proof.Machine
end

section
/-!
SUPPORT. The host's moves keep the invariant (spec/20_memory.md R64, R65), and a command changes memory only where it stores
(R60, R61, R74).
-/
namespace Sys2Proof.Machine

/-- Settles O12: each of the host's six moves keeps the invariant and the sizes. -/
theorem hostMovesKeepInvariant : Obligations.HostMovesKeepInvariant := fun _ _ _ hs hm => hostMove_keepsInv hs hm

/-! ### Where a command stores -/

/-- The bytes of an output buffer outside the old length to the new one are as before. -/
def storedFrom (m m' : Memory 8) (olen olen' : BitVec 32) : Prop :=
  ∀ a, ¬ (olen.toNat ≤ a ∧ a < olen'.toNat) → m'.read a = m.read a

theorem storedFrom_refl {m : Memory 8} {olen olen' : BitVec 32} : storedFrom m m olen olen' := fun _ _ => rfl

theorem execRce_stores {i : Instr} {s t : State} (hi : unitOf i = .rce) (h : exec i s = .next t) :
    storedFrom s.rce.obuf t.rce.obuf s.rce.olen t.rce.olen := by
  cases i with
  | rceInit cap =>
    rcases execRceInit_next h with ⟨_, rfl⟩ | ⟨_, _, _, rfl⟩ | ⟨_, rfl⟩ <;> exact storedFrom_refl
  | rcePutbit bit prob =>
    rcases execRcePutbit_next h with ⟨e, _, rfl⟩ | ⟨_, _, _, rfl⟩ | ⟨_, _, rfl⟩ | ⟨_, _, _, _, _, u, hu, rfl⟩
    · exact storedFrom_refl
    · exact storedFrom_refl
    · exact storedFrom_refl
    · obtain ⟨_, _, _, _, happ⟩ := codeBit_frame hu
      exact happ.bytes
  | rceFinish =>
    rcases execRceFinish_next h with ⟨_, rfl⟩ | ⟨_, _, u, hu, rfl⟩ | ⟨_, _, rfl⟩
    · exact storedFrom_refl
    · obtain ⟨_, _, _, _, _, _, happ⟩ := finishStream_frame hu
      exact happ.bytes
    · exact storedFrom_refl
  | rceAbort => rcases execRceAbort_next h with ⟨_, rfl⟩ | ⟨_, rfl⟩ <;> exact storedFrom_refl
  | _ => cases hi

theorem execBpw_stores {i : Instr} {s t : State} (hi : unitOf i = .bpw) (h : exec i s = .next t) :
    storedFrom s.bpw.obuf t.bpw.obuf s.bpw.olen t.bpw.olen := by
  cases i with
  | bpwInit cap =>
    rcases execBpwInit_next h with ⟨_, rfl⟩ | ⟨_, _, rfl⟩ | ⟨_, rfl⟩ <;> exact storedFrom_refl
  | bpwPutbits value nbits =>
    rcases execBpwPutbits_next h with ⟨e, _, rfl⟩ | ⟨_, _, e, _, rfl⟩ | ⟨_, _, _, _, u, hu, rfl⟩
    · exact storedFrom_refl
    · exact storedFrom_refl
    · exact (packBits_frame hu).bytes
  | bpwFinish =>
    rcases execBpwFinish_next h with ⟨_, rfl⟩ | ⟨_, _, u, hu, rfl⟩ | ⟨_, _, rfl⟩
    · exact storedFrom_refl
    · obtain ⟨_, _, _, _, hbytes⟩ := finishPack_frame hu
      exact hbytes
    · exact storedFrom_refl
  | bpwAbort => rcases execBpwAbort_next h with ⟨_, rfl⟩ | ⟨_, rfl⟩ <;> exact storedFrom_refl
  | _ => cases hi

theorem execRcd_ibuf {i : Instr} {s t : State} (hi : unitOf i = .rcd) (h : exec i s = .next t) :
    t.rcd.ibuf = s.rcd.ibuf := by
  cases i with
  | rcdInit len => rcases execRcdInit_next h with ⟨e, _, rfl⟩ | ⟨v, _, _, _, _, rfl⟩ <;> rfl
  | rcdGetbit prob =>
    rcases execRcdGetbit_next h with ⟨e, _, rfl⟩ | ⟨_, _, e, _, rfl⟩ | ⟨_, _, _, _, b, v, r, u, _, _, hu, rfl⟩
    · rfl
    · rfl
    · obtain ⟨_, _, _, hibuf, _⟩ := decodeBit_frame hu
      exact hibuf
  | _ => cases hi

theorem execBpr_ibuf {i : Instr} {s t : State} (hi : unitOf i = .bpr) (h : exec i s = .next t) :
    t.bpr.ibuf = s.bpr.ibuf := by
  cases i with
  | bprInit len => rcases execBprInit_next h with rfl | ⟨_, rfl⟩ <;> rfl
  | bprReadbits nbits =>
    rcases execBprReadbits_next h with ⟨e, _, rfl⟩ | ⟨_, _, e, _, rfl⟩ | ⟨_, _, _, _, u, hu, rfl⟩
    · rfl
    · rfl
    · obtain ⟨_, _, _, hibuf⟩ := refill_frame hu
      exact hibuf
  | _ => cases hi

/-- The ranges of PMEM a command stores to (R74). -/
def storesRange (i : Instr) (base count : BitVec 16) : Prop :=
  i = .subg base count ∨ i = .addg base count ∨ i = .ctFwd base count ∨ ∃ src, i = .ctInv src base count

/-- A word a range command changed lies in the range it stores to. -/
theorem mapPixels_stores {c : Config} {f : Pixel → Pixel} {n src dst a : Nat} {m m' : Memory 32}
    (h : mapPixels c f n src dst m = .ok m') (ha : m'.read a ≠ m.read a) : dst ≤ a ∧ a < dst + n := by
  by_contra hout
  exact ha (mapPixels_frame h a hout)

theorem mapRange_stores {f : Pixel → Pixel} {addr count : BitVec 16} {s t : State} {a : Nat}
    (h : mapRange f addr count s = .next t) (ha : t.pmem.read a ≠ s.pmem.read a) :
    addr.toNat ≤ a ∧ a < addr.toNat + count.toNat := by
  rcases mapRange_next h with ⟨_, rfl⟩ | ⟨m, _, hm, rfl⟩
  · exact absurd rfl ha
  · exact mapPixels_stores hm ha

theorem execCdt_stores {i : Instr} {s t : State} {a : Nat} (hi : unitOf i = .cdt) (h : exec i s = .next t)
    (ha : t.pmem.read a ≠ s.pmem.read a) :
    ∃ base count, storesRange i base count ∧ base.toNat ≤ a ∧ a < base.toNat + count.toNat := by
  cases i with
  | subg addr count => exact ⟨addr, count, .inl rfl, mapRange_stores h ha⟩
  | addg addr count => exact ⟨addr, count, .inr (.inl rfl), mapRange_stores h ha⟩
  | ctFwd addr count => exact ⟨addr, count, .inr (.inr (.inl rfl)), mapRange_stores h ha⟩
  | ctSetm g2r g2b r2b =>
    obtain rfl := respond_next h
    exact absurd rfl ha
  | ctInv src dst count =>
    rcases execCtInv_next h with ⟨_, rfl⟩ | ⟨m, _, _, hm, rfl⟩
    · exact absurd rfl ha
    · exact ⟨dst, count, .inr (.inr (.inr ⟨src, rfl⟩)), mapPixels_stores hm ha⟩
  | _ => cases hi

/-- Settles O16: a memory of the command's own unit by the unit's lemma, every other memory by the command's frame. -/
theorem memoriesChangeOnlyWhereStored : Obligations.MemoriesChangeOnlyWhereStored := by
  intro i s t h
  obtain ⟨frce, frcd, fbpw, fbpr, fcdt⟩ := (commandWritesOnlyItsUnit i s t h).others
  refine ⟨?_, ?_, ?_, ?_, fun a ha => ?_⟩
  · by_cases hi : unitOf i = .rce
    · exact execRce_stores hi h
    · rw [frce hi]
      exact storedFrom_refl
  · by_cases hi : unitOf i = .bpw
    · exact execBpw_stores hi h
    · rw [fbpw hi]
      exact storedFrom_refl
  · by_cases hi : unitOf i = .rcd
    · exact execRcd_ibuf hi h
    · rw [frcd hi]
  · by_cases hi : unitOf i = .bpr
    · exact execBpr_ibuf hi h
    · rw [fbpr hi]
  · by_cases hi : unitOf i = .cdt
    · exact execCdt_stores hi h ha
    · exact absurd (by rw [(fcdt hi).2]) ha

end Sys2Proof.Machine
end

section
/-!
SUPPORT. A decoder reads no byte of its input buffer at or above its length (spec/20_memory.md R61, spec/40_range_coder.md R143,
spec/41_bit_packer.md R172).
-/
namespace Sys2Proof.Machine

/-- A run that ends as another does, its next state changed by `g`: the same response, or the same fault. -/
def endsAlike (g : State → State) (r r' : Result) : Prop :=
  (∀ t, r = .next t → r' = .next (g t)) ∧ ∀ f, r = .fault f → r' = .fault f

theorem endsAlike_next {g : State → State} {t t' : State} (h : t' = g t) : endsAlike g (.next t) (.next t') :=
  ⟨fun _ ht => by cases ht; rw [h], fun _ hf => nomatch hf⟩

theorem endsAlike_fault {g : State → State} {f : Fault} : endsAlike g (.fault f) (.fault f) :=
  ⟨fun _ ht => (nomatch ht), fun _ hf => hf⟩

/-- The two runs take the same branch. -/
theorem endsAlike_ite {g : State → State} {p q : Prop} [Decidable p] [Decidable q] {x x' y y' : Result} (hpq : p ↔ q)
    (hx : p → endsAlike g x x') (hy : ¬ p → endsAlike g y y') : endsAlike g (if p then x else y) (if q then x' else y') := by
  by_cases hp : p
  · rw [if_pos hp, if_pos (hpq.1 hp)]
    exact hx hp
  · rw [if_neg hp, if_neg fun hq => hp (hpq.2 hq)]
    exact hy hp

/-- The second command goes on with the first one's value, changed by `k`. -/
theorem endsAlike_orFault {g : State → State} {α : Type} {r r' : Except Fault α} {k : α → α} {x x' : α → Result}
    (hr : r' = k <$> r) (h : ∀ a, r = .ok a → endsAlike g (x a) (x' (k a))) : endsAlike g (orFault r x) (orFault r' x') := by
  subst hr
  cases r with
  | ok a => exact h a rfl
  | error f => exact endsAlike_fault

theorem memRead_congr {w : Nat} {c : Config} {sp : Space} {m m' : Memory w} {a : Nat} (h : m'.read a = m.read a) :
    memRead c sp m' a = memRead c sp m a := by
  simp only [memRead, h]

/-- Two chains that go on alike from every value of the first operation are the same. -/
theorem bind_congr_ok {α β : Type} {x : Except Fault α} {f g : α → Except Fault β} (h : ∀ a, x = .ok a → f a = g a) :
    (x >>= f) = (x >>= g) := by
  cases x with
  | ok a => exact h a rfl
  | error e => rfl

/-! ### The range decoder -/

/-- The decoder with another input buffer. -/
def Rcd.withIbuf (m : Memory 8) (u : Rcd) : Rcd := { u with ibuf := m }

theorem nextBit_withIbuf {c : Config} {m : Memory 8} {u : Rcd}
    (h : m.read (u.bitpos.toNat / 8) = u.ibuf.read (u.bitpos.toNat / 8)) :
    nextBit c (u.withIbuf m) = (fun p => (p.1, p.2.withIbuf m)) <$> nextBit c u := by
  simp only [nextBit, map_bind, Rcd.withIbuf, memRead_congr h]
  rfl

/-- With the bits below `8·len` the decoder reads below `len` only (R141). -/
theorem pullBits_withIbuf {c : Config} {m : Memory 8} {n v : Nat} {u : Rcd} {len : Nat}
    (hm : ∀ a, a < len → m.read a = u.ibuf.read a) (room : u.bitpos.toNat + n ≤ 8 * len) :
    pullBits c n v (u.withIbuf m) = (fun p => (p.1, p.2.withIbuf m)) <$> pullBits c n v u := by
  induction n generalizing v u with
  | zero => rfl
  | succ n ih =>
    simp only [pullBits, nextBit_withIbuf (hm _ (by omega)), bind_map_left, map_bind]
    refine bind_congr_ok fun (b, u') hb => ih ?_ ?_
    · rwa [nextBit_ibuf hb]
    · rw [nextBit_bitpos hb]
      omega

theorem decodeBit_withIbuf {c : Config} {m : Memory 8} {v r : Nat} {u : Rcd}
    (hm : ∀ a, a < u.ilen.toNat → m.read a = u.ibuf.read a) (room : u.bitpos.toNat + nshift r ≤ 8 * u.ilen.toNat) :
    decodeBit c v r (u.withIbuf m) = Rcd.withIbuf m <$> decodeBit c v r u := by
  simp only [decodeBit, pullBits_withIbuf hm room, bind_map_left, map_bind]
  rfl

/-- The state with another `RCD.IBUF`. -/
def State.withRcdIbuf (m : Memory 8) (s : State) : State := s.setRcd { s.rcd with ibuf := m }

theorem execRcdGetbit_withIbuf {s : State} {m : Memory 8} {prob : BitVec 8}
    (hm : ∀ a, a < s.rcd.ilen.toNat → m.read a = s.rcd.ibuf.read a) :
    endsAlike (State.withRcdIbuf m) (execRcdGetbit prob s) (execRcdGetbit prob (s.withRcdIbuf m)) := by
  simp only [execRcdGetbit, State.withRcdIbuf, State.setRcd_rcd, State.setRcd_cfg]
  cases dataGate s.rcd.st s.rcd.err with
  | some e => exact endsAlike_next rfl
  | none =>
    simp only
    refine endsAlike_ite Iff.rfl (fun _ => endsAlike_next rfl) fun _ => ?_
    refine endsAlike_ite Iff.rfl (fun _ => endsAlike_fault) fun _ => ?_
    refine endsAlike_ite Iff.rfl (fun hroom => ?_) fun _ => endsAlike_next rfl
    exact endsAlike_orFault (decodeBit_withIbuf hm hroom) fun u _ => endsAlike_next (t := (s.setRcd u).answer _ _) rfl

theorem execRcdInit_withIbuf {s : State} {m : Memory 8} {len : BitVec 32}
    (hm : ∀ a, a < len.toNat → m.read a = s.rcd.ibuf.read a) :
    endsAlike (State.withRcdIbuf m) (execRcdInit len s) (execRcdInit len (s.withRcdIbuf m)) := by
  simp only [execRcdInit, State.withRcdIbuf, State.setRcd_rcd, State.setRcd_cfg]
  refine endsAlike_ite Iff.rfl (fun _ => endsAlike_next rfl) fun _ => ?_
  refine endsAlike_ite Iff.rfl (fun _ => endsAlike_next rfl) fun hlen => ?_
  have h0 : 0 < len.toNat := Nat.pos_of_ne_zero fun h => hlen (BitVec.eq_of_toNat_eq h)
  refine endsAlike_orFault (k := id) (by rw [memRead_congr (hm 0 h0), id_map]) fun v _ => ?_
  exact endsAlike_ite Iff.rfl (fun _ => endsAlike_next rfl) fun _ => endsAlike_next rfl

/-! ### The bit reader -/

/-- The reader with another input buffer. -/
def Bpr.withIbuf (m : Memory 8) (u : Bpr) : Bpr := { u with ibuf := m }

/-- A byte taken while fewer than 24 bits are held fits the 5-bit count (R171). -/
theorem cnt_add_eight {cnt : BitVec 5} (h : cnt.toNat < 24) : (cnt + 8).toNat = cnt.toNat + 8 :=
  BitVec.toNat_add_of_lt (by simp; omega)

/-- With enough bits left the refill reads below `ILEN` only (R171, R172). -/
theorem refill_withIbuf {c : Config} {m : Memory 8} {nbits n : Nat} {u : Bpr} (hn : nbits ≤ 24)
    (hm : ∀ a, a < u.ilen.toNat → m.read a = u.ibuf.read a)
    (room : nbits + 8 * u.pos.toNat ≤ 8 * u.ilen.toNat + u.cnt.toNat) :
    refill c nbits n (u.withIbuf m) = Bpr.withIbuf m <$> refill c nbits n u := by
  induction n generalizing u with
  | zero => rfl
  | succ n ih =>
    by_cases hlt : u.cnt.toNat < nbits
    · have hread := memRead_congr (c := c) (sp := .bprIbuf) (hm u.pos.toNat (by omega))
      rw [refill, refill, if_pos hlt, if_pos (show (u.withIbuf m).cnt.toNat < nbits from hlt)]
      simp only [map_bind]
      show (memRead c .bprIbuf m u.pos.toNat >>= _) = _
      rw [hread]
      refine bind_congr_ok fun byte _ => bind_congr_ok fun pos hpos => ?_
      have hp : pos.toNat = u.pos.toNat + 1 := (fit_ok_iff.1 hpos).2
      have hcnt := cnt_add_eight (lt_of_lt_of_le hlt hn)
      exact ih (u := { u with acc := u.acc ||| (byte.setWidth 32 <<< u.cnt.toNat), cnt := u.cnt + 8, pos := pos }) hm
        (by simp only [hp, hcnt]; omega)
    · rw [refill, refill, if_neg hlt, if_neg (show ¬ (u.withIbuf m).cnt.toNat < nbits from hlt)]
      rfl

/-- The state with another `BPR.IBUF`. -/
def State.withBprIbuf (m : Memory 8) (s : State) : State := s.setBpr { s.bpr with ibuf := m }

theorem execBprReadbits_withIbuf {s : State} {m : Memory 8} {nbits : BitVec 8}
    (hm : ∀ a, a < s.bpr.ilen.toNat → m.read a = s.bpr.ibuf.read a) :
    endsAlike (State.withBprIbuf m) (execBprReadbits nbits s) (execBprReadbits nbits (s.withBprIbuf m)) := by
  have hleft : bitsLeft { s.bpr with ibuf := m } = bitsLeft s.bpr := rfl
  simp only [execBprReadbits, State.withBprIbuf, State.setBpr_bpr, State.setBpr_cfg, hleft]
  cases dataGate s.bpr.st s.bpr.err with
  | some e => exact endsAlike_next rfl
  | none =>
    simp only
    refine endsAlike_ite Iff.rfl (fun _ => endsAlike_next rfl) fun hn => ?_
    refine endsAlike_ite Iff.rfl (fun hroom => ?_) fun _ => endsAlike_next rfl
    have room : nbits.toNat + 8 * s.bpr.pos.toNat ≤ 8 * s.bpr.ilen.toNat + s.bpr.cnt.toNat := by
      unfold bitsLeft at hroom
      omega
    exact endsAlike_orFault (refill_withIbuf (not_lt.1 hn) hm room) fun u _ =>
      endsAlike_next (t := (s.setBpr (dropBits u _)).answer _ _) rfl

/-- Settles O18: each check of a length precedes the reads, so the two runs read the same bytes. -/
theorem decodersReadOnlyBelowLength : Obligations.DecodersReadOnlyBelowLength :=
  ⟨fun _ _ _ hm => execRcdGetbit_withIbuf hm, fun _ _ _ hm => execRcdInit_withIbuf hm,
    fun _ _ _ hm => execBprReadbits_withIbuf hm⟩

end Sys2Proof.Machine
end

section
/-!
SUPPORT. The reads of the predictors (spec/20_memory.md R63, R73, spec/42_predictors.md R194), and a system of several cores
(spec/20_memory.md R80, spec/60_exceptions.md R293).
-/
namespace Sys2Proof.Machine

/-! ### The predictors' reads -/

/-- The fourteen predictor commands with the same operands (R195 to R208). -/
def predictorCommands (top : BitVec 16) (left : Pixel) : List Instr :=
  [.pred0 top left, .pred1 top left, .pred2 top left, .pred3 top left, .pred4 top left, .pred5 top left,
    .pred6 top left, .pred7 top left, .pred8 top left, .pred9 top left, .pred10 top left, .pred11 top left,
    .pred12 top left, .pred13 top left]

/-- What holds of the template with every function holds of every predictor command (R194). -/
theorem forall_predictorCommands {top : BitVec 16} {left : Pixel} {s : State} {r : Result}
    (h : ∀ f, predict f top left s = r) : ∀ i ∈ predictorCommands top left, exec i s = r := by
  simp only [predictorCommands, List.forall_mem_cons]
  exact ⟨h _, h _, h _, h _, h _, h _, h _, h _, h _, h _, h _, h _, h _, h _, nofun⟩

/-- Settles O45: the address check of the template comes before its reads. -/
theorem predictorAddressCheck : Obligations.PredictorAddressCheck := by
  intro top left s htop
  refine forall_predictorCommands fun f => ?_
  rw [predict, topInPmem_eq_false htop]
  rfl

/-- A read inside the space of an address nothing has written stops (R63). -/
theorem memRead_of_unwritten {w : Nat} {c : Config} {sp : Space} {m : Memory w} {a : Nat} (ha : a < c.sizeOf sp)
    (h : m.read a = none) : memRead c sp m a = .error (.unwrittenRead sp a) := by
  simp only [memRead, if_pos ha, h]

/-- A read inside the space of a written address gives its unit. -/
theorem exists_memRead_ok {w : Nat} {c : Config} {sp : Space} {m : Memory w} {a : Nat} (ha : a < c.sizeOf sp)
    (h : (m.read a).isSome) : ∃ v, memRead c sp m a = .ok v := by
  obtain ⟨v, hv⟩ := Option.isSome_iff_exists.1 h
  exact ⟨v, memRead_ok_iff.2 ⟨ha, hv⟩⟩

/-- The template reads its three words from `top − 1` up and stops at the first that nothing has written (R63, R194). -/
theorem predict_stops {f : Pixel → Pixel → Pixel → Pixel → Pixel} {top : BitVec 16} {left : Pixel} {s : State}
    (h1 : 1 ≤ top.toNat) (h2 : top.toNat + 2 ≤ s.cfg.pmemWords) {k : Nat} (hk : k < 3)
    (hw : ∀ j, j < k → (s.pmem.read (top.toNat - 1 + j)).isSome) (hn : s.pmem.read (top.toNat - 1 + k) = none) :
    predict f top left s = .fault (.unwrittenRead .pmem (top.toNat - 1 + k)) := by
  have hin := topInPmem_of_le h1 h2
  obtain ⟨b, hb⟩ : ∃ b, top.toNat = b + 1 := Nat.exists_eq_add_of_le' h1
  simp only [hb, Nat.add_sub_cancel] at h2 hw hn ⊢
  have hsize : ∀ j, j < 3 → b + j < s.cfg.sizeOf .pmem := fun j hj => by simp only [Config.sizeOf]; omega
  have hstop := memRead_of_unwritten (hsize k hk) hn
  have hread := fun j hj => exists_memRead_ok (hsize j (lt_trans hj hk)) (hw j hj)
  simp only [predict, if_pos hin, hb, Nat.add_sub_cancel]
  match k with
  | 0 =>
    simp only [Nat.add_zero] at hstop ⊢
    rw [hstop, orFault_error]
  | 1 =>
    obtain ⟨tl, htl⟩ := hread 0 (by decide)
    rw [Nat.add_zero] at htl
    rw [htl, orFault_ok, hstop, orFault_error]
  | 2 =>
    obtain ⟨tl, htl⟩ := hread 0 (by decide)
    obtain ⟨t, ht⟩ := hread 1 (by decide)
    rw [Nat.add_zero] at htl
    rw [htl, orFault_ok, ht, orFault_ok, hstop, orFault_error]

/-- Settles O46: every mode is the template with some function, and the template stops there. -/
theorem predictorsReadAllThreeWords : Obligations.PredictorsReadAllThreeWords := by
  intro top left s h1 h2 k hk hw hn
  exact forall_predictorCommands fun f => predict_stops h1 h2 hk hw hn

/-! ### Several cores -/

theorem coreStep_next {k : Nat} {cores cores' : List Hosted} (h : coreStep k cores = some (.next cores')) :
    ∃ h t, cores[k]? = some h ∧ step h.core = .next t ∧ cores' = cores.set k { h with core := t } := by
  unfold coreStep at h
  cases hk : cores[k]? with
  | none => rw [hk] at h; cases h
  | some c =>
    simp only [hk] at h
    cases ht : step c.core with
    | next t => rw [ht] at h; cases h; exact ⟨c, t, rfl, ht, rfl⟩
    | fault f => rw [ht] at h; cases h
    | refused r => rw [ht] at h; cases h

theorem coreMove_some {k : Nat} {m : HostMove} {cores cores' : List Hosted} (h : coreMove k m cores = some cores') :
    ∃ h h', cores[k]? = some h ∧ hostMove h m = some h' ∧ cores' = cores.set k h' := by
  unfold coreMove at h
  cases hk : cores[k]? with
  | none => rw [hk] at h; cases h
  | some c =>
    simp only [hk] at h
    obtain ⟨c', hm, rfl⟩ := Option.map_eq_some_iff.1 h
    exact ⟨c, c', rfl, hm, rfl⟩

/-- Core `k` replaced: the new core stands at `k` and every other core is as before. -/
theorem set_core {k : Nat} {cores : List Hosted} {c c' : Hosted} (h : cores[k]? = some c) :
    (cores.set k c')[k]? = some c' ∧ (cores.set k c').length = cores.length ∧
      ∀ j, j ≠ k → (cores.set k c')[j]? = cores[j]? := by
  obtain ⟨hk, _⟩ := List.getElem?_eq_some_iff.1 h
  exact ⟨List.getElem?_set_self hk, List.length_set, fun j hj => List.getElem?_set_ne hj.symm⟩

/-- The core that a command is issued to executes it at its next step (R90). -/
theorem hostIssue_step {h h' : Hosted} {w : Word64} {i : Instr} (hm : hostMove h (.issue w) = some h')
    (hd : decode w = some i) : step h'.core = exec i (present h.core w) := by
  simp only [hostMove, hostIssue] at hm
  split at hm <;> cases hm
  simp only [step, presented_present, hd]

/-- Settles O19: a step and a host move at core k replace element k of the list of cores by that core's own next state. -/
theorem coresShareNothing : Obligations.CoresShareNothing := by
  intro k cores
  refine ⟨fun cores' h => ?_, fun m cores' h => ?_, fun h h' w i t hk hm hd ht => ?_⟩
  · obtain ⟨c, t, hk, hstep, rfl⟩ := coreStep_next h
    obtain ⟨hnew, hlen, hothers⟩ := set_core hk
    exact ⟨⟨c, t, hk, hstep, hnew⟩, hlen, hothers⟩
  · obtain ⟨c, c', hk, hmove, rfl⟩ := coreMove_some h
    obtain ⟨hnew, hlen, hothers⟩ := set_core hk
    exact ⟨⟨c, c', hk, hmove, hnew⟩, hlen, hothers⟩
  · have hstep : step h'.core = .next t := (hostIssue_step hm hd).trans ht
    obtain ⟨hnew, _⟩ := set_core (c' := h') hk
    refine ⟨cores.set k h', by simp only [coreMove, hk, hm, Option.map_some], ?_⟩
    simp only [coreStep, hnew, hstep]

end Sys2Proof.Machine
end

section
/-!
SUPPORT. A command word as its fields (spec/30_encoding.md R92 to R106): which bits a list of fields covers, the fields a
row of the opcode map fixes, and the words of each format put together again from their fields.
-/
namespace Sys2Proof

/-! ### Words that agree on fields -/

/-- The mask of a field, given by its lowest bit and its width. -/
def fieldMask (f : Nat × Nat) : Word64 := (BitVec.allOnes f.2).setWidth 64 <<< f.1

/-- The mask of a list of fields. -/
def fieldsMask (fs : List (Nat × Nat)) : Word64 := fs.foldr (fun f m => fieldMask f ||| m) 0

/-- Two words have the same value in each of the fields. -/
def AgreeOn (fs : List (Nat × Nat)) (v w : Word64) : Prop :=
  ∀ f ∈ fs, v.extractLsb' f.1 f.2 = w.extractLsb' f.1 f.2

@[simp] theorem agreeOn_nil (v w : Word64) : AgreeOn [] v w := nofun

@[simp] theorem agreeOn_cons {f : Nat × Nat} {fs : List (Nat × Nat)} {v w : Word64} :
    AgreeOn (f :: fs) v w ↔ v.extractLsb' f.1 f.2 = w.extractLsb' f.1 f.2 ∧ AgreeOn fs v w := List.forall_mem_cons

theorem agreeOn_append {fs gs : List (Nat × Nat)} {v w : Word64} :
    AgreeOn (fs ++ gs) v w ↔ AgreeOn fs v w ∧ AgreeOn gs v w := List.forall_mem_append

theorem getLsbD_fieldMask (f : Nat × Nat) {i : Nat} (hi : i < 64) :
    (fieldMask f).getLsbD i = decide (f.1 ≤ i ∧ i < f.1 + f.2) := by
  rw [fieldMask, BitVec.getLsbD_shiftLeft, BitVec.getLsbD_setWidth, BitVec.getLsbD_allOnes, Bool.eq_iff_iff]
  simp only [Bool.and_eq_true, Bool.not_eq_true', decide_eq_true_eq, decide_eq_false_iff_not]
  omega

/-- Agreeing under the mask of a field is agreeing in the field. -/
theorem and_fieldMask_eq_iff {v w : Word64} {f : Nat × Nat} :
    v &&& fieldMask f = w &&& fieldMask f ↔ v.extractLsb' f.1 f.2 = w.extractLsb' f.1 f.2 := by
  constructor
  · intro h
    refine BitVec.eq_of_getLsbD_eq fun i hi => ?_
    have hbit := congrArg (BitVec.getLsbD · (f.1 + i)) h
    by_cases hlt : f.1 + i < 64
    · simpa [getLsbD_fieldMask f hlt, hi] using hbit
    · simp [BitVec.getLsbD_of_ge, Nat.le_of_not_lt hlt]
  · intro h
    refine BitVec.eq_of_getLsbD_eq fun i hi => ?_
    rw [BitVec.getLsbD_and, BitVec.getLsbD_and, getLsbD_fieldMask f hi]
    by_cases hin : f.1 ≤ i ∧ i < f.1 + f.2
    · have hbit := congrArg (BitVec.getLsbD · (i - f.1)) h
      have hsub : f.1 + (i - f.1) = i := by omega
      have hw : i - f.1 < f.2 := by omega
      simp only [BitVec.getLsbD_extractLsb', hw, hsub, decide_true, Bool.true_and] at hbit
      rw [hbit]
    · rw [decide_eq_false hin, Bool.and_false, Bool.and_false]

theorem word_or_and_self (a b : Word64) : (a ||| b) &&& a = a := by
  refine BitVec.eq_of_getLsbD_eq fun i _ => ?_
  rw [BitVec.getLsbD_and, BitVec.getLsbD_or]
  cases a.getLsbD i <;> simp

theorem word_and_or_eq_iff {v w a b : Word64} : v &&& (a ||| b) = w &&& (a ||| b) ↔ v &&& a = w &&& a ∧ v &&& b = w &&& b := by
  constructor
  · intro h
    constructor
    · rw [← word_or_and_self a b, ← BitVec.and_assoc, h, BitVec.and_assoc]
    · rw [← word_or_and_self b a, BitVec.or_comm b a, ← BitVec.and_assoc, h, BitVec.and_assoc]
  · rintro ⟨ha, hb⟩
    rw [BitVec.and_or_distrib_left, BitVec.and_or_distrib_left, ha, hb]

/-- Agreeing under the mask of several fields is agreeing in each. -/
theorem and_fieldsMask_eq_iff {v w : Word64} {fs : List (Nat × Nat)} :
    v &&& fieldsMask fs = w &&& fieldsMask fs ↔ AgreeOn fs v w := by
  induction fs with
  | nil => exact iff_of_true (by simp [fieldsMask]) (agreeOn_nil v w)
  | cons f fs ih =>
    rw [agreeOn_cons, ← ih, ← and_fieldMask_eq_iff, ← word_and_or_eq_iff]
    rfl

/-- Words that agree on a mask and on fields that cover the other bits are equal. -/
theorem eq_of_agree {v w m : Word64} (fs : List (Nat × Nat)) (hm : m ||| fieldsMask fs = BitVec.allOnes 64)
    (hfix : v &&& m = w &&& m) (hf : AgreeOn fs v w) : v = w := by
  have h := word_and_or_eq_iff.2 ⟨hfix, and_fieldsMask_eq_iff.2 hf⟩
  rwa [hm, BitVec.and_allOnes, BitVec.and_allOnes] at h

/-! ### Encoding what was decoded -/

/-- A field of one bit is its bit. -/
theorem extractLsb'_one (w : Word64) (k : Nat) : w.extractLsb' k 1 = BitVec.ofBool (w.getLsbD k) := by
  refine BitVec.eq_of_getLsbD_eq fun i hi => ?_
  obtain rfl : i = 0 := by omega
  simp

theorem formatZ_of_fixed {op : BitVec 8} {w : Word64}
    (h : w &&& 0xFFFFFFFFFFFFFFFF = op ++ (0 : BitVec 56)) : formatZ op = w :=
  eq_of_agree [] (by decide) ((formatZ_fixed op).trans h.symm) (by simp)

theorem formatL_of_fixed {op : BitVec 8} {w : Word64}
    (h : w &&& 0xFFFFFFFF00000000 = op ++ (0 : BitVec 24) ++ (0 : BitVec 32)) : formatL op (w.extractLsb' 0 32) = w :=
  eq_of_agree [(0, 32)] (by decide) ((formatL_fixed op _).trans h.symm) (by simp)

theorem formatB_of_fixed {op : BitVec 8} {w : Word64}
    (h : w &&& 0xFFFFFFFFFFFFFE00 = op ++ (0 : BitVec 47) ++ (0 : BitVec 1) ++ (0 : BitVec 8)) :
    formatB op (w.getLsbD 8) (w.extractLsb' 0 8) = w :=
  eq_of_agree [(8, 1), (0, 8)] (by decide) ((formatB_fixed op _ _).trans h.symm)
    (by simp only [agreeOn_cons, agreeOn_nil, extractLsb'_one, formatB_bit, formatB_prob, and_self])

theorem formatP_of_fixed {op : BitVec 8} {w : Word64}
    (h : w &&& 0xFFFFFFFFFFFFFF00 = op ++ (0 : BitVec 48) ++ (0 : BitVec 8)) : formatP op (w.extractLsb' 0 8) = w :=
  eq_of_agree [(0, 8)] (by decide) ((formatP_fixed op _).trans h.symm) (by simp)

theorem formatV_of_fixed {op : BitVec 8} {w : Word64}
    (h : w &&& 0xFFFFFF0000000000 = op ++ (0 : BitVec 16) ++ (0 : BitVec 8) ++ (0 : BitVec 32)) :
    formatV op (w.extractLsb' 32 8) (w.extractLsb' 0 32) = w :=
  eq_of_agree [(32, 8), (0, 32)] (by decide) ((formatV_fixed op _ _).trans h.symm) (by simp)

theorem formatN_of_fixed {op : BitVec 8} {w : Word64}
    (h : w &&& 0xFFFFFF00FFFFFFFF = op ++ (0 : BitVec 16) ++ (0 : BitVec 8) ++ (0 : BitVec 32)) :
    formatN op (w.extractLsb' 32 8) = w :=
  eq_of_agree [(32, 8)] (by decide) ((formatN_fixed op _).trans h.symm) (by simp)

theorem formatPR_of_fixed {mode : BitVec 4} {w : Word64} (h : w &&& 0xFFFF000000000000 =
    (0x30 : BitVec 8) ++ mode ++ (0 : BitVec 4) ++ (0 : BitVec 16) ++ (0 : BitVec 32)) :
    formatPR mode (w.extractLsb' 32 16) (w.extractLsb' 0 32) = w :=
  eq_of_agree [(32, 16), (0, 32)] (by decide) ((formatPR_fixed mode _ _).trans h.symm) (by simp)

theorem formatA_of_fixed {op : BitVec 8} {w : Word64}
    (h : w &&& 0xFFFFFFFF00000000 = op ++ (0 : BitVec 24) ++ (0 : BitVec 16) ++ (0 : BitVec 16)) :
    formatA op (w.extractLsb' 0 16) (w.extractLsb' 16 16) = w :=
  eq_of_agree [(0, 16), (16, 16)] (by decide) ((formatA_fixed op _ _).trans h.symm) (by simp)

theorem formatA3_of_fixed {op : BitVec 8} {w : Word64}
    (h : w &&& 0xFFFF000000000000 = op ++ (0 : BitVec 8) ++ (0 : BitVec 16) ++ (0 : BitVec 16) ++ (0 : BitVec 16)) :
    formatA3 op (w.extractLsb' 0 16) (w.extractLsb' 16 16) (w.extractLsb' 32 16) = w :=
  eq_of_agree [(0, 16), (16, 16), (32, 16)] (by decide) ((formatA3_fixed op _ _ _).trans h.symm) (by simp)

theorem formatM_of_fixed {op : BitVec 8} {w : Word64}
    (h : w &&& 0xFFFFFFFFFF000000 = op ++ (0 : BitVec 32) ++ (0 : BitVec 8) ++ (0 : BitVec 8) ++ (0 : BitVec 8)) :
    formatM op (w.extractLsb' 16 8) (w.extractLsb' 8 8) (w.extractLsb' 0 8) = w :=
  eq_of_agree [(16, 8), (8, 8), (0, 8)] (by decide) ((formatM_fixed op _ _ _).trans h.symm) (by simp)

/-- The words of a row are the words of the instructions it makes: the free bits are the operands (R104, R105). -/
def Row.Reencodes (r : Row) : Prop := ∀ w : Word64, r.fits w = true → encode (r.make w) = w

theorem Row.reencodes_of_fixed {r : Row} (h : ∀ w, w &&& r.mask = r.pattern → encode (r.make w) = w) : r.Reencodes :=
  fun w hw => h w (beq_iff_eq.1 hw)

theorem coderRows_reencode : ∀ r ∈ coderRows, r.Reencodes := by
  simp only [coderRows, List.forall_mem_cons]
  refine ⟨?init, ?putbit, ?finish, ?abort, ?rcdInit, ?getbit, ?bpwInit, ?putbits, ?bpwFinish, ?bpwAbort, ?bprInit, ?readbits,
    nofun⟩
  case init | rcdInit | bpwInit | bprInit => exact Row.reencodes_of_fixed fun w h => formatL_of_fixed h
  case finish | abort | bpwFinish | bpwAbort => exact Row.reencodes_of_fixed fun w h => formatZ_of_fixed h
  case putbit => exact Row.reencodes_of_fixed fun w h => formatB_of_fixed h
  case getbit => exact Row.reencodes_of_fixed fun w h => formatP_of_fixed h
  case putbits => exact Row.reencodes_of_fixed fun w h => formatV_of_fixed h
  case readbits => exact Row.reencodes_of_fixed fun w h => formatN_of_fixed h

theorem predictorRows_reencode : ∀ r ∈ predictorRows, r.Reencodes := by
  simp only [predictorRows, List.forall_mem_cons]
  refine ⟨?_, ?_, ?_, ?_, ?_, ?_, ?_, ?_, ?_, ?_, ?_, ?_, ?_, ?_, nofun⟩
  all_goals exact Row.reencodes_of_fixed fun w h => formatPR_of_fixed h

theorem colourRows_reencode : ∀ r ∈ colourRows, r.Reencodes := by
  simp only [colourRows, List.forall_mem_cons]
  refine ⟨?subg, ?addg, ?setm, ?fwd, ?inv, ?rdsr, nofun⟩
  case subg | addg | fwd => exact Row.reencodes_of_fixed fun w h => formatA_of_fixed h
  case setm => exact Row.reencodes_of_fixed fun w h => formatM_of_fixed h
  case inv => exact Row.reencodes_of_fixed fun w h => formatA3_of_fixed h
  case rdsr => exact Row.reencodes_of_fixed fun w h => formatP_of_fixed h

theorem rows_reencode : ∀ r ∈ rows, r.Reencodes := by
  intro r hr
  rcases List.mem_append.1 hr with h | h
  · rcases List.mem_append.1 h with h | h
    · exact coderRows_reencode r h
    · exact predictorRows_reencode r h
  · exact colourRows_reencode r h

/-! ### Decoding what was encoded -/

/-- The word of every instruction fits a row that makes the instruction again (R104, R105). -/
theorem encode_fits_row : ∀ i : Instr, Laws.EncodeFitsRow.Statement i
  | .rceInit cap => Laws.EncodeFitsRow.rceInit cap
  | .rcePutbit bit prob => Laws.EncodeFitsRow.rcePutbit bit prob
  | .rceFinish => Laws.EncodeFitsRow.rceFinish
  | .rceAbort => Laws.EncodeFitsRow.rceAbort
  | .rcdInit len => Laws.EncodeFitsRow.rcdInit len
  | .rcdGetbit prob => Laws.EncodeFitsRow.rcdGetbit prob
  | .bpwInit cap => Laws.EncodeFitsRow.bpwInit cap
  | .bpwPutbits value nbits => Laws.EncodeFitsRow.bpwPutbits value nbits
  | .bpwFinish => Laws.EncodeFitsRow.bpwFinish
  | .bpwAbort => Laws.EncodeFitsRow.bpwAbort
  | .bprInit len => Laws.EncodeFitsRow.bprInit len
  | .bprReadbits nbits => Laws.EncodeFitsRow.bprReadbits nbits
  | .pred0 top left => Laws.EncodeFitsRow.pred0 top left
  | .pred1 top left => Laws.EncodeFitsRow.pred1 top left
  | .pred2 top left => Laws.EncodeFitsRow.pred2 top left
  | .pred3 top left => Laws.EncodeFitsRow.pred3 top left
  | .pred4 top left => Laws.EncodeFitsRow.pred4 top left
  | .pred5 top left => Laws.EncodeFitsRow.pred5 top left
  | .pred6 top left => Laws.EncodeFitsRow.pred6 top left
  | .pred7 top left => Laws.EncodeFitsRow.pred7 top left
  | .pred8 top left => Laws.EncodeFitsRow.pred8 top left
  | .pred9 top left => Laws.EncodeFitsRow.pred9 top left
  | .pred10 top left => Laws.EncodeFitsRow.pred10 top left
  | .pred11 top left => Laws.EncodeFitsRow.pred11 top left
  | .pred12 top left => Laws.EncodeFitsRow.pred12 top left
  | .pred13 top left => Laws.EncodeFitsRow.pred13 top left
  | .subg addr count => Laws.EncodeFitsRow.subg addr count
  | .addg addr count => Laws.EncodeFitsRow.addg addr count
  | .ctSetm g2r g2b r2b => Laws.EncodeFitsRow.ctSetm g2r g2b r2b
  | .ctFwd addr count => Laws.EncodeFitsRow.ctFwd addr count
  | .ctInv src dst count => Laws.EncodeFitsRow.ctInv src dst count
  | .rdsr sr => Laws.EncodeFitsRow.rdsr sr

/-! ### Legality -/

/-- The fields that every word of a row shares: the opcode, the `zero` fields of its format, and a predictor's mode (R92, R99). -/
def Row.fixedFields (r : Row) : List (Nat × Nat) :=
  (56, 8) :: (WellFormed.zeroFields (WellFormed.opcode r.pattern) ++
    if WellFormed.opcode r.pattern = 0x30 then [(52, 4)] else [])

/-- The mask of a row of R105 is that of the fields the format table of R92 fixes, and the pattern has no bit outside it. -/
theorem rows_mask : ∀ r ∈ rows, r.mask = fieldsMask r.fixedFields ∧ r.pattern &&& r.mask = r.pattern := by decide

/-- The pattern of a row, a word with every operand 0, is legal. -/
theorem rows_pattern_legal : ∀ r ∈ rows, WellFormed.wordLegal r.pattern = true := by decide

/-- A word is a row's exactly when it has the row's values in the fields the row fixes. -/
theorem fits_iff {r : Row} (hr : r ∈ rows) {w : Word64} : r.fits w = true ↔
    WellFormed.opcode w = WellFormed.opcode r.pattern ∧
    AgreeOn (WellFormed.zeroFields (WellFormed.opcode r.pattern)) w r.pattern ∧
    (WellFormed.opcode r.pattern = 0x30 → w.extractLsb' 52 4 = r.pattern.extractLsb' 52 4) := by
  obtain ⟨hmask, hpattern⟩ := rows_mask r hr
  have hfits : r.fits w = true ↔ AgreeOn r.fixedFields w r.pattern := by
    rw [← and_fieldsMask_eq_iff, ← hmask, hpattern]
    exact beq_iff_eq
  rw [hfits, Row.fixedFields, agreeOn_cons, agreeOn_append]
  refine and_congr Iff.rfl (and_congr Iff.rfl ?_)
  by_cases hop : WellFormed.opcode r.pattern = 0x30
  · rw [if_pos hop]
    simp [hop]
  · rw [if_neg hop]
    exact iff_of_true (agreeOn_nil _ _) fun h => absurd h hop

/-- Every assigned opcode, with every legal mode where it is the predictors', has a row. -/
theorem exists_row_of_opcode : ∀ op ∈ WellFormed.assignedOpcodes, ∀ mode : BitVec 4,
    (op = 0x30 → ¬ (mode = 14 ∨ mode = 15)) →
    ∃ r ∈ rows, WellFormed.opcode r.pattern = op ∧ (op = 0x30 → r.pattern.extractLsb' 52 4 = mode) := by decide

theorem wordLegal_iff {w : Word64} : WellFormed.wordLegal w = true ↔
    WellFormed.opcode w ∈ WellFormed.assignedOpcodes ∧
    (∀ f ∈ WellFormed.zeroFields (WellFormed.opcode w), w.extractLsb' f.1 f.2 = 0) ∧
    (WellFormed.opcode w = 0x30 → ¬ (w.extractLsb' 52 4 = 14 ∨ w.extractLsb' 52 4 = 15)) := by
  simp [WellFormed.wordLegal, WellFormed.opcodeAssigned, WellFormed.zerosClear, WellFormed.modeLegal, and_assoc,
    imp_iff_not_or]

/-- The words of the rows are the legal words (R105, R106). -/
theorem exists_fits_iff_wordLegal {w : Word64} : (∃ r ∈ rows, r.fits w = true) ↔ WellFormed.wordLegal w = true := by
  constructor
  · rintro ⟨r, hr, hw⟩
    obtain ⟨hop, hzero, hmode⟩ := (fits_iff hr).1 hw
    obtain ⟨hrop, hrzero, hrmode⟩ := wordLegal_iff.1 (rows_pattern_legal r hr)
    rw [← hop] at hzero hmode hrop hrzero hrmode
    refine wordLegal_iff.2 ⟨hrop, fun f hf => (hzero f hf).trans (hrzero f hf), fun h => ?_⟩
    rw [hmode h]
    exact hrmode h
  · intro h
    obtain ⟨hop, hzero, hmode⟩ := wordLegal_iff.1 h
    obtain ⟨r, hr, hrop, hrmode⟩ := exists_row_of_opcode _ hop _ hmode
    obtain ⟨_, hrzero, _⟩ := wordLegal_iff.1 (rows_pattern_legal r hr)
    refine ⟨r, hr, (fits_iff hr).2 ⟨hrop.symm, ?_, ?_⟩⟩
    · rw [hrop] at hrzero ⊢
      exact fun f hf => (hzero f hf).trans (hrzero f hf).symm
    · rw [hrop]
      exact fun h => (hrmode h).symm

/-- The decoder refuses exactly the words that are not legal (R106, R111). -/
theorem decode_eq_none_iff_not_wordLegal {w : Word64} : decode w = none ↔ ¬ WellFormed.wordLegal w = true := by
  rw [← exists_fits_iff_wordLegal, decode_eq_none_iff]
  simp

end Sys2Proof
end

section
/-!
SUPPORT. The encoding statements (spec/30_encoding.md R90 to R111): decoding and encoding are inverse to each other, what a word
that is no instruction does, and what the pair of commands of BPW.PUT32 writes.
-/
namespace Sys2Proof.Machine

/-- Settles O1: the word fits a row, the only one as the rows are kept apart, and its fields are the operands. -/
theorem decodeOfEncodeIsIdentity : Obligations.DecodeOfEncodeIsIdentity := by
  intro i
  obtain ⟨r, hr, hfits, hmake⟩ := encode_fits_row i
  rw [decode_of_fits hr hfits, hmake]

/-- Settles O2: the word fits a row, whose free bits are all operands. -/
theorem encodeOfDecodeIsIdentity : Obligations.EncodeOfDecodeIsIdentity := by
  intro w i h
  obtain ⟨r, hr, hfits, rfl⟩ := exists_row_of_decode h
  exact rows_reencode r hr w hfits

/-- A step with a command presented decodes it and executes it, or answers ILLEGAL (R90, R106). -/
theorem step_of_command {s : State} {w : Word64} (h : s.ports = .command w) :
    step s = (decode w).elim (s.raise .illegal) fun i => exec i s := by
  have hp : presented s = some w := by simp only [presented, h]
  rw [step, hp]
  cases hd : decode w <;> simp only [hd] <;> rfl

/-- Settles O5: the one branch of `step` for a word that decodes. -/
theorem stepRunsDecodedInstruction : Obligations.StepRunsDecodedInstruction := by
  intro s w i hw hi
  rw [step_of_command hw, hi, Option.elim_some]

/-- Settles O3: the rows of the decoder are the words that pass the three checks; ILLEGAL is raised without a write. -/
theorem illegalExactlyByThreeChecks : Obligations.IllegalExactlyByThreeChecks := by
  refine ⟨fun w => ?_, fun s w hw hi => ?_, by decide, by decide⟩
  · rw [decode_eq_none_iff_not_wordLegal, WellFormed.wordLegal, Bool.and_eq_true, Bool.and_eq_true, and_assoc]
  · rw [step_of_command hw, hi]
    rfl

/-- Settles O4: each is the command word of its instruction, so O1 decodes it. -/
theorem sampleWordsDecode : Obligations.SampleWordsDecode :=
  ⟨decodeOfEncodeIsIdentity (.rceInit 16), decodeOfEncodeIsIdentity (.rcePutbit true 128),
    decodeOfEncodeIsIdentity .rceFinish, decodeOfEncodeIsIdentity (.rcdGetbit 128),
    decodeOfEncodeIsIdentity (.bpwPutbits 0xABCDEF 24), decodeOfEncodeIsIdentity (.bprReadbits 16),
    decodeOfEncodeIsIdentity (.pred12 1 0xFF102030), decodeOfEncodeIsIdentity (.subg 8 3),
    decodeOfEncodeIsIdentity (.ctSetm 0x20 0xF0 0x40), decodeOfEncodeIsIdentity (.ctInv 8 16 3),
    decodeOfEncodeIsIdentity (.rdsr 3)⟩

/-! ### BPW.PUT32 -/

/-- An open writer session without error. -/
structure Writing (s : State) : Prop where
  inv : s.Inv
  st : s.bpw.st = .active
  err : s.bpw.err = .ok

/-- How many bits the writer has written: whole bytes, then the pending bits (R37, R38). -/
def bitsWritten (u : Bpw) : Nat := 8 * u.olen.toNat + u.pend.toNat

/-- `t` is `s` after a PUTBITS that was answered OK: the low `nbits` bits of the value follow the stream (R163). -/
structure BitsPut (value : BitVec 32) (nbits : Nat) (s t : State) : Prop where
  writing : Writing t
  answered : okValue t = some 0
  ocap : t.bpw.ocap = s.bpw.ocap
  bits : bitsWritten t.bpw = bitsWritten s.bpw + nbits
  packed : packedValue t.bpw = packedValue s.bpw + value.toNat % 2 ^ nbits * 2 ^ bitsWritten s.bpw

/-- In an open session with room a PUTBITS is answered OK (R162, R163). -/
theorem exec_bpwPutbits_ok {s : State} {value : BitVec 32} {nbits : BitVec 8} (hs : Writing s) (hn : nbits.toNat ≤ maxNbits)
    (hroom : bitsWritten s.bpw + nbits.toNat ≤ 8 * s.bpw.ocap.toNat) :
    ∃ t, exec (.bpwPutbits value nbits) s = .next t ∧ BitsPut value nbits.toNat s t := by
  obtain ⟨hinv, hst, herr⟩ := hs
  have ⟨⟨_, hbuf, _, _⟩, _, _, hbpw, _, _, _⟩ := hinv
  obtain ⟨u, hu, _, hst', herr', hocap, _, hbits, hpacked, _⟩ := packBits_ok (value := value) hbuf hbpw hn hroom
  rw [bitsWritten] at hroom
  have hexec : exec (.bpwPutbits value nbits) s = .next ((s.setBpw u).answer .ok 0) := by
    simp only [exec, execBpwPutbits, hst, herr, dataGate_ok, if_neg (not_lt.2 hn), if_pos hroom, hu, orFault_ok]
    rfl
  exact ⟨_, hexec, ⟨exec_keepsInv hinv hexec, hst'.trans hst, herr'.trans herr⟩, by simp, hocap, hbits, hpacked⟩

/-- A run whose first command is answered OK goes on from the state that command leaves. -/
theorem runOk_cons {i : Instr} {is : List Instr} {s t : State} {v : Reg32} (h : exec i s = .next t) (hv : okValue t = some v) :
    runOk (i :: is) s = (runOk is t).map fun r => (r.1, v :: r.2) := by
  simp only [runOk, h, hv]

/-- The number of a 32-bit word, by its halves. -/
theorem toNat_halves (v : BitVec 32) :
    v.toNat = (v &&& 0xFFFF).toNat % 2 ^ 16 + (v >>> 16).toNat % 2 ^ 16 * 2 ^ 16 := by
  have hlow : (v &&& 0xFFFF).toNat = v.toNat % 2 ^ 16 := by
    rw [BitVec.toNat_and]
    exact Nat.and_two_pow_sub_one_eq_mod v.toNat 16
  have hhigh : (v >>> 16).toNat = v.toNat / 2 ^ 16 := by
    rw [BitVec.toNat_ushiftRight, Nat.shiftRight_eq_div_pow]
  have := v.isLt
  omega

/-- Settles O40: two PUTBITS of 16 bits with room for both, each a half of the value above the stream so far. -/
theorem wideValueIsWrittenInHalves : Obligations.WideValueIsWrittenInHalves := by
  intro v s hs hst herr hroom
  obtain ⟨t, ht, hlow⟩ := exec_bpwPutbits_ok (value := v &&& 0xFFFF) (nbits := 16) ⟨hs, hst, herr⟩ (by decide)
    (Nat.le_trans (Nat.add_le_add_left (by decide) _) hroom)
  have hroom' : bitsWritten t.bpw + (16 : BitVec 8).toNat ≤ 8 * t.bpw.ocap.toNat := by
    rw [hlow.bits, hlow.ocap]
    exact hroom
  obtain ⟨t', ht', hhigh⟩ := exec_bpwPutbits_ok (value := v >>> 16) (nbits := 16) hlow.writing (by decide) hroom'
  refine ⟨_, t', rfl, rfl, ?_, ?_⟩
  · rw [runOk_cons ht hlow.answered, runOk_cons ht' hhigh.answered]
    rfl
  · have hn : (16 : BitVec 8).toNat = 16 := rfl
    rw [hhigh.packed, hlow.packed, hlow.bits, hn]
    conv_rhs => rw [toNat_halves v]
    rw [pow_add, bitsWritten]
    ring

end Sys2Proof.Machine
end

section
/-!
SUPPORT. The commands of the range coder's encoder (spec/40_range_coder.md R122, R130 to R135): what each answers in each lifecycle
and error state, and the interval and the stream it leaves.
-/
namespace Sys2Proof.Machine

/-- Settles O27: the bounds of `split_bounds`, and `254 · 255` as the largest product. -/
theorem splitLeavesBothNonEmpty : Obligations.SplitLeavesBothNonEmpty := by
  refine ⟨fun range prob h1 h2 _ h4 => ?_, by decide, by decide, by decide, by decide, by decide, by decide⟩
  obtain ⟨hlow, hhigh⟩ := split_bounds h1 (Nat.lt_succ_of_le h4)
  refine ⟨by rw [split, Nat.shiftRight_eq_div_pow], ?_, hlow, by omega⟩
  calc (range - 1) * prob ≤ 254 * 255 := Nat.mul_le_mul (by omega) h4
    _ = 64770 := rfl

/-! ### The gate -/

@[simp] theorem dataGate_idle (err : Status) : dataGate .idle err = some .state := rfl

theorem dataGate_error {err : Status} (h : err ≠ .ok) : dataGate .active err = some err := by
  rw [dataGate, if_neg (by decide), if_neg h]

/-! ### INIT and ABORT -/

/-- INIT in IDLE with a budget in its range opens a session (R130). -/
theorem exec_rceInit_opens {cap : BitVec 32} {s : State} (hst : s.rce.st = .idle) (h1 : 1 ≤ cap.toNat)
    (hcap : cap.toNat ≤ s.cfg.bufBytes) :
    exec (.rceInit cap) s = .next ((s.setRce (openRce s.rce cap)).answer .ok 0) := by
  have hne : ¬ s.rce.st = .active := by simp [hst]
  simp only [exec, execRceInit, if_neg hne, if_pos (And.intro h1 hcap)]
  rfl

/-- Settles O26: the three branches of INIT. -/
theorem rceInitResult : Obligations.RceInitResult := by
  intro cap s
  refine ⟨decodeOfEncodeIsIdentity (.rceInit cap), fun hst => ?_, fun hst hcap => ?_, exec_rceInit_opens⟩
  · simp only [exec, execRceInit, if_pos hst]
    rfl
  · have hne : ¬ s.rce.st = .active := by simp [hst]
    have hcap' : ¬ (1 ≤ cap.toNat ∧ cap.toNat ≤ s.cfg.bufBytes) := by omega
    simp only [exec, execRceInit, if_neg hne, if_neg hcap']
    rfl

/-- Settles O30: the two branches of ABORT. -/
theorem rceAbortResult : Obligations.RceAbortResult := by
  refine fun s => ⟨decodeOfEncodeIsIdentity .rceAbort, fun hst => ?_, fun hst => ?_⟩
  · simp only [exec, execRceAbort, if_pos hst]
    rfl
  · have hne : ¬ s.rce.st = .idle := by simp [hst]
    simp only [exec, execRceAbort, if_neg hne]
    rfl

/-! ### PUTBIT -/

/-- The window of the chosen sub-interval is the low byte of its lower end (R123, R131). -/
theorem chooseInterval_low (range low : BitVec 8) (bit : Bool) (prob : BitVec 8) :
    (chooseInterval range low bit prob).low = BitVec.ofNat 8 (low.toNat + lowerEndStep range bit prob) := by
  cases bit <;> simp [chooseInterval, lowerEndStep]

/-- The window carries exactly when the lower end leaves 8 bits (R131). -/
theorem chooseInterval_carries (range low : BitVec 8) (bit : Bool) (prob : BitVec 8) :
    (chooseInterval range low bit prob).carries = decide (256 ≤ low.toNat + lowerEndStep range bit prob) := by
  have := low.isLt
  cases bit with
  | false => exact (decide_eq_false (show ¬ 256 ≤ low.toNat + 0 by omega)).symm
  | true => rfl

/-- An open encoder session without error. -/
structure Encoding (s : State) : Prop where
  inv : s.Inv
  st : s.rce.st = .active
  err : s.rce.err = .ok

theorem Encoding.bufBytes_le {s : State} (h : Encoding s) : s.cfg.bufBytes ≤ 2 ^ 28 := by
  obtain ⟨⟨_, hbuf, _, _⟩, _⟩ := h.inv
  exact hbuf

theorem Encoding.rceInv {s : State} (h : Encoding s) : rceInv s.cfg s.rce := by
  obtain ⟨_, hrce, _⟩ := h.inv
  exact hrce

theorem Encoding.openInv {s : State} (h : Encoding s) : rceOpenInv s.cfg s.rce := h.rceInv.openInv (by simp [h.st])

theorem Encoding.range_ge {s : State} (h : Encoding s) : 128 ≤ s.rce.range.toNat := by
  obtain ⟨hrange, _⟩ := h.openInv
  exact hrange

theorem Encoding.gate {s : State} (h : Encoding s) : dataGate s.rce.st s.rce.err = none := by
  rw [h.st, h.err, dataGate_ok]

theorem Encoding.asmOk {s : State} (h : Encoding s) : AsmOk s.cfg s.rce := h.rceInv.asmOk h.openInv

/-- The bits a PUTBIT would have used of the budget, with those of the window (R129, R131). -/
def bitsAfter (u : Rce) (bit : Bool) (prob : BitVec 8) : Nat :=
  u.bitpos.toNat + nshift (chooseInterval u.range u.low bit prob).range + 8

theorem exec_rcePutbit_gated {bit : Bool} {prob : BitVec 8} {s : State} {e : Status}
    (h : dataGate s.rce.st s.rce.err = some e) : exec (.rcePutbit bit prob) s = .next (s.answer e 0) := by
  simp only [exec, execRcePutbit, h]
  rfl

/-- In an open session without error a probability 0 is refused (R131). -/
theorem exec_rcePutbit_zero {bit : Bool} {s : State} (hst : s.rce.st = .active) (herr : s.rce.err = .ok) :
    exec (.rcePutbit bit 0) s = .next ((s.setRce { s.rce with err := .operand }).answer .operand 0) := by
  have hg : dataGate s.rce.st s.rce.err = none := by rw [hst, herr, dataGate_ok]
  simp only [exec, execRcePutbit, hg, if_true]
  rfl

/-- A symbol that would not leave the finished stream inside the budget is refused (R129, R131). -/
theorem exec_rcePutbit_full {bit : Bool} {prob : BitVec 8} {s : State} (h : Encoding s) (hp : prob ≠ 0)
    (hfull : ¬ bitsAfter s.rce bit prob ≤ 8 * s.rce.ocap.toNat) :
    exec (.rcePutbit bit prob) s = .next ((s.setRce { s.rce with err := .capacity }).answer .capacity 0) := by
  rw [bitsAfter] at hfull
  simp only [exec, execRcePutbit, h.gate, if_neg hp, if_neg (not_lt.2 h.range_ge), if_neg hfull]
  rfl

/-- A symbol with room in the budget is coded (R131). -/
theorem exec_rcePutbit_coded {bit : Bool} {prob : BitVec 8} {s : State} {u : Rce} (h : Encoding s) (hp : prob ≠ 0)
    (hroom : bitsAfter s.rce bit prob ≤ 8 * s.rce.ocap.toNat)
    (hu : codeBit s.cfg (chooseInterval s.rce.range s.rce.low bit prob) s.rce = .ok u) :
    exec (.rcePutbit bit prob) s = .next ((s.setRce u).answer .ok 0) := by
  rw [bitsAfter] at hroom
  simp only [exec, execRcePutbit, h.gate, if_neg hp, if_neg (not_lt.2 h.range_ge), if_pos hroom, hu,
    orFault_ok]
  rfl

/-- Settles O28: the gate, the two refusals, and for an accepted symbol the laws of `codeBit`. -/
theorem rcePutbitResult : Obligations.RcePutbitResult := by
  intro bit prob s
  refine ⟨decodeOfEncodeIsIdentity (.rcePutbit bit prob), fun hst => exec_rcePutbit_gated (by rw [hst, dataGate_idle]),
    fun hst herr => exec_rcePutbit_gated (by rw [hst, dataGate_error herr]), ?_, ?_⟩
  · rintro hst herr rfl
    exact exec_rcePutbit_zero hst herr
  · intro hs hst herr hp sp r sum
    have h : Encoding s := ⟨hs, hst, herr⟩
    have hr : (chooseInterval s.rce.range s.rce.low bit prob).range = r := by cases bit <;> rfl
    have hsum : s.rce.low.toNat + lowerEndStep s.rce.range bit prob = sum := by cases bit <;> rfl
    obtain ⟨hr1, hr2, _⟩ := chooseInterval_range (low := s.rce.low) (bit := bit) (prob := prob) h.range_ge
    rw [hr] at hr1 hr2
    obtain ⟨hband1, hband2⟩ := nshift_band hr1 hr2
    refine ⟨nshift r, nshift_le r, hband1, Nat.le_of_lt_succ hband2, ?_⟩
    split
    · rename_i hroom
      rw [← hr] at hroom
      obtain ⟨u, hu, _, _, happ, hust, huerr, hcap, hpos, hrange, _⟩ :=
        codeBit_ok h.bufBytes_le h.asmOk h.openInv hroom
      obtain ⟨hout, hlow⟩ := codeBit_outgoing h.bufBytes_le h.asmOk h.openInv hroom hu
      rw [chooseInterval_low, hsum, hr] at hout hlow
      simp only [chooseInterval_carries, hsum, decide_eq_true_eq] at hout
      rw [BitVec.toNat_ofNat, Nat.mod_mul_mod] at hlow
      exact ⟨u, exec_rcePutbit_coded h hp hroom hu, hr ▸ hrange, hlow, hr ▸ hpos, hout, hust.trans hst, huerr.trans herr,
        hcap, happ.le, happ.bytes⟩
    · rename_i hfull
      rw [← hr] at hfull
      exact exec_rcePutbit_full h hp hfull

/-! ### FINISH -/

/-- FINISH of an open session without error answers the finished stream's length (R134). -/
theorem exec_rceFinish_finished {s : State} {u : Rce} (h : Encoding s) (hu : finishStream s.cfg s.rce = .ok u) :
    exec .rceFinish s = .next ((s.setRce u).answer .ok u.olen) := by
  have hne : ¬ s.rce.st = .idle := by simp [h.st]
  simp only [exec, execRceFinish, if_neg hne, if_pos h.err, hu, orFault_ok]
  rfl

/-- Settles O29: the two refusals, and for an accepted FINISH the law of `finishStream`. -/
theorem rceFinishResult : Obligations.RceFinishResult := by
  refine fun s => ⟨decodeOfEncodeIsIdentity .rceFinish, fun hst => ?_, fun hst herr => ?_, fun hs hst herr => ?_⟩
  · simp only [exec, execRceFinish, if_pos hst]
    rfl
  · have hne : ¬ s.rce.st = .idle := by simp [hst]
    simp only [exec, execRceFinish, if_neg hne, if_neg herr]
    rfl
  · have h : Encoding s := ⟨hs, hst, herr⟩
    obtain ⟨u, hu, _, hstored, happ, hidle, hok, hrange, hlow, hpos, hcap, hheld, houtst, hbyte, hcnt, hlen, hspelled⟩ :=
      finishStream_ok h.bufBytes_le h.asmOk h.openInv
    exact ⟨u, exec_rceFinish_finished h hu, hlen, hspelled, hstored, hidle, hok.trans herr, hheld, houtst, hbyte, hcnt,
      hrange, hlow, hpos, hcap, happ.le, happ.bytes⟩

end Sys2Proof.Machine
end

section
/-!
SUPPORT. The commands of the range coder's decoder (spec/40_range_coder.md R140 to R143): what each answers in each lifecycle and
error state, and the value, the interval and the position it leaves.
-/
namespace Sys2Proof.Machine

/-! ### INIT -/

/-- INIT with a length in its range reads the first byte, which decides (R140). -/
theorem exec_rcdInit_of_read {len : BitVec 32} {s : State} {v : Byte} (h1 : 1 ≤ len.toNat) (hlen : len.toNat ≤ s.cfg.bufBytes)
    (hv : s.rcd.ibuf.read 0 = some v) :
    exec (.rcdInit len) s =
      if v = 0xFF then failRcdInit s .corrupt else .next ((s.setRcd (openRcd s.rcd len v)).answer .ok 0) := by
  have hne : len ≠ 0 := by rintro rfl; exact absurd h1 (by decide)
  have hread : memRead s.cfg .rcdIbuf s.rcd.ibuf 0 = .ok v := memRead_ok_iff.2 ⟨Nat.lt_of_lt_of_le h1 hlen, hv⟩
  simp only [exec, execRcdInit, if_neg (not_lt.2 hlen), if_neg hne, hread, orFault_ok]
  rfl

/-- Settles O33: the checks of INIT in their order, the last one on the byte it reads. -/
theorem rcdInitResult : Obligations.RcdInitResult := by
  refine fun len s => ⟨decodeOfEncodeIsIdentity (.rcdInit len), fun hsize => ?_, ?_, fun h1 hlen hv => ?_,
    fun v h1 hlen hv hne => ?_⟩
  · simp only [exec, execRcdInit, if_pos hsize]
    rfl
  · rintro rfl
    have hsize : ¬ s.cfg.bufBytes < (0 : BitVec 32).toNat := Nat.not_lt_zero _
    simp only [exec, execRcdInit, if_neg hsize, if_true]
    rfl
  · rw [exec_rcdInit_of_read h1 hlen hv, if_pos rfl]
    rfl
  · rw [exec_rcdInit_of_read h1 hlen hv, if_neg hne]
    rfl

/-! ### GETBIT -/

/-- `n` stream bits are a number below 2^n. -/
theorem streamBits_lt (m : Memory 8) (i n : Nat) : streamBits m i n < 2 ^ n := by
  induction n with
  | zero => simp [streamBits]
  | succ n ih =>
    have := (streamBit m (i + n)).toNat_le
    rw [streamBits, pow_succ]
    omega

/-- The choice of GETBIT: the bit is 1 exactly when the value reaches the split (R142). -/
theorem decideBit_eq (range value prob : BitVec 8) :
    decideBit range value prob =
      (decide (split range.toNat prob.toNat ≤ value.toNat),
        if split range.toNat prob.toNat ≤ value.toNat then value.toNat - split range.toNat prob.toNat else value.toNat,
        if split range.toNat prob.toNat ≤ value.toNat then range.toNat - split range.toNat prob.toNat
          else split range.toNat prob.toNat) := by
  by_cases h : split range.toNat prob.toNat ≤ value.toNat
  · simp only [decideBit, if_pos h, decide_eq_true h]
  · simp only [decideBit, if_neg h, decide_eq_false h]

/-- An open decoder session without error. -/
structure Decoding (s : State) : Prop where
  inv : s.Inv
  st : s.rcd.st = .active
  err : s.rcd.err = .ok

theorem Decoding.bufBytes_le {s : State} (h : Decoding s) : s.cfg.bufBytes ≤ 2 ^ 28 := by
  obtain ⟨⟨_, hbuf, _, _⟩, _⟩ := h.inv
  exact hbuf

theorem Decoding.openInv {s : State} (h : Decoding s) : rcdOpenInv s.cfg s.rcd := by
  obtain ⟨_, _, hrcd, _⟩ := h.inv
  exact rcdInv.openInv hrcd (by simp [h.st])

theorem Decoding.range_ge {s : State} (h : Decoding s) : 128 ≤ s.rcd.range.toNat := by
  obtain ⟨hrange, _⟩ := h.openInv
  exact hrange

/-- What the choice of GETBIT leaves is a value below a width that fits 8 bits (R36, R142). -/
theorem Decoding.decideBit_bounds {s : State} {prob : BitVec 8} {b : Bool} {v r : Nat} (h : Decoding s)
    (hd : decideBit s.rcd.range s.rcd.value prob = (b, v, r)) : v < r ∧ r < 256 := by
  obtain ⟨hrange, hvalue, _⟩ := h.openInv
  exact Machine.decideBit_bounds hrange hvalue hd

theorem Decoding.gate {s : State} (h : Decoding s) : dataGate s.rcd.st s.rcd.err = none := by
  rw [h.st, h.err, dataGate_ok]

/-- The value `v` of a choice, shifted, with the next stream bits (R142). -/
def nextValue (u : Rcd) (v n : Nat) : Nat := v * 2 ^ n + streamBits u.ibuf u.bitpos.toNat n

/-- The decoder after `n` shifts from the choice of value `v` and width `r` (R142). -/
def shifted (u : Rcd) (v r n : Nat) : Rcd :=
  { u with
    value := BitVec.ofNat 8 (nextValue u v n)
    range := BitVec.ofNat 8 (r * 2 ^ n)
    bitpos := u.bitpos + BitVec.ofNat 32 n }

/-- The bytes the next `n` stream bits stand in have been written (R141). -/
def nextBitsWritten (u : Rcd) (n : Nat) : Prop :=
  ∀ a, u.bitpos.toNat / 8 ≤ a → 8 * a < u.bitpos.toNat + n → (u.ibuf.read a).isSome

/-- A value below the width stays below it when both are shifted (R36, R142). -/
theorem nextValue_lt {u : Rcd} {v r n : Nat} (hv : v < r) : nextValue u v n < r * 2 ^ n :=
  calc nextValue u v n < (v + 1) * 2 ^ n := by
        have := streamBits_lt u.ibuf u.bitpos.toNat n
        rw [nextValue, Nat.add_mul]
        omega
    _ ≤ r * 2 ^ n := Nat.mul_le_mul_right _ hv

/-- Everything an accepted GETBIT over written bytes does (R142). -/
theorem decodeBit_ok {c : Config} (hc : c.bufBytes ≤ 2 ^ 28) {v r : Nat} {u : Rcd} (ho : rcdOpenInv c u) (hv : v < r)
    (hr : r < 256) (room : u.bitpos.toNat + nshift r ≤ 8 * u.ilen.toNat) (hw : nextBitsWritten u (nshift r)) :
    decodeBit c v r u = .ok (shifted u v r (nshift r)) := by
  obtain ⟨_, _, _, _, hlen⟩ := ho
  have hband := (nshift_band (by omega) hr).2
  have hpull := pullBits_ok (c := c) (v := v) (fun a h1 h2 => ⟨by omega, hw a (by omega) h1⟩)
    (show u.bitpos.toNat + nshift r < 2 ^ 32 by omega)
  have hvalue := fit_ok (w := 8) ((nextValue_lt (u := u) hv).trans hband)
  rw [nextValue] at hvalue
  simp only [decodeBit, hpull, bind_ok, hvalue, fit_ok (w := 8) hband, shifted, nextValue, BitVec.ofNat_add,
    BitVec.ofNat_toNat, BitVec.setWidth_eq]

theorem exec_rcdGetbit_gated {prob : BitVec 8} {s : State} {e : Status} (h : dataGate s.rcd.st s.rcd.err = some e) :
    exec (.rcdGetbit prob) s = .next (s.answer e 0) := by
  simp only [exec, execRcdGetbit, h]
  rfl

/-- In an open session without error a probability 0 is refused (R142). -/
theorem exec_rcdGetbit_zero {s : State} (hst : s.rcd.st = .active) (herr : s.rcd.err = .ok) :
    exec (.rcdGetbit 0) s = .next ((s.setRcd { s.rcd with err := .operand }).answer .operand 0) := by
  have hg : dataGate s.rcd.st s.rcd.err = none := by rw [hst, herr, dataGate_ok]
  simp only [exec, execRcdGetbit, hg, if_true]
  rfl

/-- A symbol whose shifts pass the length is refused (R143). -/
theorem exec_rcdGetbit_eos {prob : BitVec 8} {s : State} {b : Bool} {v r : Nat} (h : Decoding s) (hp : prob ≠ 0)
    (hd : decideBit s.rcd.range s.rcd.value prob = (b, v, r))
    (hend : ¬ s.rcd.bitpos.toNat + nshift r ≤ 8 * s.rcd.ilen.toNat) :
    exec (.rcdGetbit prob) s = .next ((s.setRcd { s.rcd with err := .eos }).answer .eos 0) := by
  simp only [exec, execRcdGetbit, h.gate, if_neg hp, if_neg (not_lt.2 h.range_ge), hd, if_neg hend]
  rfl

/-- A symbol whose shifts stay inside the length, over written bytes, is decoded (R142). -/
theorem exec_rcdGetbit_decoded {prob : BitVec 8} {s : State} {b : Bool} {v r : Nat} (h : Decoding s) (hp : prob ≠ 0)
    (hd : decideBit s.rcd.range s.rcd.value prob = (b, v, r))
    (room : s.rcd.bitpos.toNat + nshift r ≤ 8 * s.rcd.ilen.toNat) (hw : nextBitsWritten s.rcd (nshift r)) :
    exec (.rcdGetbit prob) s =
      .next ((s.setRcd (shifted s.rcd v r (nshift r))).answer .ok ((BitVec.ofBool b).setWidth 32)) := by
  obtain ⟨hv, hr⟩ := h.decideBit_bounds hd
  simp only [exec, execRcdGetbit, h.gate, if_neg hp, if_neg (not_lt.2 h.range_ge), hd, if_pos room,
    decodeBit_ok h.bufBytes_le h.openInv hv hr room hw, orFault_ok]
  rfl

/-- Settles O34: the gate, the two refusals, and for an accepted symbol the law of `decodeBit`. -/
theorem rcdGetbitResult : Obligations.RcdGetbitResult := by
  intro prob s
  refine ⟨decodeOfEncodeIsIdentity (.rcdGetbit prob), fun hst => exec_rcdGetbit_gated (by rw [hst, dataGate_idle]),
    fun hst herr => exec_rcdGetbit_gated (by rw [hst, dataGate_error herr]), ?_, ?_⟩
  · rintro hst herr rfl
    exact exec_rcdGetbit_zero hst herr
  · intro hs hst herr hp sp one v r
    have h : Decoding s := ⟨hs, hst, herr⟩
    have hd : decideBit s.rcd.range s.rcd.value prob = (decide one, v, r) := decideBit_eq ..
    obtain ⟨hv, hr⟩ := h.decideBit_bounds hd
    obtain ⟨hband1, hband2⟩ := nshift_band (by omega) hr
    refine ⟨nshift r, nshift_le r, hband1, Nat.le_of_lt_succ hband2, ?_⟩
    split
    · rename_i room
      refine fun hw => ⟨nextValue_lt hv, ?_⟩
      have hbit : (BitVec.ofBool (decide one)).setWidth 32 = if one then 1 else 0 := by
        by_cases hone : one <;> simp [hone]
      rw [exec_rcdGetbit_decoded h hp hd room hw, hbit]
      rfl
    · rename_i hend
      exact exec_rcdGetbit_eos h hp hd hend

end Sys2Proof.Machine
end

section
/-!
SUPPORT. Encoder sessions (spec/40_range_coder.md R123, R129, R136, R146): the intervals of a list of symbols nest, the encoder's
registers follow them, and a session runs OK to its end exactly when its finished length fits the budget.
-/
namespace Sys2Proof.Machine

/-! ### Runs -/

/-- A run's first command is answered OK and the rest runs from the state it leaves. -/
theorem runOk_cons_eq_some {i : Instr} {is : List Instr} {s : State} {r : State × List Reg32}
    (h : runOk (i :: is) s = some r) :
    ∃ t v ws, exec i s = .next t ∧ okValue t = some v ∧ runOk is t = some (r.1, ws) ∧ r.2 = v :: ws := by
  rw [runOk] at h
  cases hx : exec i s with
  | next t =>
    cases hv : okValue t with
    | none => simp [hx, hv] at h
    | some v =>
      simp only [hx, hv, Option.map_eq_some_iff] at h
      obtain ⟨⟨t', ws⟩, hrest, rfl⟩ := h
      exact ⟨t, v, ws, rfl, hv, hrest, rfl⟩
  | fault f => simp [hx] at h
  | refused f => simp [hx] at h

/-- A run goes on from where its first part ends. -/
theorem runOk_append {is js : List Instr} {s t : State} {vs : List Reg32} (h : runOk is s = some (t, vs)) :
    runOk (is ++ js) s = (runOk js t).map fun r => (r.1, vs ++ r.2) := by
  induction is generalizing s vs with
  | nil =>
    cases h
    simp
  | cons i is ih =>
    obtain ⟨s', v, ws, hx, hv, hrest, rfl⟩ := runOk_cons_eq_some h
    rw [List.cons_append, runOk_cons hx hv, ih hrest, Option.map_map]
    rfl

/-! ### The intervals of a list of symbols -/

/-- The width a symbol chooses, before the shifts (R123). -/
def Coded.width (c : Coded) (y : Bool × BitVec 8) : Nat :=
  if y.1 then c.range - split c.range y.2.toNat else split c.range y.2.toNat

/-- How far above the lower end the chosen sub-interval begins (R123). -/
def Coded.offset (c : Coded) (y : Bool × BitVec 8) : Nat := if y.1 then split c.range y.2.toNat else 0

@[simp] theorem codedStep_range (c : Coded) (y : Bool × BitVec 8) :
    (codedStep c y).range = c.width y * 2 ^ nshift (c.width y) := rfl

@[simp] theorem codedStep_low (c : Coded) (y : Bool × BitVec 8) :
    (codedStep c y).low = (c.low + c.offset y) * 2 ^ nshift (c.width y) := rfl

@[simp] theorem codedStep_shifts (c : Coded) (y : Bool × BitVec 8) :
    (codedStep c y).shifts = c.shifts + nshift (c.width y) := rfl

/-- A width between two symbols (R122, R128). -/
structure Coded.InBand (c : Coded) : Prop where
  low : 128 ≤ c.range
  high : c.range < 256

/-- The chosen sub-interval is not empty and lies inside the interval (R122, R123). -/
theorem Coded.InBand.width_bounds {c : Coded} (h : c.InBand) (y : Bool × BitVec 8) :
    1 ≤ c.width y ∧ c.offset y + c.width y ≤ c.range := by
  obtain ⟨h1, h2⟩ := split_bounds (prob := y.2.toNat) h.low y.2.isLt
  unfold Coded.width Coded.offset
  split <;> omega

theorem Coded.InBand.step {c : Coded} (h : c.InBand) (y : Bool × BitVec 8) : (codedStep c y).InBand := by
  obtain ⟨h1, h2⟩ := h.width_bounds y
  have hhigh := h.high
  obtain ⟨hband1, hband2⟩ := nshift_band h1 (by omega)
  exact ⟨hband1, hband2⟩

theorem Coded.InBand.foldl {c : Coded} (h : c.InBand) (syms : List (Bool × BitVec 8)) :
    (syms.foldl codedStep c).InBand := by
  induction syms generalizing c with
  | nil => exact h
  | cons y ys ih => exact ih (h.step y)

/-- The interval `f` lies inside `c`, after `n` more shifts (R136). -/
structure Nested (n : Nat) (c f : Coded) : Prop where
  shifts : f.shifts = c.shifts + n
  lower : c.low * 2 ^ n ≤ f.low
  upper : f.low + f.range ≤ (c.low + c.range) * 2 ^ n

theorem Nested.refl (c : Coded) : Nested 0 c c := ⟨rfl, by simp, by simp⟩

theorem Nested.trans {n k : Nat} {c e f : Coded} (h : Nested n c e) (h' : Nested k e f) : Nested (n + k) c f where
  shifts := by rw [h'.shifts, h.shifts, Nat.add_assoc]
  lower :=
    calc c.low * 2 ^ (n + k) = c.low * 2 ^ n * 2 ^ k := by ring
      _ ≤ e.low * 2 ^ k := Nat.mul_le_mul_right _ h.lower
      _ ≤ f.low := h'.lower
  upper :=
    calc f.low + f.range ≤ (e.low + e.range) * 2 ^ k := h'.upper
      _ ≤ (c.low + c.range) * 2 ^ n * 2 ^ k := Nat.mul_le_mul_right _ h.upper
      _ = (c.low + c.range) * 2 ^ (n + k) := by ring

theorem nested_codedStep {c : Coded} (h : c.InBand) (y : Bool × BitVec 8) :
    Nested (nshift (c.width y)) c (codedStep c y) where
  shifts := rfl
  lower := Nat.mul_le_mul_right _ (Nat.le_add_right _ _)
  upper := by
    obtain ⟨_, hle⟩ := h.width_bounds y
    rw [codedStep_low, codedStep_range, ← Nat.add_mul]
    exact Nat.mul_le_mul_right _ (by omega)

/-- Whatever the symbols, the interval after them lies inside the one before (R136). -/
theorem exists_nested_foldl {c : Coded} (h : c.InBand) (syms : List (Bool × BitVec 8)) :
    ∃ n, Nested n c (syms.foldl codedStep c) := by
  induction syms generalizing c with
  | nil => exact ⟨0, Nested.refl c⟩
  | cons y ys ih =>
    obtain ⟨n, hn⟩ := ih (h.step y)
    exact ⟨_, (nested_codedStep h y).trans hn⟩

/-- The interval RCE.INIT and RCD.INIT set (R130, R140). -/
def firstInterval : Coded := ⟨255, 0, 0⟩

theorem firstInterval_inBand : firstInterval.InBand := ⟨by decide, by decide⟩

theorem coded_eq_foldl (syms : List (Bool × BitVec 8)) : coded syms = syms.foldl codedStep firstInterval := rfl

theorem coded_inBand (syms : List (Bool × BitVec 8)) : (coded syms).InBand := firstInterval_inBand.foldl syms

/-- The final interval lies below 255/256 (R136). -/
theorem coded_upper (syms : List (Bool × BitVec 8)) :
    (coded syms).low + (coded syms).range ≤ 255 * 2 ^ (coded syms).shifts := by
  obtain ⟨n, hshifts, _, hupper⟩ := exists_nested_foldl firstInterval_inBand syms
  rw [← coded_eq_foldl] at hshifts hupper
  rw [hshifts]
  simpa [firstInterval] using hupper

/-! ### An encoder at an interval -/

/-- An open encoder session with this budget whose registers stand for the interval (R136). -/
structure Encodes (s : State) (cap : BitVec 32) (c : Coded) : Prop extends Encoding s where
  ocap : s.rce.ocap = cap
  range : s.rce.range.toNat = c.range
  value : codeValue s.rce = c.low
  shifts : s.rce.bitpos.toNat = c.shifts

theorem Encodes.room {s : State} {cap : BitVec 32} {c : Coded} (h : Encodes s cap c) : c.shifts + 8 ≤ 8 * cap.toNat := by
  obtain ⟨_, _, _, hroom, _⟩ := h.openInv
  rwa [h.shifts, h.ocap] at hroom

theorem Encodes.inBand {s : State} {cap : BitVec 32} {c : Coded} (h : Encodes s cap c) : c.InBand :=
  ⟨h.range ▸ h.range_ge, h.range ▸ s.rce.range.isLt⟩

theorem Encodes.width_eq {s : State} {cap : BitVec 32} {c : Coded} (h : Encodes s cap c) (y : Bool × BitVec 8) :
    (chooseInterval s.rce.range s.rce.low y.1 y.2).range = c.width y := by
  rw [chooseInterval_range_eq, h.range, Coded.width]

theorem Encodes.bitsAfter_eq {s : State} {cap : BitVec 32} {c : Coded} (h : Encodes s cap c) (y : Bool × BitVec 8) :
    bitsAfter s.rce y.1 y.2 = (codedStep c y).shifts + 8 := by
  rw [bitsAfter, h.width_eq, h.shifts, codedStep_shifts]

/-- INIT opens a session at the first interval (R130). -/
theorem exec_rceInit_encodes {s : State} {cap : BitVec 32} (hs : s.Inv) (hst : s.rce.st = .idle) (h1 : 1 ≤ cap.toNat)
    (hcap : cap.toNat ≤ s.cfg.bufBytes) :
    ∃ t, exec (.rceInit cap) s = .next t ∧ okValue t = some 0 ∧ Encodes t cap firstInterval := by
  have hx := exec_rceInit_opens hst h1 hcap
  have hvalue : codeValue (openRce s.rce cap) = 0 := by simp [openRce, codeValue, leftBits, spelledMsb]
  exact ⟨_, hx, by simp, ⟨exec_keepsInv hs hx, rfl, rfl⟩, rfl, rfl, hvalue, rfl⟩

/-- A symbol with room takes the encoder to the next interval (R131, R136). -/
theorem Encodes.put {s : State} {cap : BitVec 32} {c : Coded} {y : Bool × BitVec 8} (h : Encodes s cap c) (hp : y.2 ≠ 0)
    (hroom : (codedStep c y).shifts + 8 ≤ 8 * cap.toNat) :
    ∃ t, exec (.rcePutbit y.1 y.2) s = .next t ∧ okValue t = some 0 ∧ Encodes t cap (codedStep c y) := by
  rw [← h.bitsAfter_eq, ← h.ocap] at hroom
  obtain ⟨u, hu, _, _, _, hst, herr, hocap, hpos, hrange, hvalue⟩ := codeBit_ok h.bufBytes_le h.asmOk h.openInv hroom
  have hoffset : lowerEndStep s.rce.range y.1 y.2 = c.offset y := by rw [lowerEndStep, h.range, Coded.offset]
  have hx := exec_rcePutbit_coded h.toEncoding hp hroom hu
  rw [h.width_eq] at hpos hrange hvalue
  rw [h.shifts] at hpos
  rw [h.value, hoffset] at hvalue
  exact ⟨_, hx, by simp, ⟨exec_keepsInv h.inv hx, hst.trans h.st, herr.trans h.err⟩, hocap.trans h.ocap, hrange, hvalue, hpos⟩

/-- A symbol answered OK has a probability that is not 0, and room (R129, R131). -/
theorem Encodes.of_put {s t : State} {cap : BitVec 32} {c : Coded} {y : Bool × BitVec 8} {v : Reg32} (h : Encodes s cap c)
    (hx : exec (.rcePutbit y.1 y.2) s = .next t) (hv : okValue t = some v) :
    y.2 ≠ 0 ∧ (codedStep c y).shifts + 8 ≤ 8 * cap.toNat := by
  have hp : y.2 ≠ 0 := by
    intro h0
    rw [h0, exec_rcePutbit_zero h.st h.err] at hx
    cases hx
    simp at hv
  refine ⟨hp, ?_⟩
  rw [← h.bitsAfter_eq, ← h.ocap]
  by_contra hfull
  rw [exec_rcePutbit_full h.toEncoding hp hfull] at hx
  cases hx
  simp at hv

/-- What FINISH leaves of a session that ended at an interval (R134, R136). -/
structure Finished (t : State) (f : Coded) : Prop where
  range : t.rce.range.toNat = f.range
  shifts : t.rce.bitpos.toNat = f.shifts
  length : t.rce.olen.toNat = (f.shifts + 8 + 7) / 8
  stored : storedBelow t.rce.obuf t.rce.olen.toNat
  spelled : spelledMsb t.rce.obuf t.rce.olen.toNat = f.low * 2 ^ (8 * t.rce.olen.toNat - (f.shifts + 8))

/-- FINISH is answered OK and leaves the lower end of the interval as the stream (R134, R136). -/
theorem Encodes.finish {s : State} {cap : BitVec 32} {c : Coded} (h : Encodes s cap c) :
    ∃ t, exec .rceFinish s = .next t ∧ okValue t = some t.rce.olen ∧ Finished t c := by
  obtain ⟨u, hu, _, hstored, _, _, _, hrange, _, hpos, _, _, _, _, _, hlen, hspelled⟩ :=
    finishStream_ok h.bufBytes_le h.asmOk h.openInv
  have hx := exec_rceFinish_finished h.toEncoding hu
  rw [h.shifts] at hlen
  rw [h.value, h.shifts] at hspelled
  exact ⟨_, hx, by simp, hrange ▸ h.range, hpos ▸ h.shifts, hlen, hstored, hspelled⟩

/-! ### Whole sessions -/

/-- The PUTBITs of a list of symbols. -/
def putRun (syms : List (Bool × BitVec 8)) : List Instr := syms.map fun y => .rcePutbit y.1 y.2

theorem encodeRun_eq (cap : BitVec 32) (syms : List (Bool × BitVec 8)) :
    encodeRun cap syms = (.rceInit cap :: putRun syms) ++ [.rceFinish] := rfl

/-- With room for all of them, symbols take the encoder from interval to interval (R131, R136). -/
theorem Encodes.puts {s : State} {cap : BitVec 32} {c : Coded} {syms : List (Bool × BitVec 8)} (h : Encodes s cap c)
    (hp : ∀ y ∈ syms, y.2 ≠ 0) (hroom : (syms.foldl codedStep c).shifts + 8 ≤ 8 * cap.toNat) :
    ∃ t, runOk (putRun syms) s = some (t, List.replicate syms.length 0) ∧ Encodes t cap (syms.foldl codedStep c) := by
  induction syms generalizing s c with
  | nil => exact ⟨s, rfl, h⟩
  | cons y ys ih =>
    obtain ⟨hy, hys⟩ := List.forall_mem_cons.1 hp
    obtain ⟨n, hshifts, _, _⟩ := exists_nested_foldl (h.inBand.step y) ys
    rw [List.foldl_cons] at hroom
    obtain ⟨s', hx, hv, h'⟩ := h.put hy (by omega)
    obtain ⟨t, hrun, ht⟩ := ih h' hys hroom
    exact ⟨t, by rw [putRun, List.map_cons, runOk_cons hx hv, ← putRun, hrun]; rfl, ht⟩

/-- Symbols that were all answered OK had probabilities that are not 0, and room (R129, R131). -/
theorem Encodes.of_puts {s : State} {cap : BitVec 32} {c : Coded} {syms : List (Bool × BitVec 8)} {is : List Instr}
    {r : State × List Reg32} (h : Encodes s cap c) (hrun : runOk (putRun syms ++ is) s = some r) :
    (∀ y ∈ syms, y.2 ≠ 0) ∧ (syms.foldl codedStep c).shifts + 8 ≤ 8 * cap.toNat := by
  induction syms generalizing s c r with
  | nil => exact ⟨nofun, h.room⟩
  | cons y ys ih =>
    obtain ⟨s', v, ws, hx, hv, hrest, _⟩ := runOk_cons_eq_some hrun
    obtain ⟨hy, hroom⟩ := h.of_put hx hv
    obtain ⟨t, hx', _, h'⟩ := h.put hy hroom
    obtain rfl : s' = t := Host.Outcome.next.inj (hx.symm.trans hx')
    obtain ⟨hys, hroom'⟩ := ih h' hrest
    exact ⟨List.forall_mem_cons.2 ⟨hy, hys⟩, hroom'⟩

/-- What a session of these symbols with this budget needs to run OK to its end (R129, R130, R131). -/
structure SessionFits (s : State) (cap : BitVec 32) (syms : List (Bool × BitVec 8)) : Prop where
  st : s.rce.st = .idle
  pos : 1 ≤ cap.toNat
  le : cap.toNat ≤ s.cfg.bufBytes
  probs : ∀ y ∈ syms, y.2 ≠ 0
  room : (coded syms).shifts + 8 ≤ 8 * cap.toNat

/-- The first symbols of a session that fits would fit too: the later ones only add shifts. -/
theorem SessionFits.take {s : State} {cap : BitVec 32} {syms : List (Bool × BitVec 8)} (h : SessionFits s cap syms)
    (k : Nat) : SessionFits s cap (syms.take k) := by
  obtain ⟨hst, h1, hcap, hp, hroom⟩ := h
  obtain ⟨n, hshifts, _, _⟩ := exists_nested_foldl (coded_inBand (syms.take k)) (syms.drop k)
  rw [coded_eq_foldl, ← List.foldl_append, List.take_append_drop, ← coded_eq_foldl, ← coded_eq_foldl] at hshifts
  exact ⟨hst, h1, hcap, fun y hy => hp y (List.mem_of_mem_take hy), by omega⟩

/-- A session that fits, before its FINISH. -/
theorem SessionFits.exists_encodes {s : State} {cap : BitVec 32} {syms : List (Bool × BitVec 8)} (hs : s.Inv)
    (h : SessionFits s cap syms) :
    ∃ e, runOk (.rceInit cap :: putRun syms) s = some (e, List.replicate (syms.length + 1) 0) ∧
      Encodes e cap (coded syms) := by
  obtain ⟨s', hx, hv, h'⟩ := exec_rceInit_encodes hs h.st h.pos h.le
  obtain ⟨e, hrun, he⟩ := h'.puts h.probs h.room
  exact ⟨e, by rw [runOk_cons hx hv, hrun]; rfl, he⟩

/-- A session that fits runs OK to its end (R129, R136). -/
theorem SessionFits.exists_finished {s : State} {cap : BitVec 32} {syms : List (Bool × BitVec 8)} (hs : s.Inv)
    (h : SessionFits s cap syms) :
    ∃ t, runOk (encodeRun cap syms) s = some (t, List.replicate (syms.length + 1) 0 ++ [t.rce.olen]) ∧
      Finished t (coded syms) := by
  obtain ⟨e, hrun, he⟩ := h.exists_encodes hs
  obtain ⟨t, hx, hv, ht⟩ := he.finish
  exact ⟨t, by rw [encodeRun_eq, runOk_append hrun, runOk_cons hx hv]; rfl, ht⟩

/-- A session that runs OK to its end fits (R129). -/
theorem sessionFits_of_runOk {s : State} {cap : BitVec 32} {syms : List (Bool × BitVec 8)} {r : State × List Reg32}
    (hs : s.Inv) (h : runOk (encodeRun cap syms) s = some r) : SessionFits s cap syms := by
  obtain ⟨t, v, ws, hx, hv, hrest, _⟩ := runOk_cons_eq_some h
  rcases execRceInit_next hx with ⟨_, rfl⟩ | ⟨hst, h1, hcap, rfl⟩ | ⟨_, rfl⟩
  · simp at hv
  · obtain ⟨t', hx', _, he⟩ := exec_rceInit_encodes hs hst h1 hcap
    cases hx.symm.trans hx'
    obtain ⟨hp, hroom⟩ := he.of_puts hrest
    exact ⟨hst, h1, hcap, hp, hroom⟩
  · simp at hv

/-- Settles O32: a session runs OK to its end exactly when it fits, that is, when its last PUTBIT has room. -/
theorem budgetIsOnTheFinishedStream : Obligations.BudgetIsOnTheFinishedStream := by
  intro s cap syms hs hst h1 hcap hp
  constructor
  · intro h
    obtain ⟨r, hr⟩ := Option.isSome_iff_exists.1 h
    have := (sessionFits_of_runOk hs hr).room
    omega
  · intro hlen
    obtain ⟨t, hrun, _⟩ := SessionFits.exists_finished hs ⟨hst, h1, hcap, hp, by omega⟩
    rw [hrun]
    rfl

/-- The first byte of a spelled number counts 256 to the number of bytes after it. -/
theorem byteAt_zero_mul_le_spelledMsb (m : Memory 8) (n : Nat) : byteAt m 0 * 256 ^ n ≤ spelledMsb m (n + 1) := by
  induction n with
  | zero => simp [spelledMsb]
  | succ n ih =>
    calc byteAt m 0 * 256 ^ (n + 1) = byteAt m 0 * 256 ^ n * 256 := by ring
      _ ≤ spelledMsb m (n + 1) * 256 := Nat.mul_le_mul_right _ ih
      _ ≤ spelledMsb m (n + 2) := Nat.le_add_right _ _

/-- A stream below 255/256 does not begin with 0xFF (R136). -/
theorem Finished.first_byte_lt {t : State} {syms : List (Bool × BitVec 8)} (h : Finished t (coded syms)) :
    byteAt t.rce.obuf 0 < 255 := by
  have hlen := h.length
  have hrange := (coded_inBand syms).low
  have hupper := coded_upper syms
  obtain ⟨n, hn⟩ : ∃ n, t.rce.olen.toNat = n + 1 := ⟨t.rce.olen.toNat - 1, by omega⟩
  have hspelled := h.spelled
  rw [hn] at hspelled hlen
  refine Nat.lt_of_mul_lt_mul_right (a := 256 ^ n) ?_
  calc byteAt t.rce.obuf 0 * 256 ^ n ≤ spelledMsb t.rce.obuf (n + 1) := byteAt_zero_mul_le_spelledMsb _ n
    _ = (coded syms).low * 2 ^ (8 * (n + 1) - ((coded syms).shifts + 8)) := hspelled
    _ < 255 * 2 ^ (coded syms).shifts * 2 ^ (8 * (n + 1) - ((coded syms).shifts + 8)) :=
      Nat.mul_lt_mul_of_pos_right (by omega) (by positivity)
    _ = 255 * 2 ^ (8 * n) := by
      rw [Nat.mul_assoc, ← pow_add]
      congr 2
      omega
    _ = 255 * 256 ^ n := by rw [pow_mul]; norm_num

/-- Settles O31: the session fits, the laws of its commands give its end, and the nested intervals the bound below 255/256. -/
theorem finishedStreamSpellsLowerEnd : Obligations.FinishedStreamSpellsLowerEnd := by
  intro s cap syms hs hst hcap hp hroom
  obtain ⟨t, hrun, ht⟩ := SessionFits.exists_finished hs ⟨hst, by omega, hcap, hp, hroom⟩
  exact ⟨t, _, hrun, rfl, ht.length, ht.spelled, ht.range, ht.shifts, coded_upper syms, ht.first_byte_lt⟩

end Sys2Proof.Machine
end

section
/-!
SUPPORT. The round trip (spec/40_range_coder.md R145): a stream that spells the lower end of the final interval begins, at every
symbol, inside the interval the symbols so far have reached, which is why the decoder finds the encoder's choices again.
-/
namespace Sys2Proof.Machine

/-! ### Stream bits -/

/-- Stream bits one after the other, as numbers (R66 b). -/
theorem streamBits_add (m : Memory 8) (i n k : Nat) :
    streamBits m i (n + k) = streamBits m i n * 2 ^ k + streamBits m (i + n) k := by
  induction k with
  | zero => simp [streamBits]
  | succ k ih =>
    rw [← Nat.add_assoc, streamBits, ih, streamBits, pow_succ, Nat.add_assoc i n k]
    ring

/-- The first bits of a byte are its high bits (R66 b). -/
theorem streamBits_of_byte (m : Memory 8) (a : Nat) {k : Nat} (hk : k ≤ 8) :
    streamBits m (8 * a) k = byteAt m a / 2 ^ (8 - k) := by
  induction k with
  | zero => exact (Nat.div_eq_of_lt (byteAt_lt m a)).symm
  | succ k ih =>
    have hbit : (streamBit m (8 * a + k)).toNat = byteAt m a / 2 ^ (7 - k) % 2 := by
      rw [streamBit, show (8 * a + k) / 8 = a by omega, show (8 * a + k) % 8 = k by omega, Nat.toNat_testBit]
    rw [streamBits, ih (by omega), hbit, show 8 - (k + 1) = 7 - k by omega, show 8 - k = 7 - k + 1 by omega, pow_succ,
      ← Nat.div_div_eq_div_mul, Nat.div_add_mod]

/-- The bytes of a stream and its bits spell the same number (R66 b). -/
theorem spelledMsb_eq_streamBits (m : Memory 8) (n : Nat) : spelledMsb m n = streamBits m 0 (8 * n) := by
  induction n with
  | zero => rfl
  | succ n ih =>
    rw [spelledMsb, ih, show 8 * (n + 1) = 8 * n + 8 from rfl, streamBits_add, Nat.zero_add, streamBits_of_byte m n le_rfl,
      Nat.sub_self, pow_zero, Nat.div_one]
    norm_num

/-! ### Where a finished stream begins -/

/-- The stream's first bits, as many as an interval has, stand for a point of the interval (R136). -/
def Inside (m : Memory 8) (c : Coded) : Prop :=
  c.low ≤ streamBits m 0 (c.shifts + 8) ∧ streamBits m 0 (c.shifts + 8) < c.low + c.range

/-- `len` bytes spell the lower end of an interval, with zero padding (R134, R136). -/
structure Spells (m : Memory 8) (len : Nat) (f : Coded) : Prop where
  inBand : f.InBand
  room : f.shifts + 8 ≤ 8 * len
  spelled : spelledMsb m len = f.low * 2 ^ (8 * len - (f.shifts + 8))

/-- A stream that spells the lower end of `f` begins inside every interval around `f` (R136, R145). -/
theorem Spells.inside {m : Memory 8} {len n : Nat} {c f : Coded} (h : Spells m len f) (hn : Nested n c f) : Inside m c := by
  obtain ⟨hband, hroom, hspelled⟩ := h
  obtain ⟨hshifts, hlower, hupper⟩ := hn
  have hpos : 0 < f.range := by have := hband.low; omega
  obtain ⟨e, he⟩ : ∃ e, 8 * len = f.shifts + 8 + e := ⟨8 * len - (f.shifts + 8), by omega⟩
  have hrest := streamBits_lt m (c.shifts + 8) (n + e)
  have hcut : streamBits m 0 (c.shifts + 8) * 2 ^ (n + e) + streamBits m (c.shifts + 8) (n + e) = f.low * 2 ^ e := by
    rw [he, Nat.add_sub_cancel_left, spelledMsb_eq_streamBits, he, hshifts,
      show c.shifts + n + 8 + e = c.shifts + 8 + (n + e) by omega, streamBits_add, Nat.zero_add] at hspelled
    exact hspelled
  constructor
  · refine Nat.le_of_lt_succ (Nat.lt_of_mul_lt_mul_right (a := 2 ^ (n + e)) ?_)
    calc c.low * 2 ^ (n + e) = c.low * 2 ^ n * 2 ^ e := by ring
      _ ≤ f.low * 2 ^ e := Nat.mul_le_mul_right _ hlower
      _ < (streamBits m 0 (c.shifts + 8) + 1) * 2 ^ (n + e) := by rw [← hcut, Nat.add_mul]; omega
  · refine Nat.lt_of_mul_lt_mul_right (a := 2 ^ (n + e)) ?_
    calc streamBits m 0 (c.shifts + 8) * 2 ^ (n + e) ≤ f.low * 2 ^ e := by omega
      _ < (f.low + f.range) * 2 ^ e := Nat.mul_lt_mul_of_pos_right (by omega) (by positivity)
      _ ≤ (c.low + c.range) * 2 ^ n * 2 ^ e := Nat.mul_le_mul_right _ hupper
      _ = (c.low + c.range) * 2 ^ (n + e) := by ring

/-- A point of the interval after a symbol was, before the shifts, a point of the sub-interval the symbol chose. -/
theorem Inside.chosen {m : Memory 8} {c : Coded} {y : Bool × BitVec 8} (h : Inside m (codedStep c y)) :
    c.low + c.offset y ≤ streamBits m 0 (c.shifts + 8) ∧
      streamBits m 0 (c.shifts + 8) < c.low + c.offset y + c.width y := by
  have hcut := streamBits_add m 0 (c.shifts + 8) (nshift (c.width y))
  have hrest := streamBits_lt m (0 + (c.shifts + 8)) (nshift (c.width y))
  obtain ⟨hlow, hhigh⟩ := h
  rw [codedStep_shifts, Nat.add_right_comm, hcut, codedStep_low] at hlow hhigh
  rw [codedStep_range, ← Nat.add_mul] at hhigh
  constructor
  · refine Nat.le_of_lt_succ (Nat.lt_of_mul_lt_mul_right (a := 2 ^ nshift (c.width y)) (hlow.trans_lt ?_))
    rw [Nat.succ_mul]
    omega
  · exact Nat.lt_of_mul_lt_mul_right ((Nat.le_add_right _ _).trans_lt hhigh)

/-! ### A decoder at an interval -/

/-- An open decoder session over a buffer of `len` bytes whose registers stand for the interval: VALUE is how far above the lower
end the stream is (R33, R145). -/
structure Decodes (s : State) (m : Memory 8) (len : BitVec 32) (c : Coded) : Prop extends Decoding s where
  ibuf : s.rcd.ibuf = m
  ilen : s.rcd.ilen = len
  range : s.rcd.range.toNat = c.range
  bitpos : s.rcd.bitpos.toNat = c.shifts + 8
  value : c.low + s.rcd.value.toNat = streamBits m 0 (c.shifts + 8)

theorem Decodes.inBand {s : State} {m : Memory 8} {len : BitVec 32} {c : Coded} (h : Decodes s m len c) : c.InBand :=
  ⟨h.range ▸ h.range_ge, h.range ▸ s.rcd.range.isLt⟩

/-- The bit of a symbol as a response value (R142). -/
def bitValue (b : Bool) : Reg32 := if b then 1 else 0

theorem setWidth_ofBool (b : Bool) : (BitVec.ofBool b).setWidth 32 = bitValue b := by cases b <;> rfl

/-- INIT over a stream that begins inside the first interval opens a session at it (R140). -/
theorem exec_rcdInit_decodes {s : State} {len : BitVec 32} (hs : s.Inv) (h1 : 1 ≤ len.toNat)
    (hlen : len.toNat ≤ s.cfg.bufBytes) (hstored : storedBelow s.rcd.ibuf len.toNat)
    (hin : Inside s.rcd.ibuf firstInterval) :
    ∃ t, exec (.rcdInit len) s = .next t ∧ okValue t = some 0 ∧ Decodes t s.rcd.ibuf len firstInterval := by
  obtain ⟨v, hv⟩ := Option.isSome_iff_exists.1 (hstored 0 h1)
  have hbyte : streamBits s.rcd.ibuf 0 8 = v.toNat := by
    rw [streamBits_of_byte s.rcd.ibuf 0 le_rfl]
    simp [byteAt, hv]
  have hne : v ≠ 0xFF := by
    rintro rfl
    have := hin.2
    simp [firstInterval, hbyte] at this
  have hx := exec_rcdInit_of_read h1 hlen hv
  rw [if_neg hne] at hx
  exact ⟨_, hx, by simp, ⟨exec_keepsInv hs hx, rfl, rfl⟩, rfl, rfl, rfl, rfl, by simp [firstInterval, hbyte, openRcd]⟩

/-- A value inside the sub-interval a bit chooses makes the decoder choose it too (R142, R145). -/
theorem decideBit_of_inside {s : State} {m : Memory 8} {len : BitVec 32} {c : Coded} {y : Bool × BitVec 8}
    (h : Decodes s m len c) (h1 : c.offset y ≤ s.rcd.value.toNat) (h2 : s.rcd.value.toNat < c.offset y + c.width y) :
    decideBit s.rcd.range s.rcd.value y.2 = (y.1, s.rcd.value.toNat - c.offset y, c.width y) := by
  obtain ⟨b, prob⟩ := y
  rw [decideBit_eq, h.range]
  cases b with
  | false =>
    have hlt : ¬ split c.range prob.toNat ≤ s.rcd.value.toNat := by simpa [Coded.offset, Coded.width] using h2
    simp [Coded.offset, Coded.width, hlt]
  | true =>
    have hle : split c.range prob.toNat ≤ s.rcd.value.toNat := by simpa [Coded.offset] using h1
    simp [Coded.offset, Coded.width, hle]

/-- The registers after the shifts, as numbers, when they fit (R142). -/
theorem shifted_toNat {c : Config} {u : Rcd} {v r n : Nat} (hc : c.bufBytes ≤ 2 ^ 28) (hu : rcdOpenInv c u) (hv : v < r)
    (hr : r * 2 ^ n < 256) (room : u.bitpos.toNat + n ≤ 8 * u.ilen.toNat) :
    (shifted u v r n).value.toNat = nextValue u v n ∧ (shifted u v r n).range.toNat = r * 2 ^ n ∧
      (shifted u v r n).bitpos.toNat = u.bitpos.toNat + n := by
  obtain ⟨_, _, _, _, hlen⟩ := hu
  have hvalue := nextValue_lt (u := u) (n := n) hv
  simp only [shifted, BitVec.toNat_add, BitVec.toNat_ofNat]
  refine ⟨Nat.mod_eq_of_lt (by omega), Nat.mod_eq_of_lt (by omega), ?_⟩
  rw [Nat.add_mod_mod, Nat.mod_eq_of_lt (by omega)]

/-- The value after the shifts is again how far the stream is above the lower end (R142, R145). -/
theorem Decodes.nextValue_eq {s : State} {m : Memory 8} {len : BitVec 32} {c : Coded} {y : Bool × BitVec 8}
    (h : Decodes s m len c) (hle : c.offset y ≤ s.rcd.value.toNat) :
    (codedStep c y).low + nextValue s.rcd (s.rcd.value.toNat - c.offset y) (nshift (c.width y)) =
      streamBits m 0 ((codedStep c y).shifts + 8) := by
  rw [nextValue, h.ibuf, h.bitpos, codedStep_low, codedStep_shifts, Nat.add_right_comm, streamBits_add m 0 (c.shifts + 8),
    Nat.zero_add, ← h.value, ← Nat.add_assoc, ← Nat.add_mul, Nat.add_assoc c.low, Nat.add_sub_cancel' hle]

/-- A symbol whose next interval the stream begins inside is decoded to its bit, and takes the decoder there (R142, R145). -/
theorem Decodes.get {s : State} {m : Memory 8} {len : BitVec 32} {c : Coded} {y : Bool × BitVec 8} (h : Decodes s m len c)
    (hp : y.2 ≠ 0) (hin : Inside m (codedStep c y)) (hroom : (codedStep c y).shifts + 8 ≤ 8 * len.toNat)
    (hstored : storedBelow m len.toNat) :
    ∃ t, exec (.rcdGetbit y.2) s = .next t ∧ okValue t = some (bitValue y.1) ∧ Decodes t m len (codedStep c y) := by
  obtain ⟨hlow, hhigh⟩ := hin.chosen
  have hvalue := h.value
  have hle : c.offset y ≤ s.rcd.value.toNat := by omega
  have hd := decideBit_of_inside h hle (by omega)
  obtain ⟨hv, hr⟩ := h.decideBit_bounds hd
  have hband := (nshift_band (by omega) hr).2
  have hpos : s.rcd.bitpos.toNat + nshift (c.width y) = (codedStep c y).shifts + 8 := by
    rw [h.bitpos, codedStep_shifts]
    omega
  have room : s.rcd.bitpos.toNat + nshift (c.width y) ≤ 8 * s.rcd.ilen.toNat := by rwa [hpos, h.ilen]
  have hw : nextBitsWritten s.rcd (nshift (c.width y)) := fun a _ ha => h.ibuf ▸ hstored a (by omega)
  have hx := exec_rcdGetbit_decoded h.toDecoding hp hd room hw
  obtain ⟨nvalue, nrange, npos⟩ := shifted_toNat h.bufBytes_le h.openInv hv hband room
  exact ⟨_, hx, by simp [setWidth_ofBool], ⟨exec_keepsInv h.inv hx, h.st, h.err⟩, h.ibuf, h.ilen, nrange,
    npos.trans hpos, (congrArg _ nvalue).trans (h.nextValue_eq hle)⟩

/-! ### Whole sessions -/

/-- The GETBITs of a list of symbols. -/
def getRun (syms : List (Bool × BitVec 8)) : List Instr := syms.map fun y => .rcdGetbit y.2

theorem decodeRun_eq (len : BitVec 32) (syms : List (Bool × BitVec 8)) :
    decodeRun len syms = .rcdInit len :: getRun syms := rfl

/-- Over a stream of these symbols and any after them, the decoder returns the bits and follows the intervals (R145). -/
theorem Decodes.gets {s : State} {m : Memory 8} {len : BitVec 32} {c : Coded} {syms rest : List (Bool × BitVec 8)}
    (h : Decodes s m len c) (hp : ∀ y ∈ syms, y.2 ≠ 0)
    (hm : Spells m len.toNat ((syms ++ rest).foldl codedStep c)) (hstored : storedBelow m len.toNat) :
    ∃ t, runOk (getRun syms) s = some (t, syms.map fun y => bitValue y.1) ∧ Decodes t m len (syms.foldl codedStep c) := by
  induction syms generalizing s c with
  | nil => exact ⟨s, rfl, h⟩
  | cons y ys ih =>
    obtain ⟨hy, hys⟩ := List.forall_mem_cons.1 hp
    obtain ⟨n, hn⟩ := exists_nested_foldl (h.inBand.step y) (ys ++ rest)
    have hroom := hm.room
    rw [List.cons_append, List.foldl_cons, hn.shifts] at hroom
    obtain ⟨s', hx, hv, h'⟩ := h.get hy (hm.inside hn) (by omega) hstored
    obtain ⟨t, hrun, ht⟩ := ih h' hys hm
    exact ⟨t, by rw [getRun, List.map_cons, runOk_cons hx hv, ← getRun, hrun]; rfl, ht⟩

/-- A finished stream in the decoder's buffer is what the decoder needs. -/
theorem Finished.spells {t : State} {f : Coded} {m : Memory 8} (h : Finished t f) (hf : f.InBand)
    (hm : ∀ a, a < t.rce.olen.toNat → m.read a = t.rce.obuf.read a) : Spells m t.rce.olen.toNat f where
  inBand := hf
  room := by have := h.length; omega
  spelled := (spelledMsb_congr hm).trans h.spelled

/-- A decoder given a finished stream of these symbols and any after them decodes these (R145). -/
theorem exists_decodes_of_finished {t d : State} {syms rest : List (Bool × BitVec 8)}
    (ht : Finished t (coded (syms ++ rest))) (hp : ∀ y ∈ syms, y.2 ≠ 0) (hd : d.Inv)
    (hsize : t.rce.olen.toNat ≤ d.cfg.bufBytes)
    (hm : ∀ a, a < t.rce.olen.toNat → d.rcd.ibuf.read a = t.rce.obuf.read a) :
    ∃ d', runOk (decodeRun t.rce.olen syms) d = some (d', 0 :: syms.map fun y => bitValue y.1) ∧
      Decodes d' d.rcd.ibuf t.rce.olen (coded syms) := by
  have hspells := ht.spells (coded_inBand _) hm
  have hstored : storedBelow d.rcd.ibuf t.rce.olen.toNat := fun a ha => hm a ha ▸ ht.stored a ha
  obtain ⟨n, hn⟩ := exists_nested_foldl firstInterval_inBand (syms ++ rest)
  have h1 : 1 ≤ t.rce.olen.toNat := by have := ht.length; omega
  obtain ⟨s, hx, hv, h⟩ := exec_rcdInit_decodes hd h1 hsize hstored (hspells.inside hn)
  obtain ⟨d', hrun, h'⟩ := h.gets hp hspells hstored
  exact ⟨d', by rw [decodeRun_eq, runOk_cons hx hv, hrun]; rfl, h'⟩

/-- Settles O35: the encoder ran OK, so the session fits; its stream begins inside every interval it went through, so the
decoder goes through the same ones. -/
theorem rangeCoderRoundTrip : Obligations.RangeCoderRoundTrip := by
  intro s t d cap syms vs hs hrun hd hsize hm
  have hfits := sessionFits_of_runOk hs hrun
  obtain ⟨t', hrun', ht⟩ := hfits.exists_finished hs
  cases hrun.symm.trans hrun'
  constructor
  · obtain ⟨d', hdec, h⟩ := exists_decodes_of_finished (rest := []) (by rwa [List.append_nil]) hfits.probs hd hsize hm
    refine ⟨d', hdec, BitVec.eq_of_toNat_eq (h.range.trans ht.range.symm), ?_⟩
    rw [h.bitpos, ht.shifts]
  · intro k _
    obtain ⟨e, henc, he⟩ := (hfits.take k).exists_encodes hs
    obtain ⟨f, hdec, hf⟩ := exists_decodes_of_finished (rest := syms.drop k) (by rwa [List.take_append_drop])
      (hfits.take k).probs hd hsize hm
    exact ⟨e, f, _, _, henc, hdec, BitVec.eq_of_toNat_eq (hf.range.trans he.range.symm)⟩

end Sys2Proof.Machine
end

section
/-!
SUPPORT. The commands of the bit packer's writer (spec/41_bit_packer.md R161 to R166): what each answers in each lifecycle and
error state, and the stream it leaves.
-/
namespace Sys2Proof.Machine

/-! ### INIT and ABORT -/

/-- INIT in IDLE with a budget inside the buffer opens a session (R161). -/
theorem exec_bpwInit_opens {cap : BitVec 32} {s : State} (hst : s.bpw.st = .idle) (hcap : cap.toNat ≤ s.cfg.bufBytes) :
    exec (.bpwInit cap) s = .next ((s.setBpw (openBpw s.bpw cap)).answer .ok 0) := by
  have hne : ¬ s.bpw.st = .active := by simp [hst]
  simp only [exec, execBpwInit, if_neg hne, if_pos hcap]
  rfl

/-- Settles O36: the three branches of INIT. -/
theorem bpwInitResult : Obligations.BpwInitResult := by
  intro cap s
  refine ⟨decodeOfEncodeIsIdentity (.bpwInit cap), fun hst => ?_, fun hst hsize => ?_, exec_bpwInit_opens⟩
  · simp only [exec, execBpwInit, if_pos hst]
    rfl
  · have hne : ¬ s.bpw.st = .active := by simp [hst]
    simp only [exec, execBpwInit, if_neg hne, if_neg (not_le.2 hsize)]
    rfl

/-- Settles O39: the two branches of ABORT. -/
theorem bpwAbortResult : Obligations.BpwAbortResult := by
  refine fun s => ⟨decodeOfEncodeIsIdentity .bpwAbort, fun hst => ?_, fun hst => ?_⟩
  · simp only [exec, execBpwAbort, if_pos hst]
    rfl
  · have hne : ¬ s.bpw.st = .idle := by simp [hst]
    simp only [exec, execBpwAbort, if_neg hne]
    rfl

/-! ### PUTBITS -/

theorem Writing.bufBytes_le {s : State} (h : Writing s) : s.cfg.bufBytes ≤ 2 ^ 28 := by
  obtain ⟨⟨_, hbuf, _, _⟩, _⟩ := h.inv
  exact hbuf

theorem Writing.bpwInv {s : State} (h : Writing s) : bpwInv s.cfg s.bpw := by
  obtain ⟨_, _, _, hbpw, _⟩ := h.inv
  exact hbpw

/-- The gate of a data command lets an open session without error through (R281). -/
theorem dataGate_open {st : Lifecycle} {err : Status} (hst : st = .active) (herr : err = .ok) : dataGate st err = none := by
  rw [hst, herr, dataGate_ok]

theorem exec_bpwPutbits_gated {value : BitVec 32} {nbits : BitVec 8} {s : State} {e : Status}
    (h : dataGate s.bpw.st s.bpw.err = some e) : exec (.bpwPutbits value nbits) s = .next (s.answer e 0) := by
  simp only [exec, execBpwPutbits, h]
  rfl

/-- Settles O37: the gate, the two refusals, and for an accepted PUTBITS the law of `packBits`. -/
theorem bpwPutbitsResult : Obligations.BpwPutbitsResult := by
  intro value nbits s
  refine ⟨decodeOfEncodeIsIdentity (.bpwPutbits value nbits),
    fun hst => exec_bpwPutbits_gated (by rw [hst, dataGate_idle]),
    fun hst herr => exec_bpwPutbits_gated (by rw [hst, dataGate_error herr]), fun hst herr hn => ?_,
    fun hst herr hn hfull => ?_, fun hs hst herr hn hroom => ?_⟩
  · have hwide : maxNbits < nbits.toNat := hn
    simp only [exec, execBpwPutbits, dataGate_open hst herr, if_pos hwide]
    rfl
  · have hlegal : ¬ maxNbits < nbits.toNat := not_lt.2 hn
    simp only [exec, execBpwPutbits, dataGate_open hst herr, if_neg hlegal, if_neg (not_le.2 hfull)]
    rfl
  · have hlegal : ¬ maxNbits < nbits.toNat := not_lt.2 hn
    have h : Writing s := ⟨hs, hst, herr⟩
    obtain ⟨u, hu, hpack, hust, huerr, hcap, hpend, hbits, hvalue, _, hbytes⟩ :=
      packBits_ok (value := value) h.bufBytes_le h.bpwInv hn hroom
    refine ⟨u, ?_, hvalue, by omega, by omega, hpack.pending, hpack.stored, hust.trans hst, huerr.trans herr, hcap, hbytes⟩
    simp only [exec, execBpwPutbits, dataGate_open hst herr, if_neg hlegal, if_pos hroom, hu, orFault_ok]
    rfl

/-! ### FINISH -/

/-- FINISH of an open session without error answers the finished stream's length (R165). -/
theorem exec_bpwFinish_finished {s : State} {u : Bpw} (h : Writing s) (hu : finishPack s.cfg s.bpw = .ok u) :
    exec .bpwFinish s = .next ((s.setBpw u).answer .ok u.olen) := by
  have hne : ¬ s.bpw.st = .idle := by simp [h.st]
  simp only [exec, execBpwFinish, if_neg hne, if_pos h.err, hu, orFault_ok]
  rfl

/-- Settles O38: the two refusals, and for an accepted FINISH the law of `finishPack`. -/
theorem bpwFinishResult : Obligations.BpwFinishResult := by
  refine fun s => ⟨decodeOfEncodeIsIdentity .bpwFinish, fun hst => ?_, fun hst herr => ?_, fun hs hst herr => ?_⟩
  · simp only [exec, execBpwFinish, if_pos hst]
    rfl
  · have hne : ¬ s.bpw.st = .idle := by simp [hst]
    simp only [exec, execBpwFinish, if_neg hne, if_neg herr]
    rfl
  · have h : Writing s := ⟨hs, hst, herr⟩
    obtain ⟨u, hu, _, hstored, hidle, hok, hcap, hacc, hpend, hlen, hspelled, hle, hbytes⟩ :=
      finishPack_ok h.bufBytes_le h.bpwInv
    exact ⟨u, exec_bpwFinish_finished h hu, hlen, hspelled, hstored, hidle, hok.trans herr, hacc, hpend, hcap, hle, hbytes⟩

end Sys2Proof.Machine
end

section
/-!
SUPPORT. The commands of the bit packer's reader (spec/41_bit_packer.md R170 to R172): what each answers in each lifecycle and
error state, and the bits it takes from the stream.
-/
namespace Sys2Proof.Machine

/-! ### INIT -/

/-- INIT with a length inside the buffer opens a session in either lifecycle state (R170). -/
theorem exec_bprInit_opens {len : BitVec 32} {s : State} (hlen : len.toNat ≤ s.cfg.bufBytes) :
    exec (.bprInit len) s = .next ((s.setBpr (openBpr s.bpr len)).answer .ok 0) := by
  simp only [exec, execBprInit, if_pos hlen]
  rfl

/-- Settles O41: the two branches of INIT. -/
theorem bprInitResult : Obligations.BprInitResult := by
  refine fun len s => ⟨decodeOfEncodeIsIdentity (.bprInit len), fun hsize => ?_, exec_bprInit_opens⟩
  simp only [exec, execBprInit, if_neg (not_le.2 hsize)]
  rfl

/-! ### READBITS -/

/-- An open reader session without error. -/
structure Reading (s : State) : Prop where
  inv : s.Inv
  st : s.bpr.st = .active
  err : s.bpr.err = .ok

theorem Reading.bufBytes_le {s : State} (h : Reading s) : s.cfg.bufBytes ≤ 2 ^ 28 := by
  obtain ⟨⟨_, hbuf, _, _⟩, _⟩ := h.inv
  exact hbuf

theorem Reading.bprInv {s : State} (h : Reading s) : bprInv s.cfg s.bpr := by
  obtain ⟨_, _, _, _, hbpr, _⟩ := h.inv
  exact hbpr

/-- The accumulator once it holds `nbits` bits, as a number: the bits held, then the bytes taken (R171). -/
def heldAfterRefill (u : Bpr) (nbits : Nat) : Nat :=
  u.acc.toNat + 2 ^ u.cnt.toNat * spelledLsb u.ibuf u.pos.toNat (refillCount nbits u.cnt.toNat)

/-- How many bits stay held when `nbits` of them were returned (R171). -/
def keptBits (u : Bpr) (nbits : Nat) : Nat := u.cnt.toNat + 8 * refillCount nbits u.cnt.toNat - nbits

/-- The refill holds at least the bits asked for (R171). -/
theorem cnt_add_refill (u : Bpr) (nbits : Nat) :
    u.cnt.toNat + 8 * refillCount nbits u.cnt.toNat = nbits + keptBits u nbits := by
  rw [keptBits, refillCount]
  omega

/-- Bytes are taken only while bits are missing, so what stays held fits CNT (R171). -/
theorem keptBits_lt (u : Bpr) (nbits : Nat) : keptBits u nbits < 32 := by
  have := u.cnt.isLt
  rw [keptBits, refillCount]
  omega

/-- The reader after an accepted READBITS (R171). -/
def readOn (u : Bpr) (nbits : Nat) : Bpr :=
  { u with
    acc := BitVec.ofNat 32 (heldAfterRefill u nbits / 2 ^ nbits)
    cnt := BitVec.ofNat 5 (keptBits u nbits)
    pos := BitVec.ofNat 32 (u.pos.toNat + refillCount nbits u.cnt.toNat) }

/-- The bytes READBITS takes have been written (R63). -/
def nextBytesWritten (u : Bpr) (nbits : Nat) : Prop :=
  ∀ a, u.pos.toNat ≤ a → a < u.pos.toNat + refillCount nbits u.cnt.toNat → (u.ibuf.read a).isSome

theorem takeBits_eq (acc : BitVec 32) {nbits : Nat} (h : nbits ≤ 24) :
    takeBits acc nbits = BitVec.ofNat 32 (acc.toNat % 2 ^ nbits) :=
  (BitVec.toNat_eq_nat.1 (takeBits_toNat acc h)).2

/-- Dropping bits that are held, on the registers' numbers (R171). -/
theorem dropBits_eq {u : Bpr} {nbits : Nat} (h : nbits ≤ u.cnt.toNat) :
    dropBits u nbits =
      { u with acc := BitVec.ofNat 32 (u.acc.toNat / 2 ^ nbits), cnt := BitVec.ofNat 5 (u.cnt.toNat - nbits) } := by
  have hacc : u.acc >>> nbits = BitVec.ofNat 32 (u.acc.toNat / 2 ^ nbits) :=
    (BitVec.toNat_eq_nat.1 (by rw [BitVec.toNat_ushiftRight, Nat.shiftRight_eq_div_pow])).2
  have hn : (BitVec.ofNat 5 nbits).toNat = nbits := by
    rw [BitVec.toNat_ofNat, Nat.mod_eq_of_lt (h.trans_lt u.cnt.isLt)]
  have hcnt : u.cnt - BitVec.ofNat 5 nbits = BitVec.ofNat 5 (u.cnt.toNat - nbits) :=
    (BitVec.toNat_eq_nat.1 (by rw [BitVec.toNat_sub_of_le (by rwa [BitVec.le_def, hn]), hn])).2
  rw [dropBits, hacc, hcnt]

/-- READBITS with enough bits left takes bytes that the length covers (R172). -/
theorem Reading.refill_le {s : State} {nbits : Nat} (h : Reading s) (hleft : (nbits : Int) ≤ bitsLeft s.bpr) :
    s.bpr.pos.toNat + refillCount nbits s.bpr.cnt.toNat ≤ s.bpr.ilen.toNat := by
  obtain ⟨_, _, _, _, hpos, _⟩ := h.bprInv
  rw [bitsLeft] at hleft
  rw [refillCount]
  omega

/-- A READBITS with enough bits left, over written bytes, returns the next bits (R171). -/
theorem exec_bprReadbits_read {nbits : BitVec 8} {s : State} (h : Reading s) (hn : nbits.toNat ≤ maxNbits)
    (hleft : (nbits.toNat : Int) ≤ bitsLeft s.bpr) (hw : nextBytesWritten s.bpr nbits.toNat) :
    exec (.bprReadbits nbits) s = .next ((s.setBpr (readOn s.bpr nbits.toNat)).answer .ok
      (BitVec.ofNat 32 (heldAfterRefill s.bpr nbits.toNat % 2 ^ nbits.toNat))) := by
  obtain ⟨_, _, hacc, _, _, hlen⟩ := h.bprInv
  have hbuf := h.bufBytes_le
  have hle := h.refill_le hleft
  have hn24 : nbits.toNat ≤ 24 := hn
  obtain ⟨u, hu, hst, herr, hilen, hibuf, hpos, hcnt, hge, _, hheld⟩ := refill_ok (c := s.cfg) (n := 3) hn hacc (by omega)
    (fun a h1 h2 => ⟨by omega, hw a h1 h2⟩) (by omega)
  have hdrop : dropBits u nbits.toNat = readOn s.bpr nbits.toNat := by
    rw [dropBits_eq hge, readOn, keptBits, heldAfterRefill, ← hheld, ← hcnt, ← hst, ← herr, ← hilen, ← hibuf,
      (BitVec.toNat_eq_nat.1 hpos).2]
  simp only [exec, execBprReadbits, dataGate_open h.st h.err, if_neg (not_lt.2 hn), if_pos hleft, hu, orFault_ok, hdrop,
    takeBits_eq u.acc hn, hheld]
  rfl

theorem exec_bprReadbits_gated {nbits : BitVec 8} {s : State} {e : Status} (h : dataGate s.bpr.st s.bpr.err = some e) :
    exec (.bprReadbits nbits) s = .next (s.answer e 0) := by
  simp only [exec, execBprReadbits, h]
  rfl

/-- Settles O42: the gate, the two refusals, and for accepted bits over written bytes the law of `refill`. -/
theorem bprReadbitsResult : Obligations.BprReadbitsResult := by
  intro nbits s
  refine ⟨decodeOfEncodeIsIdentity (.bprReadbits nbits), fun hst => exec_bprReadbits_gated (by rw [hst, dataGate_idle]),
    fun hst herr => exec_bprReadbits_gated (by rw [hst, dataGate_error herr]), fun hst herr hn => ?_,
    fun hst herr hn hend => ?_, fun hs hst herr hn hleft => exec_bprReadbits_read ⟨hs, hst, herr⟩ hn hleft⟩
  · have hwide : maxNbits < nbits.toNat := hn
    simp only [exec, execBprReadbits, dataGate_open hst herr, if_pos hwide]
    rfl
  · have hlegal : ¬ maxNbits < nbits.toNat := not_lt.2 hn
    have hfew : ¬ (nbits.toNat : Int) ≤ bitsLeft s.bpr := not_le.2 hend
    simp only [exec, execBprReadbits, dataGate_open hst herr, if_neg hlegal, if_neg hfew]
    rfl

end Sys2Proof.Machine
end

section
/-!
SUPPORT. The round trip (spec/41_bit_packer.md R173): the writer packs a list of (value, width) pairs as one number, its first bit
least significant, and the reader takes the bits of that number off again in order.
-/
namespace Sys2Proof.Machine

/-! ### The bits of a number -/

/-- `k` bits of a number from bit `i` on, the first one least significant (R66 a). -/
def bitsAt (v i k : Nat) : Nat := v / 2 ^ i % 2 ^ k

theorem bitsAt_lt (v i k : Nat) : bitsAt v i k < 2 ^ k := Nat.mod_lt _ (by positivity)

/-- Bits one after the other, as numbers. -/
theorem bitsAt_add (v i j k : Nat) : bitsAt v i (j + k) = bitsAt v i j + 2 ^ j * bitsAt v (i + j) k := by
  rw [bitsAt, pow_add, Nat.mod_mul, Nat.div_div_eq_div_mul, ← pow_add]
  rfl

theorem bitsAt_add_mod (v i j k : Nat) : bitsAt v i (j + k) % 2 ^ j = bitsAt v i j := by
  rw [bitsAt_add, Nat.add_mul_mod_self_left, Nat.mod_eq_of_lt (bitsAt_lt v i j)]

theorem bitsAt_add_div (v i j k : Nat) : bitsAt v i (j + k) / 2 ^ j = bitsAt v (i + j) k := by
  rw [bitsAt_add, Nat.add_mul_div_left _ _ (by positivity), Nat.div_eq_of_lt (bitsAt_lt v i j), Nat.zero_add]

/-- Bytes one after the other, as numbers. -/
theorem spelledLsb_add (m : Memory 8) (a n k : Nat) :
    spelledLsb m a (n + k) = spelledLsb m a n + 256 ^ n * spelledLsb m (a + n) k := by
  induction k with
  | zero => simp [spelledLsb]
  | succ k ih =>
    rw [← Nat.add_assoc, spelledLsb_snoc, ih, spelledLsb_snoc, pow_add, Nat.add_assoc a n k]
    ring

/-- Bytes of a stream are bits of the number it spells (R66 a). -/
theorem spelledLsb_eq_bitsAt (m : Memory 8) {a k len : Nat} (h : a + k ≤ len) :
    spelledLsb m a k = bitsAt (spelledLsb m 0 len) (8 * a) (8 * k) := by
  obtain ⟨r, rfl⟩ := Nat.exists_eq_add_of_le h
  have hbelow := spelledLsb_lt m 0 a
  have hcut := spelledLsb_lt m a k
  have hbyte : (2 : Nat) ^ 8 = 256 := rfl
  rw [bitsAt, pow_mul, pow_mul, hbyte, Nat.add_assoc, spelledLsb_add, Nat.add_mul_div_left _ _ (by positivity),
    Nat.div_eq_of_lt hbelow, Nat.zero_add, Nat.zero_add, spelledLsb_add, Nat.add_mul_mod_self_left, Nat.mod_eq_of_lt hcut]

/-! ### The number of a list of pairs -/

/-- How many bits a list of (value, width) pairs packs to. -/
def pairsBits (pairs : List (BitVec 32 × BitVec 8)) : Nat := (pairs.map fun y => y.2.toNat).sum

/-- The number a list of (value, width) pairs packs to: the low bits of each value above those before it (R163). -/
def pairsValue : List (BitVec 32 × BitVec 8) → Nat
  | [] => 0
  | y :: ys => y.1.toNat % 2 ^ y.2.toNat + 2 ^ y.2.toNat * pairsValue ys

@[simp] theorem pairsBits_cons (y : BitVec 32 × BitVec 8) (ys : List (BitVec 32 × BitVec 8)) :
    pairsBits (y :: ys) = y.2.toNat + pairsBits ys := List.sum_cons

theorem pairsValue_cons_mod (y : BitVec 32 × BitVec 8) (ys : List (BitVec 32 × BitVec 8)) :
    pairsValue (y :: ys) % 2 ^ y.2.toNat = y.1.toNat % 2 ^ y.2.toNat := by
  rw [pairsValue, Nat.add_mul_mod_self_left, Nat.mod_mod]

theorem pairsValue_cons_div (y : BitVec 32 × BitVec 8) (ys : List (BitVec 32 × BitVec 8)) :
    pairsValue (y :: ys) / 2 ^ y.2.toNat = pairsValue ys := by
  rw [pairsValue, Nat.add_mul_div_left _ _ (by positivity), Nat.div_eq_of_lt (Nat.mod_lt _ (by positivity)), Nat.zero_add]

/-! ### The writer -/

/-- A PUTBITS answered OK had a legal width, and room, so it put its bits (R163). -/
theorem Writing.of_put {s t : State} {value : BitVec 32} {nbits : BitVec 8} {v : Reg32} (h : Writing s)
    (hx : exec (.bpwPutbits value nbits) s = .next t) (hv : okValue t = some v) :
    nbits.toNat ≤ maxNbits ∧ BitsPut value nbits.toNat s t := by
  rcases execBpwPutbits_next hx with ⟨e, hg, _⟩ | ⟨_, _, e, he, rfl⟩ | ⟨_, _, hn, hroom, _⟩
  · exact absurd ⟨h.st, h.err⟩ (not_open_of_dataGate hg)
  · rcases he with rfl | rfl <;> simp at hv
  · obtain ⟨t', hx', hput⟩ := exec_bpwPutbits_ok (value := value) h hn hroom
    cases hx.symm.trans hx'
    exact ⟨hn, hput⟩

/-- `t` is `s` after PUTBITS of these pairs that were answered OK: their bits follow the stream (R163). -/
structure PairsPut (pairs : List (BitVec 32 × BitVec 8)) (s t : State) : Prop where
  writing : Writing t
  widths : ∀ y ∈ pairs, y.2.toNat ≤ maxNbits
  bits : bitsWritten t.bpw = bitsWritten s.bpw + pairsBits pairs
  packed : packedValue t.bpw = packedValue s.bpw + pairsValue pairs * 2 ^ bitsWritten s.bpw

theorem PairsPut.nil {s : State} (h : Writing s) : PairsPut [] s s := ⟨h, nofun, rfl, by simp [pairsValue]⟩

theorem BitsPut.cons {y : BitVec 32 × BitVec 8} {ys : List (BitVec 32 × BitVec 8)} {s s' t : State}
    (hn : y.2.toNat ≤ maxNbits) (h : BitsPut y.1 y.2.toNat s s') (h' : PairsPut ys s' t) : PairsPut (y :: ys) s t where
  writing := h'.writing
  widths := List.forall_mem_cons.2 ⟨hn, h'.widths⟩
  bits := by rw [h'.bits, h.bits, pairsBits_cons, Nat.add_assoc]
  packed := by
    rw [h'.packed, h.packed, h.bits, pairsValue, pow_add]
    ring

/-- The PUTBITS of a list of pairs. -/
def packPairs (pairs : List (BitVec 32 × BitVec 8)) : List Instr := pairs.map fun y => .bpwPutbits y.1 y.2

theorem packRun_eq (cap : BitVec 32) (pairs : List (BitVec 32 × BitVec 8)) :
    packRun cap pairs = .bpwInit cap :: (packPairs pairs ++ [.bpwFinish]) := rfl

/-- PUTBITS that were all answered OK put all their bits, whatever runs after them (R163). -/
theorem Writing.of_puts {s : State} {pairs : List (BitVec 32 × BitVec 8)} {is : List Instr} {r : State × List Reg32}
    (h : Writing s) (hrun : runOk (packPairs pairs ++ is) s = some r) :
    ∃ t ws, runOk is t = some (r.1, ws) ∧ PairsPut pairs s t := by
  induction pairs generalizing s r with
  | nil => exact ⟨s, r.2, hrun, PairsPut.nil h⟩
  | cons y ys ih =>
    obtain ⟨s', v, ws, hx, hv, hrest, _⟩ := runOk_cons_eq_some hrun
    obtain ⟨hn, hput⟩ := h.of_put hx hv
    obtain ⟨t, ws', hrun', hputs⟩ := ih hput.writing hrest
    exact ⟨t, ws', hrun', hput.cons hn hputs⟩

/-- What a session of these pairs that ran OK to its end leaves: a stream of their number, as long as their bits (R165). -/
structure PairsPacked (pairs : List (BitVec 32 × BitVec 8)) (u : Bpw) : Prop where
  widths : ∀ y ∈ pairs, y.2.toNat ≤ maxNbits
  stored : storedBelow u.obuf u.olen.toNat
  room : pairsBits pairs ≤ 8 * u.olen.toNat
  spelled : spelledLsb u.obuf 0 u.olen.toNat = pairsValue pairs

/-- FINISH after the PUTBITS of a fresh session leaves their stream (R165). -/
theorem PairsPut.packed_of_finish {pairs : List (BitVec 32 × BitVec 8)} {s s' t : State} (h : PairsPut pairs s s')
    (hbits : bitsWritten s.bpw = 0) (hvalue : packedValue s.bpw = 0) (hx : exec .bpwFinish s' = .next t) :
    PairsPacked pairs t.bpw := by
  obtain ⟨u, hu, _, hstored, _, _, _, _, _, hlen, hspelled, _⟩ := finishPack_ok h.writing.bufBytes_le h.writing.bpwInv
  cases hx.symm.trans (exec_bpwFinish_finished h.writing hu)
  have hall := h.bits
  have hpacked := h.packed
  rw [hbits, bitsWritten] at hall
  rw [hbits, hvalue, pow_zero, Nat.mul_one, Nat.zero_add] at hpacked
  refine ⟨h.widths, hstored, ?_, hspelled.trans hpacked⟩
  show pairsBits pairs ≤ 8 * u.olen.toNat
  omega

/-- A packing session that ran OK to its end leaves the stream of its pairs (R163, R165). -/
theorem pairsPacked_of_runOk {s t : State} {cap : BitVec 32} {pairs : List (BitVec 32 × BitVec 8)} {vs : List Reg32}
    (hs : s.Inv) (h : runOk (packRun cap pairs) s = some (t, vs)) : PairsPacked pairs t.bpw := by
  rw [packRun_eq] at h
  obtain ⟨s0, v, ws, hx, hv, hrest, _⟩ := runOk_cons_eq_some h
  have hinv := exec_keepsInv hs hx
  rcases execBpwInit_next hx with ⟨_, rfl⟩ | ⟨_, _, rfl⟩ | ⟨_, rfl⟩
  · simp at hv
  · obtain ⟨s', ws', hfinish, hputs⟩ := Writing.of_puts ⟨hinv, rfl, rfl⟩ hrest
    obtain ⟨t, v', ws'', hx', _, hnil, _⟩ := runOk_cons_eq_some hfinish
    cases hnil
    exact hputs.packed_of_finish rfl (by simp [openBpw, packedValue, spelledLsb]) hx'
  · simp at hv

/-! ### The reader -/

/-- An open reader session over a buffer of `len` bytes after `n` bits of the stream: the accumulator holds the next CNT bits
(R42 to R46, R171). -/
structure Reads (s : State) (m : Memory 8) (len : BitVec 32) (n : Nat) : Prop extends Reading s where
  ibuf : s.bpr.ibuf = m
  ilen : s.bpr.ilen = len
  taken : 8 * s.bpr.pos.toNat = n + s.bpr.cnt.toNat
  held : s.bpr.acc.toNat = bitsAt (spelledLsb m 0 len.toNat) n s.bpr.cnt.toNat

/-- INIT opens a session at the stream's first bit (R170). -/
theorem exec_bprInit_reads {s : State} {len : BitVec 32} (hs : s.Inv) (hlen : len.toNat ≤ s.cfg.bufBytes) :
    ∃ t, exec (.bprInit len) s = .next t ∧ okValue t = some 0 ∧ Reads t s.bpr.ibuf len 0 := by
  have hx := exec_bprInit_opens (s := s) hlen
  exact ⟨_, hx, by simp, ⟨exec_keepsInv hs hx, rfl, rfl⟩, rfl, rfl, rfl, by simp [openBpr, bitsAt, Nat.mod_one]⟩

/-- The refill takes the bytes after those taken, and so the bits after those held (R171). -/
theorem Reads.heldAfterRefill_eq {s : State} {m : Memory 8} {len : BitVec 32} {n nbits : Nat} (h : Reads s m len n)
    (hle : s.bpr.pos.toNat + refillCount nbits s.bpr.cnt.toNat ≤ len.toNat) :
    heldAfterRefill s.bpr nbits = bitsAt (spelledLsb m 0 len.toNat) n (nbits + keptBits s.bpr nbits) := by
  rw [heldAfterRefill, h.held, h.ibuf, spelledLsb_eq_bitsAt m hle, h.taken, ← bitsAt_add, cnt_add_refill]

/-- The registers after an accepted READBITS, as numbers: the accumulator holds the bits after those returned (R171). -/
theorem Reads.readOn_toNat {s : State} {m : Memory 8} {len : BitVec 32} {n nbits : Nat} (h : Reads s m len n)
    (hle : s.bpr.pos.toNat + refillCount nbits s.bpr.cnt.toNat ≤ len.toNat) :
    (readOn s.bpr nbits).acc.toNat = bitsAt (spelledLsb m 0 len.toNat) (n + nbits) (keptBits s.bpr nbits) ∧
      (readOn s.bpr nbits).cnt.toNat = keptBits s.bpr nbits ∧
      (readOn s.bpr nbits).pos.toNat = s.bpr.pos.toNat + refillCount nbits s.bpr.cnt.toNat := by
  have hkept := keptBits_lt s.bpr nbits
  have hacc : bitsAt (spelledLsb m 0 len.toNat) (n + nbits) (keptBits s.bpr nbits) < 2 ^ 32 :=
    (bitsAt_lt _ _ _).trans (Nat.pow_lt_pow_right (by norm_num) hkept)
  simp only [readOn, h.heldAfterRefill_eq hle, bitsAt_add_div, BitVec.toNat_ofNat]
  exact ⟨Nat.mod_eq_of_lt hacc, Nat.mod_eq_of_lt hkept, Nat.mod_eq_of_lt (by omega)⟩

/-- A READBITS of bits that the stream has, over written bytes, returns them and takes the reader past them (R171). -/
theorem Reads.get {s : State} {m : Memory 8} {len : BitVec 32} {n : Nat} {nbits : BitVec 8} (h : Reads s m len n)
    (hn : nbits.toNat ≤ maxNbits) (hroom : n + nbits.toNat ≤ 8 * len.toNat) (hstored : storedBelow m len.toNat) :
    ∃ t, exec (.bprReadbits nbits) s = .next t ∧
      okValue t = some (BitVec.ofNat 32 (bitsAt (spelledLsb m 0 len.toNat) n nbits.toNat)) ∧
      Reads t m len (n + nbits.toNat) := by
  have htaken := h.taken
  have hleft : (nbits.toNat : Int) ≤ bitsLeft s.bpr := by
    rw [bitsLeft, h.ilen]
    omega
  have hle := h.refill_le hleft
  rw [h.ilen] at hle
  have hw : nextBytesWritten s.bpr nbits.toNat := fun a _ ha => h.ibuf ▸ hstored a (by omega)
  have hx := exec_bprReadbits_read h.toReading hn hleft hw
  obtain ⟨nacc, ncnt, npos⟩ := h.readOn_toNat hle
  have hkept := cnt_add_refill s.bpr nbits.toNat
  refine ⟨_, hx, by simp [h.heldAfterRefill_eq hle, bitsAt_add_mod], ⟨exec_keepsInv h.inv hx, h.st, h.err⟩, h.ibuf, h.ilen,
    ?_, nacc.trans (congrArg _ ncnt.symm)⟩
  show 8 * (readOn s.bpr nbits.toNat).pos.toNat = n + nbits.toNat + (readOn s.bpr nbits.toNat).cnt.toNat
  omega

/-! ### Whole sessions -/

/-- The low bits of a pair's value as a response value (R171). -/
def pairResult (y : BitVec 32 × BitVec 8) : Reg32 := BitVec.ofNat 32 (y.1.toNat % 2 ^ y.2.toNat)

/-- The READBITS of a list of pairs. -/
def unpackPairs (pairs : List (BitVec 32 × BitVec 8)) : List Instr := pairs.map fun y => .bprReadbits y.2

theorem unpackRun_eq (len : BitVec 32) (pairs : List (BitVec 32 × BitVec 8)) :
    unpackRun len pairs = .bprInit len :: unpackPairs pairs := rfl

/-- When what is left of the stream is the number of these pairs, their READBITS return their values (R173). -/
theorem Reads.gets {s : State} {m : Memory 8} {len : BitVec 32} {n : Nat} {pairs : List (BitVec 32 × BitVec 8)}
    (h : Reads s m len n) (hwidths : ∀ y ∈ pairs, y.2.toNat ≤ maxNbits) (hroom : n + pairsBits pairs ≤ 8 * len.toNat)
    (hrest : spelledLsb m 0 len.toNat / 2 ^ n = pairsValue pairs) (hstored : storedBelow m len.toNat) :
    ∃ t, runOk (unpackPairs pairs) s = some (t, pairs.map pairResult) := by
  induction pairs generalizing s n with
  | nil => exact ⟨s, rfl⟩
  | cons y ys ih =>
    obtain ⟨hy, hys⟩ := List.forall_mem_cons.1 hwidths
    rw [pairsBits_cons] at hroom
    obtain ⟨s', hx, hv, h'⟩ := h.get hy (by omega) hstored
    rw [bitsAt, hrest, pairsValue_cons_mod] at hv
    have hrest' : spelledLsb m 0 len.toNat / 2 ^ (n + y.2.toNat) = pairsValue ys := by
      rw [pow_add, ← Nat.div_div_eq_div_mul, hrest, pairsValue_cons_div]
    obtain ⟨t, hrun⟩ := ih h' hys (by omega) hrest'
    exact ⟨t, by rw [unpackPairs, List.map_cons, runOk_cons hx hv, ← unpackPairs, hrun]; rfl⟩

/-- Settles O43: the writer ran OK, so its stream spells the number of the pairs, which the reader takes apart again. -/
theorem bitPackerRoundTrip : Obligations.BitPackerRoundTrip := by
  intro s t d cap pairs vs hs hrun hd hsize hm
  obtain ⟨hwidths, hstored, hroom, hspelled⟩ := pairsPacked_of_runOk hs hrun
  have hstored' : storedBelow d.bpr.ibuf t.bpw.olen.toNat := fun a ha => hm a ha ▸ hstored a ha
  have hspelled' : spelledLsb d.bpr.ibuf 0 t.bpw.olen.toNat = pairsValue pairs :=
    (spelledLsb_congr fun a _ ha => hm a (by omega)).trans hspelled
  obtain ⟨d0, hx, hv, h⟩ := exec_bprInit_reads hd hsize
  obtain ⟨d', hrun'⟩ := h.gets hwidths (by omega) (by rw [pow_zero, Nat.div_one, hspelled']) hstored'
  exact ⟨d', by rw [unpackRun_eq, runOk_cons hx hv, hrun']; rfl⟩

end Sys2Proof.Machine
end

section
/-!
SUPPORT. What the predictors answer (spec/42_predictors.md R191 to R211): the packed average is the average of each lane, and with
a legal `top` and its three words written every mode answers OK with its function of the four pixels.
-/
namespace Sys2Proof.Machine

/-! ### Lanes as numbers -/

theorem laneNat_lt (p : Pixel) (k : Nat) : laneNat p k < 256 := (lane p k).isLt

theorem laneNat_packLanes (f : Nat → Byte) {k : Nat} (hk : k < 4) : laneNat (packLanes f) k = (f k).toNat := by
  rw [laneNat, lane_packLanes f hk]

theorem byteDiff_lane (a b : Pixel) (k : Nat) : byteDiff (lane a k) (lane b k) = (laneNat a k : Int) - laneNat b k := rfl

/-! ### The average -/

/-- The formula of R191 on one byte. -/
def avgByte (x y : Byte) : Byte := (((x ^^^ y) &&& 0xFE) >>> 1) + (x &&& y)

/-- The mask of R191 leaves of a byte twice its upper seven bits. -/
theorem and_0xFE_toNat (x : Byte) : (x &&& 0xFE).toNat = 2 * (x.toNat / 2) := by
  revert x
  decide

/-- Half of what two bytes differ in and what they share is their average rounded down, so a lane carries nothing (R191). -/
theorem half_xor_add_and (x y : Byte) : (x ^^^ y).toNat / 2 + (x &&& y).toNat = (x.toNat + y.toNat) / 2 := by
  rw [BitVec.toNat_xor, BitVec.toNat_and, add_eq_xor_add_two_mul_and x.toNat y.toNat]
  omega

theorem avgByte_toNat (x y : Byte) : (avgByte x y).toNat = (x.toNat + y.toNat) / 2 := by
  have hx := x.isLt
  have hy := y.isLt
  rw [avgByte, BitVec.toNat_add, BitVec.toNat_ushiftRight, and_0xFE_toNat, Nat.shiftRight_eq_div_pow, pow_one,
    Nat.mul_div_cancel_left _ two_pos, half_xor_add_and, Nat.mod_eq_of_lt (by omega)]

theorem pack_toNat (a r g b : Byte) :
    (pack a r g b).toNat = ((a.toNat * 2 ^ 8 + r.toNat) * 2 ^ 8 + g.toNat) * 2 ^ 8 + b.toNat := by
  rw [pack, BitVec.toNat_append, ← Nat.shiftLeft_add_eq_or_of_lt b.isLt, BitVec.toNat_append,
    ← Nat.shiftLeft_add_eq_or_of_lt g.isLt, BitVec.toNat_append, ← Nat.shiftLeft_add_eq_or_of_lt r.isLt]
  simp only [Nat.shiftLeft_eq]

theorem pack_xor_pack (a r g b a' r' g' b' : Byte) :
    pack a r g b ^^^ pack a' r' g' b' = pack (a ^^^ a') (r ^^^ r') (g ^^^ g') (b ^^^ b') := by
  rw [pack, pack, BitVec.xor_append, BitVec.xor_append, BitVec.xor_append, pack]

theorem pack_and_pack (a r g b a' r' g' b' : Byte) :
    pack a r g b &&& pack a' r' g' b' = pack (a &&& a') (r &&& r') (g &&& g') (b &&& b') := by
  rw [pack, pack, BitVec.and_append, BitVec.and_append, BitVec.and_append, pack]

/-- On packed bytes `avg2` averages each byte: the mask keeps the shift, and the size of an average the sum, inside the lane. -/
theorem avg2_pack (a r g b a' r' g' b' : Byte) :
    avg2 (pack a r g b) (pack a' r' g' b') = pack (avgByte a a') (avgByte r r') (avgByte g g') (avgByte b b') := by
  have hmask : (0xFEFEFEFE : Pixel) = pack 0xFE 0xFE 0xFE 0xFE := rfl
  have hA := half_xor_add_and a a'
  have hR := half_xor_add_and r r'
  have hG := half_xor_add_and g g'
  have hB := half_xor_add_and b b'
  apply BitVec.eq_of_toNat_eq
  rw [avg2, pack_xor_pack, pack_and_pack, hmask, pack_and_pack, BitVec.toNat_add, BitVec.toNat_ushiftRight,
    Nat.shiftRight_eq_div_pow]
  simp only [pack_toNat, and_0xFE_toNat, avgByte_toNat]
  omega

/-- Lane by lane `avg2` is the average rounded down (R191). -/
theorem laneNat_avg2 (a b : Pixel) {k : Nat} (hk : k < 4) :
    laneNat (avg2 a b) k = (laneNat a k + laneNat b k) / 2 := by
  have havg : avg2 a b = packLanes fun k => avgByte (lane a k) (lane b k) := by
    conv_lhs => rw [← pack_lanes a, ← pack_lanes b, avg2_pack]
    rfl
  rw [havg, laneNat_packLanes _ hk, avgByte_toNat, laneNat, laneNat]

theorem avg2_comm (a b : Pixel) : avg2 a b = avg2 b a := by
  rw [avg2, avg2, BitVec.xor_comm, BitVec.and_comm a b]

/-- Settles O44: the packed average is the average of each lane; both bit operations are commutative. -/
theorem averageIsLanewiseFloor : Obligations.AverageIsLanewiseFloor :=
  ⟨fun a b _ hk => laneNat_avg2 a b hk, avg2_comm, by decide, by decide, by decide⟩

/-! ### The template -/

/-- With a legal `top` and its three words written the template answers OK with its function of the four pixels (R194). -/
theorem predict_ok (f : Pixel → Pixel → Pixel → Pixel → Pixel) {top : BitVec 16} (left : Pixel) {tl t tr : Pixel}
    {s : State} (h : rowAbove s top tl t tr) : predict f top left s = .next (s.answer .ok (f left tl t tr)) := by
  obtain ⟨h1, h2, htl, ht, htr⟩ := h
  have hread : ∀ {a v}, a ≤ top.toNat + 1 → s.pmem.read a = some v → memRead s.cfg .pmem s.pmem a = .ok v :=
    fun ha hv => memRead_ok_iff.2 ⟨by simp only [Config.sizeOf]; omega, hv⟩
  rw [predict, if_pos (topInPmem_of_le h1 h2), hread (by omega) htl, orFault_ok, hread (by omega) ht, orFault_ok,
    hread le_rfl htr, orFault_ok, State.respond]

/-! ### The modes -/

/-- Settles O47: each mode is the template with one of its pixels, or with the constant. -/
theorem copyingPredictorsResult : Obligations.CopyingPredictorsResult := by
  intro top left tl t tr s h
  exact ⟨predict_ok predictor0 left h, predict_ok predictor1 left h, predict_ok predictor2 left h, predict_ok predictor3 left h,
    predict_ok predictor4 left h⟩

/-- Settles O48: each mode is the template with nested averages, of which each is the average of the lanes. -/
theorem averagingPredictorsResult : Obligations.AveragingPredictorsResult := by
  intro top left tl t tr s h
  refine ⟨⟨_, predict_ok predictor5 left h, fun k hk => ?_⟩,
    ⟨_, predict_ok predictor6 left h, fun k hk => laneNat_avg2 _ _ hk⟩,
    ⟨_, predict_ok predictor7 left h, fun k hk => laneNat_avg2 _ _ hk⟩,
    ⟨_, predict_ok predictor8 left h, fun k hk => laneNat_avg2 _ _ hk⟩,
    ⟨_, predict_ok predictor9 left h, fun k hk => laneNat_avg2 _ _ hk⟩,
    ⟨_, predict_ok predictor10 left h, fun k hk => ?_⟩⟩
  · rw [predictor5, laneNat_avg2 _ _ hk, laneNat_avg2 _ _ hk]
  · rw [predictor10, laneNat_avg2 _ _ hk, laneNat_avg2 _ _ hk, laneNat_avg2 _ _ hk]

/-- A lane's term in Select is the difference of two distances from TL (R209). -/
theorem selectTerm_eq (t l tl : Pixel) (k : Nat) : selectTerm t l tl k =
    ((laneNat t k : Int) - laneNat tl k).natAbs - ((laneNat l k : Int) - laneNat tl k).natAbs := by
  rw [selectTerm, byteDiff_lane, byteDiff_lane, Int.abs_eq_natAbs, Int.abs_eq_natAbs]

/-- Lane by lane the full gradient, clamped (R193, R210). -/
theorem laneNat_clampedAddSubtractFull (a b c : Pixel) {k : Nat} (hk : k < 4) :
    (laneNat (clampedAddSubtractFull a b c) k : Int) =
      min 255 (max 0 ((laneNat a k : Int) + laneNat b k - laneNat c k)) := by
  have ha := laneNat_lt a k
  have hb := laneNat_lt b k
  have hc := laneNat_lt c k
  rw [clampedAddSubtractFull, laneNat_packLanes _ hk, byteDiff_lane, ← laneNat, ← add_sub_assoc,
    clip255_toNat (by omega) (by omega)]

/-- Lane by lane the half gradient, rounded toward zero and clamped (R193, R211). -/
theorem laneNat_clampedAddSubtractHalf (a b : Pixel) {k : Nat} (hk : k < 4) :
    (laneNat (clampedAddSubtractHalf a b) k : Int) =
      min 255 (max 0 ((laneNat a k : Int) + Int.tdiv ((laneNat a k : Int) - laneNat b k) 2)) := by
  have ha := laneNat_lt a k
  have hb := laneNat_lt b k
  have hhalf := Int.natAbs_tdiv_le_natAbs ((laneNat a k : Int) - laneNat b k) 2
  rw [clampedAddSubtractHalf, laneNat_packLanes _ hk, byteDiff_lane, ← laneNat, tdiv2, clip255_toNat (by omega) (by omega)]

/-- Settles O49: the sum of Select is the difference of the two distances; the gradients are clamped in each lane. -/
theorem gradientPredictorsResult : Obligations.GradientPredictorsResult := by
  intro top left tl t tr s h distance
  have hselect : select t left tl = if distance t ≤ distance left then t else left := by
    refine if_congr ?_ rfl rfl
    simp only [selectTerm_eq, distance]
    omega
  refine ⟨hselect ▸ predict_ok predictor11 left h,
    ⟨_, predict_ok predictor12 left h, fun k hk => laneNat_clampedAddSubtractFull left t tl hk⟩,
    ⟨_, predict_ok predictor13 left h, fun k hk => ?_⟩⟩
  rw [predictor13, laneNat_clampedAddSubtractHalf _ _ hk, laneNat_avg2 _ _ hk]

end Sys2Proof.Machine
end

section
/-!
SUPPORT. What the colour commands do (spec/43_color_transform.md R230 to R239): each pixel function shifts red and blue by an amount
of the other lanes, a command over written words of PMEM puts every word through its pixel function, and two commands whose
functions undo each other restore PMEM.
-/
namespace Sys2Proof.Machine

/-! ### Bytes and deltas -/

@[simp] theorem u8_chan (x : Byte) : u8 (chan x) = x := by
  rw [u8, chan, BitVec.ofInt_natCast, BitVec.ofNat_toNat, BitVec.setWidth_eq]

theorem u8_add (a b : Int) : u8 (a + b) = u8 a + u8 b := BitVec.ofInt_add a b

theorem u8_sub (a b : Int) : u8 (a - b) = u8 a + -u8 b := by
  rw [sub_eq_add_neg, u8_add, u8, u8, u8, BitVec.ofInt_neg]

/-- The product of two signed bytes fits in 16 bits, so the 16-bit arithmetic of `deltaByte` is exact (R231). -/
theorem u8_delta (coef channel : Byte) : u8 (delta coef channel) = deltaByte coef channel := by
  have hle := BitVec.toInt_mul_toInt_le (x := coef) (y := channel)
  have hge := BitVec.le_toInt_mul_toInt (x := coef) (y := channel)
  have hprod : (coef.signExtend 16 * channel.signExtend 16).toInt = coef.toInt * channel.toInt := by
    rw [BitVec.toInt_mul, BitVec.toInt_signExtend_of_le (by omega), BitVec.toInt_signExtend_of_le (by omega)]
    exact Int.bmod_eq_of_le (by omega) (by omega)
  rw [deltaByte, ← BitVec.signExtend_eq_setWidth_of_le _ (by omega), BitVec.signExtend, BitVec.toInt_sshiftRight, hprod,
    Int.shiftRight_eq_div_pow]
  rfl

@[simp] theorem delta_zero (channel : Byte) : delta 0 channel = 0 := by simp [delta, s8, asr]

@[simp] theorem g2rOf_zero : g2rOf 0 = 0 := rfl
@[simp] theorem g2bOf_zero : g2bOf 0 = 0 := rfl
@[simp] theorem r2bOf_zero : r2bOf 0 = 0 := rfl

/-! ### The pixel functions -/

/-- Alpha, red, green and blue put together again. -/
theorem pack_channels (p : Pixel) : pack (alphaOf p) (redOf p) (greenOf p) (blueOf p) = p := pack_lanes p

@[simp] theorem alphaOf_pack (a r g b : Byte) : alphaOf (pack a r g b) = a := lane_pack_three a r g b
@[simp] theorem redOf_pack (a r g b : Byte) : redOf (pack a r g b) = r := lane_pack_two a r g b
@[simp] theorem greenOf_pack (a r g b : Byte) : greenOf (pack a r g b) = g := lane_pack_one a r g b
@[simp] theorem blueOf_pack (a r g b : Byte) : blueOf (pack a r g b) = b := lane_pack_zero a r g b

/-- A pixel that keeps alpha and green is shifted by what its red and its blue gained. -/
theorem redBlueShifted_pack {p : Pixel} {r b dr db : Byte} (hr : r = redOf p + dr) (hb : b = blueOf p + db) :
    redBlueShifted p (pack (alphaOf p) r (greenOf p) b) dr db :=
  ⟨lane_pack_three _ _ _ _, lane_pack_one _ _ _ _, (lane_pack_two _ _ _ _).trans hr, (lane_pack_zero _ _ _ _).trans hb⟩

theorem subGreen_shifts (p : Pixel) : redBlueShifted p (subGreen p) (- lane p 1) (- lane p 1) :=
  redBlueShifted_pack (by rw [u8_sub, u8_chan, u8_chan]; rfl) (by rw [u8_sub, u8_chan, u8_chan]; rfl)

theorem addGreen_shifts (p : Pixel) : redBlueShifted p (addGreen p) (lane p 1) (lane p 1) :=
  redBlueShifted_pack (by rw [u8_add, u8_chan, u8_chan]; rfl) (by rw [u8_add, u8_chan, u8_chan]; rfl)

/-- Blue consumes green and the original red (R236). -/
theorem forwardPixel_shifts (mult : BitVec 24) (p : Pixel) :
    redBlueShifted p (forwardPixel mult p) (- deltaByte (mult.extractLsb' 16 8) (lane p 1))
      (- deltaByte (mult.extractLsb' 8 8) (lane p 1) - deltaByte (mult.extractLsb' 0 8) (lane p 2)) := by
  refine redBlueShifted_pack ?red ?blue
  case red =>
    rw [u8_sub, u8_chan, u8_delta]
    rfl
  case blue =>
    rw [u8_sub, u8_sub, u8_chan, u8_delta, u8_delta, add_assoc, ← sub_eq_add_neg]
    rfl

/-- Blue consumes green and the red just recomputed (R237). -/
theorem inversePixel_shifts (mult : BitVec 24) (p : Pixel) :
    redBlueShifted p (inversePixel mult p) (deltaByte (mult.extractLsb' 16 8) (lane p 1))
      (deltaByte (mult.extractLsb' 8 8) (lane p 1) +
        deltaByte (mult.extractLsb' 0 8) (lane (inversePixel mult p) 2)) := by
  refine redBlueShifted_pack ?red ?blue
  case red =>
    rw [u8_add, u8_chan, u8_delta]
    rfl
  case blue =>
    rw [u8_add, u8_add, u8_chan, u8_delta, u8_delta, add_assoc, inversePixel, lane_pack_two]
    rfl

theorem addGreen_subGreen (p : Pixel) : addGreen (subGreen p) = p := by
  simp only [addGreen, subGreen, alphaOf_pack, redOf_pack, greenOf_pack, blueOf_pack, u8_sub_add, pack_channels]

theorem subGreen_addGreen (p : Pixel) : subGreen (addGreen p) = p := by
  simp only [addGreen, subGreen, alphaOf_pack, redOf_pack, greenOf_pack, blueOf_pack, u8_add_sub, pack_channels]

/-- Red comes back first, so blue gives back the same two deltas it lost (R239). -/
theorem inversePixel_forwardPixel (mult : BitVec 24) (p : Pixel) : inversePixel mult (forwardPixel mult p) = p := by
  simp only [inversePixel, forwardPixel, alphaOf_pack, redOf_pack, greenOf_pack, blueOf_pack, u8_sub_add, sub_sub, add_assoc,
    pack_channels]

/-- The red the inverse stores is the red the forward function meets, so blue loses the same two deltas it gained (R239). -/
theorem forwardPixel_inversePixel (mult : BitVec 24) (p : Pixel) : forwardPixel mult (inversePixel mult p) = p := by
  simp only [inversePixel, forwardPixel, alphaOf_pack, redOf_pack, greenOf_pack, blueOf_pack, u8_add_sub, sub_sub, add_assoc,
    pack_channels]

/-- Every delta of the zero tuple is 0 (R238). -/
theorem forwardPixel_zero (p : Pixel) : forwardPixel 0 p = p := by
  simp only [forwardPixel, g2rOf_zero, g2bOf_zero, r2bOf_zero, delta_zero, sub_zero, u8_chan, pack_channels]

/-- Every delta of the zero tuple is 0 (R238). -/
theorem inversePixel_zero (p : Pixel) : inversePixel 0 p = p := by
  simp only [inversePixel, g2rOf_zero, g2bOf_zero, r2bOf_zero, delta_zero, add_zero, u8_chan, pack_channels]

/-! ### Memories put through a pixel function -/

/-- Each word from `dst` on is the function of the old word from `src` on; the words outside `dst .. dst + n − 1` stay. -/
def RangeMapped (f : Pixel → Pixel) (src dst n : Nat) (m m' : Memory 32) : Prop :=
  (∀ a, ¬ (dst ≤ a ∧ a < dst + n) → m'.read a = m.read a) ∧ ∀ i, i < n → m'.read (dst + i) = (m.read (src + i)).map f

/-- A pixel function related to its argument relates the words of the range. -/
theorem RangeMapped.related {f : Pixel → Pixel} {r : Pixel → Pixel → Prop} {a n : Nat} {m m' : Memory 32}
    (h : RangeMapped f a a n m m') (hr : ∀ p, r p (f p)) (hw : ∀ i, i < n → (m.read (a + i)).isSome) :
    rangeRelated r a n m m' := by
  obtain ⟨hout, hin⟩ := h
  refine ⟨hout, fun i hi => ?_⟩
  obtain ⟨p, hp⟩ := Option.isSome_iff_exists.1 (hw i hi)
  exact ⟨p, f p, hp, by rw [hin i hi, hp, Option.map_some], hr p⟩

theorem RangeMapped.comp {f g : Pixel → Pixel} {a n : Nat} {m m₁ m₂ : Memory 32} (h₁ : RangeMapped f a a n m m₁)
    (h₂ : RangeMapped g a a n m₁ m₂) : RangeMapped (g ∘ f) a a n m m₂ :=
  ⟨fun b hb => (h₂.1 b hb).trans (h₁.1 b hb), fun i hi => by rw [h₂.2 i hi, h₁.2 i hi, Option.map_map]⟩

/-- In place, a function that changes no pixel changes no word; canonical memories with the same words are equal (R62). -/
theorem RangeMapped.eq_self {f : Pixel → Pixel} {a n : Nat} {m m' : Memory 32} (h : RangeMapped f a a n m m')
    (hf : ∀ p, f p = p) (hm : m.wf) (hm' : m'.wf) : m' = m := by
  obtain ⟨hout, hin⟩ := h
  refine Memory.ext_of_read hm' hm fun b => ?_
  by_cases hb : a ≤ b ∧ b < a + n
  · have := hin (b - a) (by omega)
    rwa [Nat.add_sub_cancel' hb.1, funext hf, ← Function.id_def, Option.map_id_fun, id] at this
  · exact hout b hb

/-! ### The commands over a range -/

/-- The words `a .. a + n − 1` are inside PMEM and written. -/
def Written (s : State) (a n : Nat) : Prop := a + n ≤ s.cfg.pmemWords ∧ ∀ i, i < n → (s.pmem.read (a + i)).isSome

/-- The command answers OK and changes only `CC` and PMEM, where it puts a range of words through the pixel function. -/
def MapsPmem (i : Instr) (f : Pixel → Pixel) (src dst n : Nat) (s : State) : Prop :=
  ∃ m, exec i s = .next ((s.setPmem m).answer .ok 0) ∧ RangeMapped f src dst n s.pmem m

/-- The template of R232 over written words. -/
theorem mapRange_ok (f : Pixel → Pixel) {addr count : BitVec 16} {s : State} (hs : s.Inv)
    (h : Written s addr.toNat count.toNat) : ∃ m, mapRange f addr count s = .next ((s.setPmem m).answer .ok 0) ∧
      RangeMapped f addr.toNat addr.toNat count.toNat s.pmem m := by
  obtain ⟨hrange, hw⟩ := h
  obtain ⟨_, _, _, _, _, hmem, _⟩ := hs
  obtain ⟨m, hm, _, hout, hin⟩ := mapPixels_ok f hmem hrange hrange fun i hi => .inr (hw i hi)
  refine ⟨m, ?_, hout, fun i hi => ?_⟩
  · rw [mapRange, if_pos (rangeInPmem_of_le hrange), hm, orFault_ok, State.respond]
  · rw [hin i hi, if_neg (by omega)]

theorem mapRange_addr (f : Pixel → Pixel) {addr count : BitVec 16} {s : State}
    (h : s.cfg.pmemWords < addr.toNat + count.toNat) : mapRange f addr count s = .next (s.answer .addr 0) :=
  mapRange_reports (by rw [firstOf_cons, if_pos (decide_eq_true h)])

theorem subg_mapsPmem {addr count : BitVec 16} {s : State} (hs : s.Inv) (h : Written s addr.toNat count.toNat) :
    MapsPmem (.subg addr count) subGreen addr.toNat addr.toNat count.toNat s := mapRange_ok subGreen hs h

theorem addg_mapsPmem {addr count : BitVec 16} {s : State} (hs : s.Inv) (h : Written s addr.toNat count.toNat) :
    MapsPmem (.addg addr count) addGreen addr.toNat addr.toNat count.toNat s := mapRange_ok addGreen hs h

theorem ctFwd_mapsPmem {addr count : BitVec 16} {s : State} (hs : s.Inv) (h : Written s addr.toNat count.toNat) :
    MapsPmem (.ctFwd addr count) (forwardPixel s.mult) addr.toNat addr.toNat count.toNat s := mapRange_ok _ hs h

/-- CT.INV with both ranges in PMEM, where a source word that no earlier pixel stores is written (R237). -/
theorem ctInv_ok {src dst count : BitVec 16} {s : State} (hs : s.Inv) (hsrc : src.toNat + count.toNat ≤ s.cfg.pmemWords)
    (hdst : dst.toNat + count.toNat ≤ s.cfg.pmemWords)
    (hw : ∀ i, i < count.toNat →
      (src.toNat < dst.toNat ∧ dst.toNat ≤ src.toNat + i) ∨ (s.pmem.read (src.toNat + i)).isSome) :
    ∃ m, exec (.ctInv src dst count) s = .next ((s.setPmem m).answer .ok 0) ∧
      (∀ a, ¬ (dst.toNat ≤ a ∧ a < dst.toNat + count.toNat) → m.read a = s.pmem.read a) ∧
      ∀ i, i < count.toNat → m.read (dst.toNat + i) =
        (if src.toNat < dst.toNat ∧ dst.toNat ≤ src.toNat + i then m.read (src.toNat + i)
          else s.pmem.read (src.toNat + i)).map (inversePixel s.mult) := by
  obtain ⟨_, _, _, _, _, hmem, _⟩ := hs
  obtain ⟨m, hm, _, hout, hin⟩ := mapPixels_ok (inversePixel s.mult) hmem hsrc hdst hw
  refine ⟨m, ?_, hout, hin⟩
  rw [exec, execCtInv, if_pos (rangeInPmem_of_le hsrc), if_pos (rangeInPmem_of_le hdst), hm, orFault_ok, State.respond]

/-- To a range that does not begin inside its source CT.INV reads every source word before it stores there (R237). -/
theorem ctInv_mapsPmem {src dst count : BitVec 16} {s : State} (hs : s.Inv) (h : Written s src.toNat count.toNat)
    (hdst : dst.toNat + count.toNat ≤ s.cfg.pmemWords)
    (hapart : dst.toNat ≤ src.toNat ∨ src.toNat + count.toNat ≤ dst.toNat) :
    MapsPmem (.ctInv src dst count) (inversePixel s.mult) src.toNat dst.toNat count.toNat s := by
  obtain ⟨hsrc, hw⟩ := h
  obtain ⟨m, hexec, hout, hin⟩ := ctInv_ok hs hsrc hdst fun i hi => .inr (hw i hi)
  refine ⟨m, hexec, hout, fun i hi => ?_⟩
  rw [hin i hi, if_neg (by omega)]

/-- Every word of the destination is written in the end: it comes from an old word, or from an earlier word of the destination,
`dst − src` below it. -/
theorem isSome_of_ascending {f : Pixel → Pixel} {src dst n : Nat} {m m' : Memory 32}
    (hin : ∀ i, i < n → m'.read (dst + i) =
      (if src < dst ∧ dst ≤ src + i then m'.read (src + i) else m.read (src + i)).map f)
    (hw : ∀ i, i < n → (src < dst ∧ dst ≤ src + i) ∨ (m.read (src + i)).isSome) :
    ∀ i, i < n → (m'.read (dst + i)).isSome := by
  intro i
  induction i using Nat.strong_induction_on with
  | _ i ih =>
    intro hi
    rw [hin i hi, Option.isSome_map]
    split
    case isTrue hc =>
      have := ih (src + i - dst) (by omega) (by omega)
      rwa [Nat.add_sub_cancel' hc.2] at this
    case isFalse hc => exact (hw i hi).resolve_left hc

/-! ### Two commands that undo each other -/

/-- The words of a range put through a pixel function in place stay written. -/
theorem Written.setPmem_answer {f : Pixel → Pixel} {a n : Nat} {s : State} {m : Memory 32} (h : Written s a n)
    (hmap : RangeMapped f a a n s.pmem m) : Written ((s.setPmem m).answer .ok 0) a n :=
  ⟨h.1, fun i hi => by
    rw [State.answer_pmem, State.setPmem_pmem, hmap.2 i hi, Option.isSome_map]
    exact h.2 i hi⟩

/-- In place over the same written words, a command whose pixel function undoes that of the first restores PMEM. -/
theorem MapsPmem.runOk_pair {i j : Instr} {f g : Pixel → Pixel} {a n : Nat} {s : State} (hi : MapsPmem i f a a n s)
    (hs : s.Inv) (hw : Written s a n) (hgf : ∀ p, g (f p) = p)
    (hj : ∀ t : State, t.Inv → t.mult = s.mult → Written t a n → MapsPmem j g a a n t) :
    ∃ t, runOk [i, j] s = some (t, [0, 0]) ∧ t.pmem = s.pmem := by
  obtain ⟨m₁, hexec₁, hmap₁⟩ := hi
  have hs₁ := exec_keepsInv hs hexec₁
  obtain ⟨m₂, hexec₂, hmap₂⟩ := hj _ hs₁ rfl (hw.setPmem_answer hmap₁)
  obtain ⟨_, _, _, _, _, ⟨hwf, _⟩, _⟩ := hs
  obtain ⟨_, _, _, _, _, ⟨hwf₂, _⟩, _⟩ := exec_keepsInv hs₁ hexec₂
  refine ⟨(((s.setPmem m₁).answer .ok 0).setPmem m₂).answer .ok 0, ?_, (hmap₁.comp hmap₂).eq_self hgf hwf hwf₂⟩
  rw [runOk_cons hexec₁ (okValue_answer _ _ _), runOk_cons hexec₂ (okValue_answer _ _ _)]
  rfl

/-! ### The statements -/

/-- Settles O50: both commands are the template of R232, and each pixel function shifts red and blue by green. -/
theorem greenStageResult : Obligations.GreenStageResult := by
  intro addr count s
  refine ⟨fun h => ⟨mapRange_addr subGreen h, mapRange_addr addGreen h⟩, fun hs hrange hw => ⟨?subg, ?addg⟩⟩
  case subg =>
    obtain ⟨m, hexec, hmap⟩ := subg_mapsPmem hs ⟨hrange, hw⟩
    exact ⟨m, hexec, hmap.related subGreen_shifts hw⟩
  case addg =>
    obtain ⟨m, hexec, hmap⟩ := addg_mapsPmem hs ⟨hrange, hw⟩
    exact ⟨m, hexec, hmap.related addGreen_shifts hw⟩

/-- Settles O52: the command is the template of R232, and its pixel function shifts red and blue by the deltas. -/
theorem ctFwdResult : Obligations.CtFwdResult := by
  intro addr count s
  refine ⟨mapRange_addr (forwardPixel s.mult), fun hs hrange hw => ?_⟩
  obtain ⟨m, hexec, hmap⟩ := ctFwd_mapsPmem hs ⟨hrange, hw⟩
  exact ⟨m, hexec, hmap.related (forwardPixel_shifts s.mult) hw⟩

/-- Settles O53: either failing bounds check is reported; otherwise each word is the inverse of a pixel that is written, at the
start or by an earlier pixel. -/
theorem ctInvResult : Obligations.CtInvResult := by
  intro src dst count s
  refine ⟨fun h => ?_, fun hs hsrc hdst hw => ?_⟩
  · have hfirst : firstError s (.ctInv src dst count) = some .addr := by
      rw [firstError_eq_firstOf]
      simp only [errorChecks, firstOf_cons, decide_eq_true_eq]
      split_ifs with hsrc hdst
      · rfl
      · rfl
      · exact absurd h (not_or.2 ⟨hsrc, hdst⟩)
    exact execCdt_reports rfl hfirst
  · obtain ⟨m, hexec, hout, hin⟩ := ctInv_ok hs hsrc hdst hw
    refine ⟨m, hexec, hout, fun i hi => ?_⟩
    obtain ⟨q, hq⟩ := Option.isSome_iff_exists.1 (isSome_of_ascending hin hw i hi)
    obtain ⟨p, hp, rfl⟩ := Option.map_eq_some_iff.1 ((hin i hi).symm.trans hq)
    exact ⟨p, _, hp, hq, inversePixel_shifts s.mult p⟩

/-- Settles O54: the pixel functions undo each other, and CT.INV in place over the range of CT.FWD meets the same tuple. -/
theorem colourTransformIsInvertible : Obligations.ColourTransformIsInvertible := by
  refine ⟨fun mult p => ⟨inversePixel_forwardPixel mult p, forwardPixel_inversePixel mult p⟩, ?_⟩
  intro addr count s hs hrange hw
  refine (ctFwd_mapsPmem hs ⟨hrange, hw⟩).runOk_pair hs ⟨hrange, hw⟩ (inversePixel_forwardPixel s.mult) ?_
  intro t ht hmult htw
  exact hmult ▸ ctInv_mapsPmem ht htw htw.1 (.inl le_rfl)

/-- Settles O55: the pixel functions undo each other, and each command keeps the range written. -/
theorem greenStageIsInvertible : Obligations.GreenStageIsInvertible := by
  refine ⟨fun p => ⟨addGreen_subGreen p, subGreen_addGreen p⟩, fun addr count s hs hrange hw => ⟨?_, ?_⟩⟩
  · exact (subg_mapsPmem hs ⟨hrange, hw⟩).runOk_pair hs ⟨hrange, hw⟩ addGreen_subGreen fun t ht _ htw => addg_mapsPmem ht htw
  · exact (addg_mapsPmem hs ⟨hrange, hw⟩).runOk_pair hs ⟨hrange, hw⟩ subGreen_addGreen fun t ht _ htw => subg_mapsPmem ht htw

/-- Settles O56: with the zero tuple both pixel functions are the identity, so CT.FWD stores what it read and CT.INV copies. -/
theorem zeroTupleIsIdentity : Obligations.ZeroTupleIsIdentity := by
  refine ⟨fun p => ⟨forwardPixel_zero p, inversePixel_zero p⟩, ?_⟩
  intro src dst count s hs hmult hsrc hdst hw
  refine ⟨?fwd, fun hapart => ?inv⟩
  case fwd =>
    obtain ⟨m, hexec, hmap⟩ := ctFwd_mapsPmem hs ⟨hsrc, hw⟩
    obtain ⟨_, _, _, _, _, ⟨hwf', _⟩, _⟩ := exec_keepsInv hs hexec
    obtain ⟨_, _, _, _, _, ⟨hwf, _⟩, _⟩ := hs
    obtain rfl := hmap.eq_self (hmult ▸ forwardPixel_zero) hwf hwf'
    exact hexec
  case inv =>
    obtain ⟨m, hexec, hout, hin⟩ := ctInv_mapsPmem hs ⟨hsrc, hw⟩ hdst hapart
    refine ⟨m, hexec, fun i hi => ?_, hout⟩
    rw [hin i hi, hmult, funext inversePixel_zero, ← Function.id_def, Option.map_id_fun, id]

/-- Settles O51: the word is the command word of R102, and the three bytes stand side by side in the tuple. -/
theorem ctSetmResult : Obligations.CtSetmResult := by
  intro g2r g2b r2b s
  refine ⟨decodeOfEncodeIsIdentity (.ctSetm g2r g2b r2b), rfl, ?_⟩
  rw [BitVec.toNat_append, ← Nat.shiftLeft_add_eq_or_of_lt r2b.isLt, BitVec.toNat_append,
    ← Nat.shiftLeft_add_eq_or_of_lt g2b.isLt]
  simp only [Nat.shiftLeft_eq]
  omega

end Sys2Proof.Machine
end

section
/-!
SUPPORT. What RDSR reads (spec/10_state.md R51): under the invariant every register is read as a word, and its number is the one
of the register's content.
-/
namespace Sys2Proof.Machine

/-- A STAT register as a number: the session bit, then the error code from bit 1 on (R51). -/
theorem statWord_toNat (st : Lifecycle) (e : Status) : (statWord st e).toNat = st.bit.toNat + 2 * e.code.toNat := by
  cases st <;> cases e <;> rfl

/-- Under the invariant every status register is read: a read fails only where the content does not fit (R51). -/
theorem readStatus_ok {s : State} (hs : s.Inv) (r : StatusReg) : ∃ v, readStatus s r = .ok v := by
  cases hr : readStatus s r with
  | ok v => exact ⟨v, rfl⟩
  | error f =>
    have hf := readStatus_stops hs r f hr
    rw [readStatus_error hr] at hf
    cases hf

/-- The register is read as the 32-bit word of the number `n`. -/
def ReadsAs (s : State) (r : StatusReg) (n : Nat) : Prop := ∃ v, readStatus s r = .ok v ∧ v.toNat = n

theorem readsAs_bpwPos {s : State} (hs : s.Inv) : ReadsAs s .bpwPos (8 * s.bpw.olen.toNat + s.bpw.pend.toNat) := by
  obtain ⟨v, hv⟩ := readStatus_ok hs .bpwPos
  exact ⟨v, hv, (fit_ok_iff.1 hv).2⟩

/-- The reader has fetched at least the bits it still holds (R46), so the difference BPR_POS is a count. -/
theorem State.Inv.bprCnt_le {s : State} (hs : s.Inv) : s.bpr.cnt.toNat ≤ 8 * s.bpr.pos.toNat := by
  obtain ⟨_, _, _, _, ⟨_, _, _, hcnt, _⟩, _⟩ := hs
  exact hcnt

theorem readsAs_bprPos {s : State} (hs : s.Inv) : ReadsAs s .bprPos (8 * s.bpr.pos.toNat - s.bpr.cnt.toNat) := by
  obtain ⟨v, hv⟩ := readStatus_ok hs .bprPos
  have hfit := hv
  rw [readStatus, if_pos hs.bprCnt_le] at hfit
  exact ⟨v, hv, (fit_ok_iff.1 hfit).2⟩

/-- Row by row of R51: the number names a register, and that register is read as the row's content. -/
theorem statusRegisters_readAs {s : State} (hs : s.Inv) :
    ∀ e ∈ statusRegisters s, ∃ r, statusRegOf e.1 = some r ∧ ReadsAs s r e.2 := by
  simp only [statusRegisters, List.forall_mem_cons]
  exact ⟨⟨.rceStat, rfl, _, rfl, statWord_toNat _ _⟩, ⟨.rceLen, rfl, _, rfl, rfl⟩, ⟨.rceCap, rfl, _, rfl, rfl⟩,
    ⟨.rcePos, rfl, _, rfl, rfl⟩, ⟨.rcdStat, rfl, _, rfl, statWord_toNat _ _⟩, ⟨.rcdLen, rfl, _, rfl, rfl⟩,
    ⟨.rcdPos, rfl, _, rfl, rfl⟩, ⟨.bpwStat, rfl, _, rfl, statWord_toNat _ _⟩, ⟨.bpwLen, rfl, _, rfl, rfl⟩,
    ⟨.bpwCap, rfl, _, rfl, rfl⟩, ⟨.bpwPos, rfl, readsAs_bpwPos hs⟩, ⟨.bprStat, rfl, _, rfl, statWord_toNat _ _⟩,
    ⟨.bprLen, rfl, _, rfl, rfl⟩, ⟨.bprPos, rfl, readsAs_bprPos hs⟩,
    ⟨.cdtMult, rfl, _, rfl, BitVec.toNat_setWidth_of_le (by decide)⟩, ⟨.cc, rfl, _, rfl, rfl⟩, List.forall_mem_nil _⟩

/-- RDSR of a register that is read as `n` answers `n` and changes nothing else (R260). -/
theorem exec_rdsr_of_readsAs {s : State} {sr : BitVec 8} {r : StatusReg} {n : Nat} (hr : statusRegOf sr = some r)
    (h : ReadsAs s r n) : n < 2 ^ 32 ∧ exec (.rdsr sr) s = .next (s.answer .ok (BitVec.ofNat 32 n)) := by
  obtain ⟨v, hv, rfl⟩ := h
  refine ⟨v.isLt, ?_⟩
  simp only [exec, execRdsr, hr, hv, orFault_ok, State.respond, BitVec.ofNat_toNat, BitVec.setWidth_eq]

/-- RDSR's one check fails at every number that stands in no row of R51 (R260). -/
theorem firstError_rdsr_of_reserved {s : State} {sr : BitVec 8} (h : sr ∉ (statusRegisters s).map (fun r => r.1)) :
    firstError s (.rdsr sr) = some .operand := by
  rw [firstError_eq_firstOf]
  simp only [errorChecks, firstOf_cons]
  exact if_pos (by simpa [statusRegisters] using h)

/-- Settles O57: row by row the register is read as its content, and a reserved number fails RDSR's one check. -/
theorem rdsrReadsStatusRegisters : Obligations.RdsrReadsStatusRegisters := by
  refine ⟨fun s hs e he => ?register, fun s hs => hs.bprCnt_le, fun s sr h => ?reserved⟩
  case register =>
    obtain ⟨r, hr, hreads⟩ := statusRegisters_readAs hs e he
    exact exec_rdsr_of_readsAs hr hreads
  case reserved => exact execRdsr_reports (firstError_rdsr_of_reserved h)

end Sys2Proof.Machine
end

section
/-!
SUPPORT. Errors (spec/60_exceptions.md): the first failing check (R281), a session with a stored error (R278), the statuses a
command answers and the codes an ERR register holds (R272).
-/
namespace Sys2Proof.Machine

/-! ### No command, an illegal word, a failing check -/

theorem presented_eq_none {s : State} (h : ∀ w, s.ports ≠ .command w) : presented s = none := by
  unfold presented
  cases hp : s.ports with
  | command w => exact absurd hp (h w)
  | idle | response _ => rfl

/-- Settles O6: the one branch of `step` when nothing is presented. -/
theorem idleStepChangesNothing : Obligations.IdleStepChangesNothing := by
  intro s h
  rw [step, presented_eq_none h]

/-- Settles O20: an illegal word by O3, and a failing check by the unit's report of it. -/
theorem firstFailingCheckIsReported : Obligations.FirstFailingCheckIsReported := by
  obtain ⟨_, hillegal, _⟩ := illegalExactlyByThreeChecks
  exact ⟨hillegal, fun _ _ _ hs h => exec_reports hs h⟩

/-! ### A stored error -/

/-- Settles O25: the gate of each data command answers the stored error, and O29 and O38 say what FINISH does. -/
theorem storedErrorIsAnswered : Obligations.StoredErrorIsAnswered := by
  intro s
  obtain ⟨_, _, hrceFinish, _⟩ := rceFinishResult s
  obtain ⟨_, _, hbpwFinish, _⟩ := bpwFinishResult s
  refine ⟨fun hst herr => ⟨fun bit prob => ?_, hrceFinish hst herr⟩, fun hst herr prob => ?_,
    fun hst herr => ⟨fun value nbits => ?_, hbpwFinish hst herr⟩, fun hst herr nbits => ?_⟩
  · exact exec_rcePutbit_gated (by rw [hst, dataGate_error herr])
  · exact exec_rcdGetbit_gated (by rw [hst, dataGate_error herr])
  · exact exec_bpwPutbits_gated (by rw [hst, dataGate_error herr])
  · exact exec_bprReadbits_gated (by rw [hst, dataGate_error herr])

/-! ### The statuses of the table -/

/-- The response carries OK or one of these statuses. -/
def answersFrom (t : State) (es : List Status) : Prop := ∃ e, answeredWith t e ∧ (e = .ok ∨ e ∈ es)

theorem answersFrom_ok (u : State) (v : Reg32) (es : List Status) : answersFrom (u.answer .ok v) es :=
  ⟨.ok, ⟨v, rfl⟩, .inl rfl⟩

theorem answersFrom_of_mem {u : State} {e : Status} {v : Reg32} {es : List Status} (h : e ∈ es) :
    answersFrom (u.answer e v) es := ⟨e, ⟨v, rfl⟩, .inr h⟩

/-- What the gate of a data command answers is STATE or the stored code. -/
theorem answersFrom_gate {s : State} {st : Lifecycle} {err e : Status} {es : List Status} (hg : dataGate st err = some e)
    (hstate : .state ∈ es) (herr : err ∈ es) : answersFrom (s.answer e 0) es := by
  rcases dataGate_some hg with ⟨_, rfl⟩ | ⟨_, _, rfl⟩
  · exact answersFrom_of_mem hstate
  · exact answersFrom_of_mem herr

theorem execRce_statuses {i : Instr} {s t : State} (hi : unitOf i = .rce) (h : exec i s = .next t) :
    answersFrom t (statusRow s i) ∧
    (s.rce.err ∈ [.ok, .operand, .capacity] → t.rce.err ∈ [.ok, .operand, .capacity]) := by
  cases i with
  | rceInit cap =>
    rcases execRceInit_next h with ⟨_, rfl⟩ | ⟨_, _, _, rfl⟩ | ⟨_, rfl⟩
    · exact ⟨answersFrom_of_mem (by simp [statusRow]), id⟩
    · exact ⟨answersFrom_ok .., fun _ => by simp [openRce]⟩
    · exact ⟨answersFrom_of_mem (by simp [statusRow]), fun _ => by simp⟩
  | rcePutbit bit prob =>
    rcases execRcePutbit_next h with ⟨e, hg, rfl⟩ | ⟨_, _, _, rfl⟩ | ⟨_, _, rfl⟩ | ⟨_, _, _, _, _, u, hu, rfl⟩
    · exact ⟨answersFrom_gate hg (by simp [statusRow]) (by simp [statusRow]), id⟩
    · exact ⟨answersFrom_of_mem (by simp [statusRow]), fun _ => by simp⟩
    · exact ⟨answersFrom_of_mem (by simp [statusRow]), fun _ => by simp⟩
    · obtain ⟨_, herr, _⟩ := codeBit_frame hu
      exact ⟨answersFrom_ok .., by simp [herr]⟩
  | rceFinish =>
    rcases execRceFinish_next h with ⟨_, rfl⟩ | ⟨_, _, u, hu, rfl⟩ | ⟨_, _, rfl⟩
    · exact ⟨answersFrom_of_mem (by simp [statusRow]), id⟩
    · obtain ⟨_, herr, _⟩ := finishStream_frame hu
      exact ⟨answersFrom_ok .., by simp [herr]⟩
    · exact ⟨answersFrom_of_mem (by simp [statusRow]), id⟩
  | rceAbort =>
    rcases execRceAbort_next h with ⟨_, rfl⟩ | ⟨_, rfl⟩
    · exact ⟨answersFrom_of_mem (by simp [statusRow]), id⟩
    · exact ⟨answersFrom_ok .., fun _ => by simp⟩
  | _ => cases hi

theorem execRcd_statuses {i : Instr} {s t : State} (hi : unitOf i = .rcd) (h : exec i s = .next t) :
    answersFrom t (statusRow s i) ∧
    (s.rcd.err ∈ [.ok, .operand, .eos, .corrupt] → t.rcd.err ∈ [.ok, .operand, .eos, .corrupt]) := by
  cases i with
  | rcdInit len =>
    rcases execRcdInit_next h with ⟨e, he, rfl⟩ | ⟨v, _, _, _, _, rfl⟩
    · have hrow : e ∈ [.operand, .eos, .corrupt] := by simpa using he
      exact ⟨answersFrom_of_mem hrow, fun _ => List.mem_cons_of_mem _ hrow⟩
    · exact ⟨answersFrom_ok .., fun _ => by simp [openRcd]⟩
  | rcdGetbit prob =>
    rcases execRcdGetbit_next h with ⟨e, hg, rfl⟩ | ⟨_, _, e, he, rfl⟩ | ⟨_, _, _, _, b, v, r, u, _, _, hu, rfl⟩
    · exact ⟨answersFrom_gate hg (by simp [statusRow]) (by simp [statusRow]), id⟩
    · rcases he with rfl | rfl <;> exact ⟨answersFrom_of_mem (by simp [statusRow]), fun _ => by simp⟩
    · obtain ⟨_, herr, _⟩ := decodeBit_frame hu
      exact ⟨answersFrom_ok .., by simp [herr]⟩
  | _ => cases hi

theorem execBpw_statuses {i : Instr} {s t : State} (hi : unitOf i = .bpw) (h : exec i s = .next t) :
    answersFrom t (statusRow s i) ∧
    (s.bpw.err ∈ [.ok, .operand, .capacity] → t.bpw.err ∈ [.ok, .operand, .capacity]) := by
  cases i with
  | bpwInit cap =>
    rcases execBpwInit_next h with ⟨_, rfl⟩ | ⟨_, _, rfl⟩ | ⟨_, rfl⟩
    · exact ⟨answersFrom_of_mem (by simp [statusRow]), id⟩
    · exact ⟨answersFrom_ok .., fun _ => by simp [openBpw]⟩
    · exact ⟨answersFrom_of_mem (by simp [statusRow]), fun _ => by simp⟩
  | bpwPutbits value nbits =>
    rcases execBpwPutbits_next h with ⟨e, hg, rfl⟩ | ⟨_, _, e, he, rfl⟩ | ⟨_, _, _, _, u, hu, rfl⟩
    · exact ⟨answersFrom_gate hg (by simp [statusRow]) (by simp [statusRow]), id⟩
    · rcases he with rfl | rfl <;> exact ⟨answersFrom_of_mem (by simp [statusRow]), fun _ => by simp⟩
    · exact ⟨answersFrom_ok .., by simp [(packBits_frame hu).err]⟩
  | bpwFinish =>
    rcases execBpwFinish_next h with ⟨_, rfl⟩ | ⟨_, _, u, hu, rfl⟩ | ⟨_, _, rfl⟩
    · exact ⟨answersFrom_of_mem (by simp [statusRow]), id⟩
    · obtain ⟨_, herr, _⟩ := finishPack_frame hu
      exact ⟨answersFrom_ok .., by simp [herr]⟩
    · exact ⟨answersFrom_of_mem (by simp [statusRow]), id⟩
  | bpwAbort =>
    rcases execBpwAbort_next h with ⟨_, rfl⟩ | ⟨_, rfl⟩
    · exact ⟨answersFrom_of_mem (by simp [statusRow]), id⟩
    · exact ⟨answersFrom_ok .., fun _ => by simp⟩
  | _ => cases hi

theorem execBpr_statuses {i : Instr} {s t : State} (hi : unitOf i = .bpr) (h : exec i s = .next t) :
    answersFrom t (statusRow s i) ∧ (s.bpr.err ∈ [.ok, .operand, .eos] → t.bpr.err ∈ [.ok, .operand, .eos]) := by
  cases i with
  | bprInit len =>
    rcases execBprInit_next h with rfl | ⟨_, rfl⟩
    · exact ⟨answersFrom_of_mem (by simp [statusRow]), fun _ => by simp⟩
    · exact ⟨answersFrom_ok .., fun _ => by simp [openBpr]⟩
  | bprReadbits nbits =>
    rcases execBprReadbits_next h with ⟨e, hg, rfl⟩ | ⟨_, _, e, he, rfl⟩ | ⟨_, _, _, _, u, hu, rfl⟩
    · exact ⟨answersFrom_gate hg (by simp [statusRow]) (by simp [statusRow]), id⟩
    · rcases he with rfl | rfl <;> exact ⟨answersFrom_of_mem (by simp [statusRow]), fun _ => by simp⟩
    · obtain ⟨_, herr, _⟩ := refill_frame hu
      exact ⟨answersFrom_ok .., by simp [dropBits, herr]⟩
  | _ => cases hi

/-- SUBG, ADDG and CT.FWD, through their template. -/
theorem mapRange_answersFrom {f : Pixel → Pixel} {addr count : BitVec 16} {s t : State}
    (h : mapRange f addr count s = .next t) : answersFrom t [.addr] := by
  rcases mapRange_next h with ⟨_, rfl⟩ | ⟨m, _, _, rfl⟩
  · exact answersFrom_of_mem (by decide)
  · exact answersFrom_ok ..

/-- In every state the status of a response is OK or one of the command's row of R272. -/
theorem exec_answersFrom {i : Instr} {s t : State} (h : exec i s = .next t) : answersFrom t (statusRow s i) := by
  cases i with
  | rceInit _ | rcePutbit _ _ | rceFinish | rceAbort => exact (execRce_statuses rfl h).1
  | rcdInit _ | rcdGetbit _ => exact (execRcd_statuses rfl h).1
  | bpwInit _ | bpwPutbits _ _ | bpwFinish | bpwAbort => exact (execBpw_statuses rfl h).1
  | bprInit _ | bprReadbits _ => exact (execBpr_statuses rfl h).1
  | pred0 _ _ | pred1 _ _ | pred2 _ _ | pred3 _ _ | pred4 _ _ | pred5 _ _ | pred6 _ _ | pred7 _ _ | pred8 _ _
  | pred9 _ _ | pred10 _ _ | pred11 _ _ | pred12 _ _ | pred13 _ _ =>
    rcases predict_next h with ⟨_, rfl⟩ | ⟨tl, tt, tr, _, _, _, _, rfl⟩
    · exact answersFrom_of_mem (by simp [statusRow])
    · exact answersFrom_ok ..
  | subg _ _ | addg _ _ | ctFwd _ _ => exact mapRange_answersFrom h
  | ctSetm _ _ _ =>
    obtain rfl := respond_next h
    exact answersFrom_ok ..
  | ctInv _ _ _ =>
    rcases execCtInv_next h with ⟨_, rfl⟩ | ⟨m, _, _, _, rfl⟩
    · exact answersFrom_of_mem (by simp [statusRow])
    · exact answersFrom_ok ..
  | rdsr _ =>
    rcases execRdsr_next h with ⟨_, rfl⟩ | ⟨r, v, _, _, rfl⟩
    · exact answersFrom_of_mem (by simp [statusRow])
    · exact answersFrom_ok ..

/-- Settles O23: the status by the command's outcomes; a unit's ERR by those of its own commands, which alone write it. -/
theorem statusesAreThoseOfTheTable : Obligations.StatusesAreThoseOfTheTable := by
  intro i s t h
  obtain ⟨frce, frcd, fbpw, fbpr, _⟩ := (commandWritesOnlyItsUnit i s t h).others
  refine ⟨exec_answersFrom h, ?_, ?_, ?_, ?_⟩
  · by_cases hi : unitOf i = .rce
    · exact (execRce_statuses hi h).2
    · rw [frce hi]
      exact id
  · by_cases hi : unitOf i = .rcd
    · exact (execRcd_statuses hi h).2
    · rw [frcd hi]
      exact id
  · by_cases hi : unitOf i = .bpw
    · exact (execBpw_statuses hi h).2
    · rw [fbpw hi]
      exact id
  · by_cases hi : unitOf i = .bpr
    · exact (execBpr_statuses hi h).2
    · rw [fbpr hi]
      exact id

end Sys2Proof.Machine
end

section
/-!
SUPPORT. The lifecycle table (spec/60_exceptions.md R274, R276): for each command of a stateful unit, when it is barred, and the
lifecycle state it leaves.
-/
namespace Sys2Proof.Machine

/-! ### A row of the table -/

/-- A command leads from `s` to `t` as its row of R276 says: it is barred when `barred` holds and then changes nothing but `CC`,
only then does it answer STATE, and `onOk` holds after an OK response, `onError` after an error of a legal command. -/
def FollowsRow (s t : State) (barred onOk onError : Prop) : Prop :=
  (barred → t = s.answer .state 0) ∧ (answeredWith t .state → barred) ∧ (answeredWith t .ok → onOk) ∧
    (¬ barred → ¬ answeredWith t .ok → onError)

section
variable {s u : State} {barred onOk onError : Prop}

theorem followsRow_barred (hb : barred) : FollowsRow s (s.answer .state 0) barred onOk onError :=
  ⟨fun _ => rfl, fun _ => hb, fun ha => absurd (answeredWith_answer_iff.1 ha) (by decide), fun hl => absurd hb hl⟩

theorem followsRow_ok {v : Reg32} (hl : ¬ barred) (h : onOk) : FollowsRow s (u.answer .ok v) barred onOk onError :=
  ⟨fun hb => absurd hb hl, fun ha => absurd (answeredWith_answer_iff.1 ha) (by decide), fun _ => h,
    fun _ hn => absurd (answeredWith_answer_iff.2 rfl) hn⟩

theorem followsRow_error {e : Status} (hl : ¬ barred) (hok : e ≠ .ok) (hstate : e ≠ .state) (h : onError) :
    FollowsRow s (u.answer e 0) barred onOk onError :=
  ⟨fun hb => absurd hb hl, fun ha => absurd (answeredWith_answer_iff.1 ha).symm hstate,
    fun ha => absurd (answeredWith_answer_iff.1 ha).symm hok, fun _ _ => h⟩

/-- A data command is barred in IDLE; the stored error that stops it otherwise is not STATE. -/
theorem followsRow_gate {st : Lifecycle} {err e : Status} (hg : dataGate st err = some e) (herr : err ≠ .state) :
    FollowsRow s (s.answer e 0) (st = .idle) onOk True := by
  rcases dataGate_some hg with ⟨hst, rfl⟩ | ⟨hst, hok, rfl⟩
  · exact followsRow_barred hst
  · exact followsRow_error (by simp [hst]) hok herr trivial

end

/-- A state carries one response. -/
theorem answeredWith_unique {t : State} {e e' : Status} (h : answeredWith t e) (h' : answeredWith t e') : e = e' := by
  obtain ⟨v, hv⟩ := h
  obtain ⟨v', hv'⟩ := h'
  exact (answeredWith_answer_iff (s := t)).1 ⟨v, hv'.symm.trans hv⟩

/-- A command whose row of R272 has no STATE is legal in both lifecycle states. -/
theorem followsRow_alwaysLegal {s t : State} {es : List Status} (h : answersFrom t es) (hes : .state ∉ es) :
    FollowsRow s t False True True := by
  refine ⟨False.elim, fun ha => ?_, fun _ => trivial, fun _ _ => trivial⟩
  obtain ⟨e, he, hmem⟩ := h
  obtain rfl := answeredWith_unique ha he
  exact hmem.elim nofun hes

/-! ### The codes of a stored error -/

theorem rceInv.err_ne_state {c : Config} {u : Rce} (h : rceInv c u) : u.err ≠ .state := by
  obtain ⟨_, _, he | he | he, _⟩ := h <;> simp [he]

theorem rcdInv.err_ne_state {c : Config} {u : Rcd} (h : rcdInv c u) : u.err ≠ .state := by
  obtain ⟨_, he | he | he | he, _⟩ := h <;> simp [he]

theorem bpwInv.err_ne_state {c : Config} {u : Bpw} (h : bpwInv c u) : u.err ≠ .state := by
  obtain ⟨_, _, he | he | he, _⟩ := h <;> simp [he]

theorem bprInv.err_ne_state {c : Config} {u : Bpr} (h : bprInv c u) : u.err ≠ .state := by
  obtain ⟨_, he | he | he, _⟩ := h <;> simp [he]

/-! ### The range coder -/

theorem execRceInit_followsRow {cap : BitVec 32} {s t : State} (h : execRceInit cap s = .next t) :
    FollowsRow s t (s.rce.st = .active) (t.rce.st = .active) True := by
  rcases execRceInit_next h with ⟨hst, rfl⟩ | ⟨hst, _, _, rfl⟩ | ⟨hst, rfl⟩
  · exact followsRow_barred hst
  · exact followsRow_ok (by simp [hst]) rfl
  · exact followsRow_error (by simp [hst]) (by decide) (by decide) trivial

theorem execRcePutbit_followsRow {bit : Bool} {prob : BitVec 8} {s t : State} (herr : s.rce.err ≠ .state)
    (h : execRcePutbit bit prob s = .next t) : FollowsRow s t (s.rce.st = .idle) (t.rce.st = .active) True := by
  rcases execRcePutbit_next h with ⟨e, hg, rfl⟩ | ⟨hst, _, _, rfl⟩ | ⟨hst, _, rfl⟩ | ⟨hst, _, _, _, _, u, hu, rfl⟩
  · exact followsRow_gate hg herr
  · exact followsRow_error (by simp [hst]) (by decide) (by decide) trivial
  · exact followsRow_error (by simp [hst]) (by decide) (by decide) trivial
  · obtain ⟨hkeeps, _⟩ := codeBit_frame hu
    exact followsRow_ok (by simp [hst]) (hkeeps.trans hst)

theorem execRceFinish_followsRow {s t : State} (herr : s.rce.err ≠ .state) (h : execRceFinish s = .next t) :
    FollowsRow s t (s.rce.st = .idle) (t.rce.st = .idle) (t.rce.st = .idle) := by
  rcases execRceFinish_next h with ⟨hst, rfl⟩ | ⟨hst, _, u, hu, rfl⟩ | ⟨hst, hok, rfl⟩
  · exact followsRow_barred hst
  · obtain ⟨hidle, _⟩ := finishStream_frame hu
    exact followsRow_ok (by simp [hst]) hidle
  · exact followsRow_error (by simp [hst]) hok herr rfl

theorem execRceAbort_followsRow {s t : State} (h : execRceAbort s = .next t) :
    FollowsRow s t (s.rce.st = .idle) (t.rce.st = .idle) True := by
  rcases execRceAbort_next h with ⟨hst, rfl⟩ | ⟨hst, rfl⟩
  · exact followsRow_barred hst
  · exact followsRow_ok (by simp [hst]) rfl

theorem execRcdInit_followsRow {len : BitVec 32} {s t : State} (h : execRcdInit len s = .next t) :
    FollowsRow s t False (t.rcd.st = .active) (t.rcd.st = .idle) := by
  rcases execRcdInit_next h with ⟨e, he, rfl⟩ | ⟨v, _, _, _, _, rfl⟩
  · rcases he with rfl | rfl | rfl <;> exact followsRow_error id (by decide) (by decide) rfl
  · exact followsRow_ok id rfl

theorem execRcdGetbit_followsRow {prob : BitVec 8} {s t : State} (herr : s.rcd.err ≠ .state)
    (h : execRcdGetbit prob s = .next t) : FollowsRow s t (s.rcd.st = .idle) (t.rcd.st = .active) True := by
  rcases execRcdGetbit_next h with ⟨e, hg, rfl⟩ | ⟨hst, _, e, he, rfl⟩ | ⟨hst, _, _, _, b, v, r, u, _, _, hu, rfl⟩
  · exact followsRow_gate hg herr
  · rcases he with rfl | rfl <;> exact followsRow_error (by simp [hst]) (by decide) (by decide) trivial
  · obtain ⟨hkeeps, _⟩ := decodeBit_frame hu
    exact followsRow_ok (by simp [hst]) (hkeeps.trans hst)

/-! ### The bit packer -/

theorem execBpwInit_followsRow {cap : BitVec 32} {s t : State} (h : execBpwInit cap s = .next t) :
    FollowsRow s t (s.bpw.st = .active) (t.bpw.st = .active) True := by
  rcases execBpwInit_next h with ⟨hst, rfl⟩ | ⟨hst, _, rfl⟩ | ⟨hst, rfl⟩
  · exact followsRow_barred hst
  · exact followsRow_ok (by simp [hst]) rfl
  · exact followsRow_error (by simp [hst]) (by decide) (by decide) trivial

theorem execBpwPutbits_followsRow {value : BitVec 32} {nbits : BitVec 8} {s t : State} (herr : s.bpw.err ≠ .state)
    (h : execBpwPutbits value nbits s = .next t) : FollowsRow s t (s.bpw.st = .idle) (t.bpw.st = .active) True := by
  rcases execBpwPutbits_next h with ⟨e, hg, rfl⟩ | ⟨hst, _, e, he, rfl⟩ | ⟨hst, _, _, _, u, hu, rfl⟩
  · exact followsRow_gate hg herr
  · rcases he with rfl | rfl <;> exact followsRow_error (by simp [hst]) (by decide) (by decide) trivial
  · exact followsRow_ok (by simp [hst]) ((packBits_frame hu).st.trans hst)

theorem execBpwFinish_followsRow {s t : State} (herr : s.bpw.err ≠ .state) (h : execBpwFinish s = .next t) :
    FollowsRow s t (s.bpw.st = .idle) (t.bpw.st = .idle) (t.bpw.st = .idle) := by
  rcases execBpwFinish_next h with ⟨hst, rfl⟩ | ⟨hst, _, u, hu, rfl⟩ | ⟨hst, hok, rfl⟩
  · exact followsRow_barred hst
  · obtain ⟨hidle, _⟩ := finishPack_frame hu
    exact followsRow_ok (by simp [hst]) hidle
  · exact followsRow_error (by simp [hst]) hok herr rfl

theorem execBpwAbort_followsRow {s t : State} (h : execBpwAbort s = .next t) :
    FollowsRow s t (s.bpw.st = .idle) (t.bpw.st = .idle) True := by
  rcases execBpwAbort_next h with ⟨hst, rfl⟩ | ⟨hst, rfl⟩
  · exact followsRow_barred hst
  · exact followsRow_ok (by simp [hst]) rfl

theorem execBprInit_followsRow {len : BitVec 32} {s t : State} (h : execBprInit len s = .next t) :
    FollowsRow s t False (t.bpr.st = .active) (t.bpr.st = .idle) := by
  rcases execBprInit_next h with rfl | ⟨_, rfl⟩
  · exact followsRow_error id (by decide) (by decide) rfl
  · exact followsRow_ok id rfl

theorem execBprReadbits_followsRow {nbits : BitVec 8} {s t : State} (herr : s.bpr.err ≠ .state)
    (h : execBprReadbits nbits s = .next t) : FollowsRow s t (s.bpr.st = .idle) (t.bpr.st = .active) True := by
  rcases execBprReadbits_next h with ⟨e, hg, rfl⟩ | ⟨hst, _, e, he, rfl⟩ | ⟨hst, _, _, _, u, hu, rfl⟩
  · exact followsRow_gate hg herr
  · rcases he with rfl | rfl <;> exact followsRow_error (by simp [hst]) (by decide) (by decide) trivial
  · obtain ⟨hkeeps, _⟩ := refill_frame hu
    exact followsRow_ok (by simp [hst]) (hkeeps.trans hst)

/-! ### The table -/

/-- Settles O24: row by row; the commands of the predictors, the colour transform and RDSR have no STATE in their row of R272. -/
theorem lifecycleTableHolds : Obligations.LifecycleTableHolds := by
  intro i s t hs h
  obtain ⟨_, hrce, hrcd, hbpw, hbpr, _, _⟩ := hs
  cases i with
  | rceInit cap => exact execRceInit_followsRow h
  | rcePutbit bit prob => exact execRcePutbit_followsRow (rceInv.err_ne_state hrce) h
  | rceFinish => exact execRceFinish_followsRow (rceInv.err_ne_state hrce) h
  | rceAbort => exact execRceAbort_followsRow h
  | rcdInit len => exact execRcdInit_followsRow h
  | rcdGetbit prob => exact execRcdGetbit_followsRow (rcdInv.err_ne_state hrcd) h
  | bpwInit cap => exact execBpwInit_followsRow h
  | bpwPutbits value nbits => exact execBpwPutbits_followsRow (bpwInv.err_ne_state hbpw) h
  | bpwFinish => exact execBpwFinish_followsRow (bpwInv.err_ne_state hbpw) h
  | bpwAbort => exact execBpwAbort_followsRow h
  | bprInit len => exact execBprInit_followsRow h
  | bprReadbits nbits => exact execBprReadbits_followsRow (bprInv.err_ne_state hbpr) h
  | _ => exact followsRow_alwaysLegal (exec_answersFrom h) (by simp [statusRow])

end Sys2Proof.Machine
end
